-- ==== Sys2Proof/Word.lean ====
section
/-! DEFINITION. The word types of the machine, each with the width spec/00_scope.md R3 and spec/30_encoding.md R70 to R79 give it. -/

namespace Sys2Proof

/-- A 32-bit value: a general register, `pc`, `satp`, a virtual address, a PTE, an instruction word (R3: SXLEN = 32). -/
abbrev Word := BitVec 32

/-- The addressable unit of memory (R40). -/
abbrev Byte := BitVec 8

/-- A 34-bit supervisor physical address (R3, R71). -/
abbrev PhysAddr := BitVec 34

/-- A register number, the 5-bit fields `rd`, `rs1`, `rs2` (R78). -/
abbrev RegIdx := BitVec 5

/-- A control-register number, the 12-bit `csr` field (R78, R79). -/
abbrev CsrIdx := BitVec 12

/-- An address-space identifier, `satp[30:22]` (R72). -/
abbrev Asid := BitVec 9

/-- One of the two halves of a virtual page number (R70). -/
abbrev Vpn := BitVec 10

/-- A physical page number (R71). -/
abbrev Ppn := BitVec 22

end Sys2Proof
end

