-- ==== Sys2Proof/Syntax.lean ====
section
/-! DEFINITION. The instructions: one constructor per row of spec/opcode_table.json (spec/30_encoding.md R80), operands in the
order of the assembler syntax of R83. -/

namespace Sys2Proof

/-- The eleven instructions of the spec. -/
inductive Instr where
  /-- `lui rd, imm20` (R194). -/
  | lui (rd : RegIdx) (imm : BitVec 20)
  /-- `addi rd, rs1, imm12` (R195). -/
  | addi (rd rs1 : RegIdx) (imm : BitVec 12)
  /-- `add rd, rs1, rs2` (R196). -/
  | add (rd rs1 rs2 : RegIdx)
  /-- `bne rs1, rs2, offset`: a signed 13-bit even offset (R197). -/
  | bne (rs1 rs2 : RegIdx) (offset : BitVec 13)
  /-- `lw rd, imm12(rs1)` (R198). -/
  | lw (rd rs1 : RegIdx) (imm : BitVec 12)
  /-- `sw rs2, imm12(rs1)` (R199). -/
  | sw (rs2 rs1 : RegIdx) (imm : BitVec 12)
  /-- `amoadd.w rd, rs2, (rs1)` with its ordering bits (R200). -/
  | amoaddW (rd rs2 rs1 : RegIdx) (aq rl : Bool)
  /-- `csrrw rd, csr, rs1` (R201). -/
  | csrrw (rd : RegIdx) (csr : CsrIdx) (rs1 : RegIdx)
  /-- `csrrs rd, csr, rs1` (R202). -/
  | csrrs (rd : RegIdx) (csr : CsrIdx) (rs1 : RegIdx)
  /-- `csrrc rd, csr, rs1` (R203). -/
  | csrrc (rd : RegIdx) (csr : CsrIdx) (rs1 : RegIdx)
  /-- `sfence.vma rs1, rs2` (R172). -/
  | sfenceVma (rs1 rs2 : RegIdx)
deriving DecidableEq, Repr

end Sys2Proof
end

