-- ==== Sys2Proof/WellFormed.lean ====
section
/-! DEFINITION. Which terms of `Instr` are instructions. Register numbers, immediates and control-register numbers have
the widths of their fields in their types; the one further condition is the branch offset's (spec/30_encoding.md R79:
"a multiple of 2"). -/

namespace Sys2Proof

/-- A branch offset the B format can hold: bit 0 is not encoded and is 0 (R79). -/
def offsetEven (offset : BitVec 13) : Bool :=
  !offset.getLsbD 0

/-- The well-formedness check of an instruction term. -/
def Instr.wf : Instr → Bool
  | .lui _ _           => true
  | .addi _ _ _        => true
  | .add _ _ _         => true
  | .bne _ _ offset    => offsetEven offset
  | .lw _ _ _          => true
  | .sw _ _ _          => true
  | .amoaddW _ _ _ _ _ => true
  | .csrrw _ _ _       => true
  | .csrrs _ _ _       => true
  | .csrrc _ _ _       => true
  | .sfenceVma _ _     => true

end Sys2Proof
end

