-- ==== Sys2Proof/Decode.lean ====
section
/-! DEFINITION. Instruction words to instructions and back, from spec/30_encoding.md R78 to R82 (the encoding tables) and
spec/opcode_table.json. Decoding is total: a word that matches no row is rejected by name. -/

namespace Sys2Proof

/-- Why a byte sequence is no instruction of the spec. -/
inductive DecodeError where
  /-- The word matches none of the eleven rows of R80 (R82). -/
  | noRow (inst : Word)
  /-- Fewer than the four bytes of an instruction (R78). -/
  | truncated
deriving DecidableEq, Repr

/-- `v` at bits `lo` and up of an `n`-bit value, zeros elsewhere: one part of a concatenation `{a, b, …}` (R5), whose
parts are joined with `|||`. -/
def place {k : Nat} (n : Nat) (v : BitVec k) (lo : Nat) : BitVec n := v.setWidth n <<< lo

/-! ## The fields of the formats (R78) and the immediates (R79) -/

/-- `inst[6:0]`. -/
def opcodeField (w : Word) : BitVec 7 := w.extractLsb' 0 7
/-- `inst[11:7]`. -/
def rdField (w : Word) : RegIdx := w.extractLsb' 7 5
/-- `inst[14:12]`. -/
def funct3Field (w : Word) : BitVec 3 := w.extractLsb' 12 3
/-- `inst[19:15]`. -/
def rs1Field (w : Word) : RegIdx := w.extractLsb' 15 5
/-- `inst[24:20]`. -/
def rs2Field (w : Word) : RegIdx := w.extractLsb' 20 5
/-- `inst[31:25]`. -/
def funct7Field (w : Word) : BitVec 7 := w.extractLsb' 25 7
/-- `inst[31:27]` of the AMO format. -/
def funct5Field (w : Word) : BitVec 5 := w.extractLsb' 27 5
/-- `inst[31:20]`, the I immediate before its sign extension. -/
def immIField (w : Word) : BitVec 12 := w.extractLsb' 20 12
/-- `inst[31:20]`, the control-register number. -/
def csrField (w : Word) : CsrIdx := w.extractLsb' 20 12
/-- `inst[31:12]`, the upper 20 bits of the U immediate. -/
def immUField (w : Word) : BitVec 20 := w.extractLsb' 12 20
/-- `inst[31:25], inst[11:7]`, the S immediate before its sign extension. -/
def immSField (w : Word) : BitVec 12 := place 12 (w.extractLsb' 25 7) 5 ||| place 12 (w.extractLsb' 7 5) 0
/-- `inst[31], inst[7], inst[30:25], inst[11:8], 0`, the B immediate before its sign extension. -/
def immBField (w : Word) : BitVec 13 :=
  place 13 (w.extractLsb' 31 1) 12 ||| place 13 (w.extractLsb' 7 1) 11 ||| place 13 (w.extractLsb' 25 6) 5 |||
    place 13 (w.extractLsb' 8 4) 1
/-- `inst[26]`. -/
def aqField (w : Word) : Bool := w.getLsbD 26
/-- `inst[25]`. -/
def rlField (w : Word) : Bool := w.getLsbD 25

/-! ## Decoding -/

/-- The instructions with opcode 1110011: the three control-register forms and SFENCE.VMA (R80, R81). -/
def decodeSystem (w : Word) : Except DecodeError Instr :=
  if funct3Field w = 0b001#3 then .ok (.csrrw (rdField w) (csrField w) (rs1Field w))
  else if funct3Field w = 0b010#3 then .ok (.csrrs (rdField w) (csrField w) (rs1Field w))
  else if funct3Field w = 0b011#3 then .ok (.csrrc (rdField w) (csrField w) (rs1Field w))
  else if funct3Field w = 0b000#3 ∧ funct7Field w = 0b0001001#7 ∧ rdField w = 0b00000#5 then
    .ok (.sfenceVma (rs1Field w) (rs2Field w))
  else .error (.noRow w)

/-- The instruction a 32-bit word stands for (R80), or its rejection (R82). -/
def decodeWord (w : Word) : Except DecodeError Instr :=
  if opcodeField w = 0b0110111#7 then .ok (.lui (rdField w) (immUField w))
  else if opcodeField w = 0b0010011#7 ∧ funct3Field w = 0b000#3 then
    .ok (.addi (rdField w) (rs1Field w) (immIField w))
  else if opcodeField w = 0b0110011#7 ∧ funct3Field w = 0b000#3 ∧ funct7Field w = 0b0000000#7 then
    .ok (.add (rdField w) (rs1Field w) (rs2Field w))
  else if opcodeField w = 0b1100011#7 ∧ funct3Field w = 0b001#3 then
    .ok (.bne (rs1Field w) (rs2Field w) (immBField w))
  else if opcodeField w = 0b0000011#7 ∧ funct3Field w = 0b010#3 then
    .ok (.lw (rdField w) (rs1Field w) (immIField w))
  else if opcodeField w = 0b0100011#7 ∧ funct3Field w = 0b010#3 then
    .ok (.sw (rs2Field w) (rs1Field w) (immSField w))
  else if opcodeField w = 0b0101111#7 ∧ funct3Field w = 0b010#3 ∧ funct5Field w = 0b00000#5 then
    .ok (.amoaddW (rdField w) (rs2Field w) (rs1Field w) (aqField w) (rlField w))
  else if opcodeField w = 0b1110011#7 then decodeSystem w
  else .error (.noRow w)

/-- The 32-bit value of four bytes, the first one the least significant (R44, R78). -/
def wordOfBytes (b0 b1 b2 b3 : Byte) : Word := place 32 b3 24 ||| place 32 b2 16 ||| place 32 b1 8 ||| place 32 b0 0

/-- Byte `k` of a word, `k = 0` the least significant, which is stored first (R44). -/
def byteOfWord (w : Word) (k : Nat) : Byte := w.extractLsb' (8 * k) 8

/-- The instruction at the head of a byte sequence, and the bytes after it. -/
def decodeBytes : List Byte → Except DecodeError (Instr × List Byte)
  | b0 :: b1 :: b2 :: b3 :: rest =>
    match decodeWord (wordOfBytes b0 b1 b2 b3) with
    | .ok i    => .ok (i, rest)
    | .error e => .error e
  | _ => .error .truncated

/-! ## Encoding -/

/-- The R, I, S and AMO words share the places of `rs1`, `funct3` and the opcode (R78). -/
def rs1Word (rs1 : RegIdx) (funct3 : BitVec 3) (opcode : BitVec 7) : Word :=
  place 32 rs1 15 ||| place 32 funct3 12 ||| place 32 opcode 0

/-- The word of an instruction, written from the formats of R78 and the rows of R80 and R81. -/
def encode : Instr → Word
  | .lui rd imm => place 32 imm 12 ||| place 32 rd 7 ||| place 32 0b0110111#7 0
  | .addi rd rs1 imm => place 32 imm 20 ||| place 32 rd 7 ||| rs1Word rs1 0b000#3 0b0010011#7
  | .add rd rs1 rs2 =>
    place 32 0b0000000#7 25 ||| place 32 rs2 20 ||| place 32 rd 7 ||| rs1Word rs1 0b000#3 0b0110011#7
  | .bne rs1 rs2 off =>
    place 32 (off.extractLsb' 12 1) 31 ||| place 32 (off.extractLsb' 5 6) 25 ||| place 32 rs2 20 |||
      place 32 (off.extractLsb' 1 4) 8 ||| place 32 (off.extractLsb' 11 1) 7 ||| rs1Word rs1 0b001#3 0b1100011#7
  | .lw rd rs1 imm => place 32 imm 20 ||| place 32 rd 7 ||| rs1Word rs1 0b010#3 0b0000011#7
  | .sw rs2 rs1 imm =>
    place 32 (imm.extractLsb' 5 7) 25 ||| place 32 rs2 20 ||| place 32 (imm.extractLsb' 0 5) 7 |||
      rs1Word rs1 0b010#3 0b0100011#7
  | .amoaddW rd rs2 rs1 aq rl =>
    place 32 0b00000#5 27 ||| place 32 (BitVec.ofBool aq) 26 ||| place 32 (BitVec.ofBool rl) 25 ||| place 32 rs2 20 |||
      place 32 rd 7 ||| rs1Word rs1 0b010#3 0b0101111#7
  | .csrrw rd csr rs1 => place 32 csr 20 ||| place 32 rd 7 ||| rs1Word rs1 0b001#3 0b1110011#7
  | .csrrs rd csr rs1 => place 32 csr 20 ||| place 32 rd 7 ||| rs1Word rs1 0b010#3 0b1110011#7
  | .csrrc rd csr rs1 => place 32 csr 20 ||| place 32 rd 7 ||| rs1Word rs1 0b011#3 0b1110011#7
  | .sfenceVma rs1 rs2 =>
    place 32 0b0001001#7 25 ||| place 32 rs2 20 ||| place 32 0b00000#5 7 ||| rs1Word rs1 0b000#3 0b1110011#7

/-- The bytes of an instruction in the order they are stored (R78: little-endian). -/
def encodeBytes (i : Instr) : List Byte :=
  (List.range 4).map (byteOfWord (encode i))

/-! ## The opcode map as a table (R80) -/

/-- One row of R80's table: a word `w` is the row's instruction iff `w &&& mask = pattern`. -/
structure OpcodeRow where
  mnemonic : String
  pattern  : Word
  mask     : Word
deriving DecidableEq, Repr

/-- The table of R80, row for row. -/
def opcodeRows : List OpcodeRow := [
  ⟨"LUI",        0x00000037, 0x0000007f⟩,
  ⟨"ADDI",       0x00000013, 0x0000707f⟩,
  ⟨"ADD",        0x00000033, 0xfe00707f⟩,
  ⟨"BNE",        0x00001063, 0x0000707f⟩,
  ⟨"LW",         0x00002003, 0x0000707f⟩,
  ⟨"SW",         0x00002023, 0x0000707f⟩,
  ⟨"AMOADD.W",   0x0000202f, 0xf800707f⟩,
  ⟨"CSRRW",      0x00001073, 0x0000707f⟩,
  ⟨"CSRRS",      0x00002073, 0x0000707f⟩,
  ⟨"CSRRC",      0x00003073, 0x0000707f⟩,
  ⟨"SFENCE.VMA", 0x12000073, 0xfe007fff⟩]

/-- The table's name of an instruction. -/
def mnemonicOf : Instr → String
  | .lui _ _           => "LUI"
  | .addi _ _ _        => "ADDI"
  | .add _ _ _         => "ADD"
  | .bne _ _ _         => "BNE"
  | .lw _ _ _          => "LW"
  | .sw _ _ _          => "SW"
  | .amoaddW _ _ _ _ _ => "AMOADD.W"
  | .csrrw _ _ _       => "CSRRW"
  | .csrrs _ _ _       => "CSRRS"
  | .csrrc _ _ _       => "CSRRC"
  | .sfenceVma _ _     => "SFENCE.VMA"

/-- What the decoder reads from an instruction whose bits, numbered as spec/opcode_table.json numbers them, are the
`nbits` low bits of `w`; the bits above are 0. -/
def decodeTableWord (nbits w : Nat) : Option Instr :=
  let inst : Word := BitVec.ofNat 32 (w % 2 ^ nbits)
  match decodeBytes ((List.range 4).map (byteOfWord inst)) with
  | .ok (i, _) => some i
  | .error _   => none

end Sys2Proof
end

