-- ==== Sys2Proof/Config.lean ====
section
/-! DEFINITION. The implementation parameters of spec/00_scope.md R4: what is fixed for one machine and differs between machines. -/

namespace Sys2Proof

/-- The privilege modes U, S and M (R19, R240). -/
inductive Priv where
  | user
  | supervisor
  | machine
deriving DecidableEq, Repr, Inhabited

/-- `AD_SCHEME` (R4, R116, R117): `fault` raises a page fault where A or D is to be set, `update` sets it in memory. -/
inductive AdScheme where
  | fault
  | update
deriving DecidableEq, Repr, Inhabited

/-- `IMPLICIT_READ_VISIBILITY` (R4): does an implicit read that misses the cache see the hart's latest store
(`programOrder`), or is that sure only since the hart's last SFENCE.VMA (`sinceFence`; assumption log 25)? -/
inductive Visibility where
  | programOrder
  | sinceFence
deriving DecidableEq, Repr, Inhabited

/-- The kind of a physical access that `PhysCheck` is asked about (R48, R49). -/
inductive PhysKind where
  | exec
  | read
  | write
deriving DecidableEq, Repr, Inhabited

/-- One permission of a region: accesses of this kind in this mode pass. -/
structure Grant where
  kind : PhysKind
  priv : Priv
deriving DecidableEq, Repr

/-- One range `base ≤ address < base + size` of the platform's physical memory and what `PhysCheck` lets through there. -/
structure Region where
  base  : Nat
  size  : Nat
  allow : List Grant
deriving DecidableEq, Repr

/-- The parameters of R4 as plain data. A `State` carries one `Config`, no step changes it, and a claim about every
state is thereby a claim about every configuration (assumption log 1). -/
structure Config where
  /-- `AD_SCHEME`, one for the whole system (R119). -/
  adScheme         : AdScheme
  /-- `PALEN`, the number of implemented physical address bits (R42). -/
  palen            : Nat
  /-- `PhysCheck` (R48, R49) as a list of regions; the first one that holds a byte decides for it. -/
  regions          : List Region
  /-- `NONLEAF_DAU_FAULT` (R122). -/
  nonleafDauFault  : Bool
  /-- `ASIDLEN`, 0 to 9 (R14). -/
  asidLen          : Fin 10
  /-- `IMPLICIT_READ_VISIBILITY` (R4, R57, D20). -/
  implicitReads    : Visibility
  /-- `RESERVATION_SET`, its size in bytes (R63). -/
  reservationSize  : Nat
  /-- `RESERVATION_SET`, its alignment in bytes: a set starts at a multiple of it (R63). -/
  reservationAlign : Nat
  /-- `SV32_SUPPORTED` (R15). -/
  sv32Supported    : Bool
  /-- `RESET_PC` (R27). -/
  resetPc          : Word
  /-- `NHARTS`: harts sharing the memory; all but this one act as the environment (R4, R242; assumption log 10). -/
  nharts           : Nat
deriving DecidableEq, Repr

/-- Every access kind in every mode. -/
def Region.allGrants : List Grant :=
  [.exec, .read, .write].flatMap fun k => [.user, .supervisor, .machine].map fun p => ⟨k, p⟩

/-- No reservation set straddles a 4 KiB boundary (R63). The multiples of the alignment lie in a page at the multiples of
its greatest common divisor with 4096, and the last of those leaves that many bytes to the boundary (DEDUCED; assumption
log 21; stated as `Obligations.ReservationSetLiesInOnePage`). -/
def Config.reservationInPage (c : Config) : Bool :=
  decide (c.reservationSize ≤ Nat.gcd c.reservationAlign 4096)

/-- What R4 and the source require of a configuration: `PALEN` at least 1, a reservation set in one base page (R63), a
reset `pc` that is a multiple of 4 (R191), and one hart (R4: "1 in the executable model"). -/
def Config.wf (c : Config) : Bool :=
  decide (1 ≤ c.palen) && c.reservationInPage && decide (c.resetPc.extractLsb' 0 2 = 0#2) && decide (c.nharts = 1)

/-- The A/D scheme of the platform the reset state describes: R4 and D10 leave it OPEN, so it has no body (a free value). -/
opaque Config.platformAdScheme : AdScheme

/-- The configuration of the reset state: the defaults of R4 (`PALEN` 34, every address of the 34-bit space populated,
`NONLEAF_DAU_FAULT` true, `ASIDLEN` 9, `ProgramOrder`, `SV32_SUPPORTED` true, one hart), the free A/D scheme, and the
values of assumption log 2 where R4 says OPEN and a start needs a number (`RESET_PC`, the memory map, the reservation
set). -/
def Config.platform : Config where
  adScheme         := Config.platformAdScheme
  palen            := 34
  regions          := [⟨0, 2 ^ 34, Region.allGrants⟩]
  nonleafDauFault  := true
  asidLen          := 9
  implicitReads    := .programOrder
  reservationSize  := 4
  reservationAlign := 4
  sv32Supported    := true
  resetPc          := 0#32
  nharts           := 1

end Sys2Proof
end

