-- ==== Sys2Proof/Machine/State.lean ====
section
/-! DEFINITION. The state of the machine as plain data (spec/10_state.md), the reasons a step can stop, and the state
after reset (R27). -/

namespace Sys2Proof.Machine

/-- The access types of R100. A store-conditional or AMO is a `store`. -/
inductive AccessType where
  | fetch
  | load
  | store
deriving DecidableEq, Repr

/-- The level `i` of a walk: `one` for the root table, `zero` for the table below it (R133, R136). -/
inductive Level where
  | one
  | zero
deriving DecidableEq, Repr

/-- An entry of the address-translation cache (R24, R161). -/
structure AtcEntry where
  /-- `satp.ASID` latched in step 1 of the walk that made the read. -/
  asid    : Asid
  /-- The global tag of that read (R162). -/
  global  : Bool
  level   : Level
  vpn1    : Vpn
  /-- Meaningful only at level 0. -/
  vpn0    : Vpn
  /-- The physical address the value was read from. -/
  pteAddr : PhysAddr
  /-- The value read. -/
  pte     : Word
deriving DecidableEq, Repr

/-- The free choices of one implicit access (R162, R163, R168): which hitting cache entry answers a step-2 read (a
number that names no hitting entry stands for memory), which superseded value a read of memory sees where
`IMPLICIT_READ_VISIBILITY` is `SinceFence` (a number that names none stands for the latest), whether a value read from
or written to memory is put into the cache, whether a speculative walk sets a clear A bit, and what a speculative walk
sees in a word nothing has written. -/
structure Choice where
  use     : Option Nat
  older   : Option Nat
  fill    : Bool
  setA    : Bool
  unknown : Word
deriving DecidableEq, Repr

/-- What the agents beside the hart may do between two accesses of the hart (R10, R58). -/
inductive Event where
  /-- Another hart or a device stores one byte (R10d, R58). -/
  | store (pa : PhysAddr) (b : Byte)
  /-- The cache drops its entry number `k` (R166). -/
  | evict (k : Nat)
  /-- The walker runs the algorithm speculatively, as one indivisible step (R167 to R169). -/
  | specWalk (va : Word) (acc : AccessType) (priv : Priv) (choices : List Choice)
deriving DecidableEq, Repr

/-- What is drawn at one access: the events that land before it, in order, and the access's own free choices. -/
structure Draw where
  events : List Event
  choice : Choice
deriving DecidableEq, Repr

/-- Physical memory (R23, R62): the bytes that something has written, addresses strictly rising. An address that is not
listed holds no value (R27, D35, U19; assumption log 5). -/
abbrev Memory := List Host.Cell

/-- A word of memory as it was before a store of the hart that no SFENCE.VMA has followed, none where nothing had been
written: what an implicit read may still see under `SinceFence` (R57; assumption log 25). -/
structure Superseded where
  addr  : PhysAddr
  value : Option Word
deriving DecidableEq, Repr

/-- The part of the state that translation, the cache and the other agents act on. Translation "reads no general
register and writes no register" (R130), so nothing else is in reach of it. -/
structure MemSys where
  /-- Physical memory, page tables and their A and D bits included (R23). -/
  mem      : Memory
  /-- The hart's address-translation cache, a finite multiset (R24, R160). -/
  atc      : List AtcEntry
  /-- The words the hart has stored over since its last SFENCE.VMA, the latest first; kept under `SinceFence` only. -/
  unfenced : List Superseded
  /-- The model's own field: the free choices of R163 to R170 and the other agents' acts still to come, one `Draw` for
  each access (assumption log 3). An access past the end of the list is a quiet one. -/
  draws    : List Draw
deriving DecidableEq, Repr

/-- The exceptions of R230. -/
inductive ExcKind where
  | pageFault (acc : AccessType)
  | accessFault (acc : AccessType)
  | illegalInstruction
  | loadAddressMisaligned
  | storeAddressMisaligned
  | instructionAddressMisaligned
deriving DecidableEq, Repr

/-- The outcome record `Trap(kind, tval, epc)` of R235. -/
structure TrapRecord where
  kind : ExcKind
  tval : Word
  epc  : Word
deriving DecidableEq, Repr

/-- The fields of `mstatus` the hardware has (R16, R17, R20, R193). Every other bit reads 0 and ignores writes, and MPP
holds one of three modes, so the register is these fields. -/
structure Mstatus where
  /-- `mstatus[12:11]`. -/
  mpp  : Priv
  /-- `mstatus[17]`. -/
  mprv : Bool
  /-- `mstatus[18]`. -/
  sum  : Bool
  /-- `mstatus[19]`. -/
  mxr  : Bool
  /-- `mstatus[20]`. -/
  tvm  : Bool
deriving DecidableEq, Repr

/-- The state of one hart and its memory (R10). -/
structure State where
  /-- The parameters of R4; no step changes them (assumption log 1). -/
  cfg         : Config
  /-- `x1` to `x31` (R21, R190); `x0` has no storage. -/
  regs        : Vector Word 31
  /-- The program counter, a virtual address (R22, R191). -/
  pc          : Word
  /-- The current privilege mode (R19). -/
  priv        : Priv
  mstatus     : Mstatus
  /-- The translation register (R11 to R14): MODE 31, ASID 30:22, PPN 21:0. -/
  satp        : Word
  ms          : MemSys
  /-- The LR/SC reservation, the base of the set held (R25, R27). -/
  reservation : Option PhysAddr
  /-- The terminal outcome of the run, once an instruction has raised (R235, R206). -/
  trap        : Option TrapRecord
deriving DecidableEq, Repr

/-- Why the machine stops. -/
inductive Fault where
  /-- Raised by an explicit access, or by a walk made for one, that reads a physical byte nothing has written; the
  address is the word's. Safe: D35 and U19 call it `stuck`, and real hardware reads some value and goes on. -/
  | unwrittenMemory (pa : PhysAddr)
  /-- Raised by `step` in a state whose run has ended with a trap (R235: a "terminal outcome"). Safe: the spec gives no
  trap entry, and a platform's own starts from this state. -/
  | trapped (r : TrapRecord)
  /-- Raised by a walk whose retries outrun its bound. Safe, and never answered: a retry of step 7 uses up a draw, and
  the bound counts the draws (R142, U20). -/
  | walkRetriesExhausted
deriving DecidableEq, Repr

/-- Why an instruction gets no meaning. -/
inductive Refusal where
  /-- An instruction of the table that the model gives no meaning; raised by `exec`'s own arms only. Safe. -/
  | notModelled (mnemonic : String)
  /-- Raised by `step`: the word matches no row of R80 (R82, R192: `Refused(pc, inst)`). Safe. -/
  | outsideSubset (pc inst : Word)
  /-- Raised by `step`: `pc` is no multiple of 4, which R60 says "cannot arise" and a fetch that may cross a page "has
  no meaning (refuse)". Safe. -/
  | misalignedFetch (pc : Word)
deriving DecidableEq, Repr

/-- `mstatus` after reset: `MPRV = 0` (R27); the other fields are unspecified there (assumption log 4). -/
def Mstatus.reset : Mstatus := ⟨.user, false, false, false, false⟩

/-- The machine after reset: mode M, `MPRV = 0`, no reservation, `pc = RESET_PC` (R27, R260); what R27 leaves
unspecified holds the values of assumption log 4, and nothing is written in memory. -/
def State.reset : State where
  cfg         := Config.platform
  regs        := Vector.replicate 31 0#32
  pc          := Config.platform.resetPc
  priv        := .machine
  mstatus     := Mstatus.reset
  satp        := 0#32
  ms          := ⟨[], [], [], []⟩
  reservation := none
  trap        := none

end Sys2Proof.Machine
end

