-- ==== Sys2Proof/Machine/Flags.lean ====
section
/-! DEFINITION. The bits the hardware tests and sets. There are no condition codes (R28): the flags of this machine are the
fields of a page-table entry (spec/30_encoding.md R73 to R77, spec/40_addressing_and_protection.md), the fields of
`satp` (R72) and those of `mstatus` (R193). -/

namespace Sys2Proof.Machine

/-! ## Address fields (R70) -/

/-- `va[31:22]`. -/
def vpn1 (va : Word) : Vpn := va.extractLsb' 22 10
/-- `va[21:12]`. -/
def vpn0 (va : Word) : Vpn := va.extractLsb' 12 10
/-- `va.vpn[i]`. -/
def vpn (i : Level) (va : Word) : Vpn :=
  match i with
  | .one  => vpn1 va
  | .zero => vpn0 va
/-- `va[11:0]`. -/
def pageOffset (va : Word) : BitVec 12 := va.extractLsb' 0 12

/-! ## Page-table entries (R73) -/

def pteV (pte : Word) : Bool := pte.getLsbD 0
def pteR (pte : Word) : Bool := pte.getLsbD 1
def pteW (pte : Word) : Bool := pte.getLsbD 2
def pteX (pte : Word) : Bool := pte.getLsbD 3
def pteU (pte : Word) : Bool := pte.getLsbD 4
def pteG (pte : Word) : Bool := pte.getLsbD 5
def pteA (pte : Word) : Bool := pte.getLsbD 6
def pteD (pte : Word) : Bool := pte.getLsbD 7
/-- `pte[31:10]`. -/
def ptePpn (pte : Word) : Ppn := pte.extractLsb' 10 22
/-- `pte[31:20]`. -/
def ptePpn1 (pte : Word) : BitVec 12 := pte.extractLsb' 20 12
/-- `pte[19:10]`. -/
def ptePpn0 (pte : Word) : BitVec 10 := pte.extractLsb' 10 10

/-- The classes of R75. -/
inductive PteClass where
  | invalid
  | reservedRW
  | pointer
  | leaf
deriving DecidableEq, Repr

/-- `Class(pte)`: the first of R75's cases that applies. -/
def pteClass (pte : Word) : PteClass :=
  if !pteV pte then .invalid
  else if !pteR pte && pteW pte then .reservedRW
  else if !pteR pte && !pteW pte && !pteX pte then .pointer
  else .leaf

/-- `PointerReservedSet(pte)` (R75, R122). -/
def pointerReservedSet (pte : Word) : Bool :=
  decide (pteClass pte = .pointer) && (pteD pte || pteA pte || pteU pte)

/-- The U-bit test of R109. `priv` is S or U whenever it is asked. -/
def uOk (pte : Word) (acc : AccessType) (priv : Priv) (sum : Bool) : Bool :=
  match priv with
  | .user => pteU pte
  | .supervisor | .machine =>
    if !pteU pte then true
    else match acc with
      | .fetch         => false
      | .load | .store => sum

/-- The R, W, X test of R109. -/
def rwxOk (pte : Word) (acc : AccessType) (mxr : Bool) : Bool :=
  match acc with
  | .fetch => pteX pte
  | .load  => pteR pte || (mxr && pteX pte)
  | .store => pteW pte

/-- `Permitted(pte, acc, priv, SUM, MXR)` (R109). -/
def permitted (pte : Word) (acc : AccessType) (priv : Priv) (sum mxr : Bool) : Bool :=
  uOk pte acc priv sum && rwxOk pte acc mxr

/-- `NeedsUpdate(pte, acc)` (R115). -/
def needsUpdate (pte : Word) (acc : AccessType) : Bool :=
  !pteA pte || (decide (acc = .store) && !pteD pte)

/-- The word step 7 writes: A set, and D for a store, every other bit as it was (R117, R139). -/
def setAD (pte : Word) (acc : AccessType) : Word :=
  pte ||| 0x40#32 ||| (if acc = .store then 0x80#32 else 0#32)

/-- The word a speculative walk may write: only A set (R168). -/
def setA (pte : Word) : Word := pte ||| 0x40#32

/-! ## `satp` (R72) -/

/-- The values of `satp.MODE` (R12). -/
inductive SatpMode where
  | bare
  | sv32
deriving DecidableEq, Repr

def satpMode (satp : Word) : SatpMode := if satp.getLsbD 31 then .sv32 else .bare
def satpAsid (satp : Word) : Asid := satp.extractLsb' 22 9
def satpPpn (satp : Word) : Ppn := satp.extractLsb' 0 22

/-- The low `ASIDLEN` bits of an ASID: the implemented ones (R14). -/
def asidMask (len : Fin 10) : Asid := BitVec.ofNat 9 (2 ^ len.val - 1)

/-- The implemented bits of `satp` (R193). -/
def satpMask (len : Fin 10) : Word := 0x80000000#32 ||| place 32 (asidMask len) 22 ||| 0x003FFFFF#32

/-! ## `mstatus` and `sstatus` (R16, R17, R193) -/

/-- The two-bit number of a mode: U 0, S 1, M 3 (R17). -/
def privBits : Priv → BitVec 2
  | .user       => 0
  | .supervisor => 1
  | .machine    => 3

/-- The mode a two-bit number names; 2 names none (R193). -/
def privOfBits (b : BitVec 2) : Option Priv :=
  if b = 0 then some .user
  else if b = 1 then some .supervisor
  else if b = 3 then some .machine
  else none

/-- `mstatus` as it is read: TVM 20, MXR 19, SUM 18, MPRV 17, MPP 12:11, every other bit 0 (R193). -/
def Mstatus.toWord (m : Mstatus) : Word :=
  place 32 (BitVec.ofBool m.tvm) 20 ||| place 32 (BitVec.ofBool m.mxr) 19 ||| place 32 (BitVec.ofBool m.sum) 18 |||
    place 32 (BitVec.ofBool m.mprv) 17 ||| place 32 (privBits m.mpp) 11

/-- A write of `mstatus`; a write of 2 to MPP leaves MPP unchanged (R193). -/
def Mstatus.write (m : Mstatus) (v : Word) : Mstatus where
  mpp  := (privOfBits (v.extractLsb' 11 2)).getD m.mpp
  mprv := v.getLsbD 17
  sum  := v.getLsbD 18
  mxr  := v.getLsbD 19
  tvm  := v.getLsbD 20

/-- `sstatus` as it is read: the SUM and MXR bits of `mstatus` at their places, every other bit 0 (R193). -/
def Mstatus.toSstatus (m : Mstatus) : Word :=
  place 32 (BitVec.ofBool m.mxr) 19 ||| place 32 (BitVec.ofBool m.sum) 18

/-- A write of `sstatus` "changes only `mstatus[19:18]`" (R193). -/
def Mstatus.writeSstatus (m : Mstatus) (v : Word) : Mstatus :=
  { m with sum := v.getLsbD 18, mxr := v.getLsbD 19 }

/-! ## Exception codes (R230) -/

/-- The code of an exception (R230). -/
def excCode : ExcKind → Nat
  | .instructionAddressMisaligned => 0
  | .accessFault .fetch           => 1
  | .illegalInstruction           => 2
  | .loadAddressMisaligned        => 4
  | .accessFault .load            => 5
  | .storeAddressMisaligned       => 6
  | .accessFault .store           => 7
  | .pageFault .fetch             => 12
  | .pageFault .load              => 13
  | .pageFault .store             => 15

end Sys2Proof.Machine
end

