-- ==== Sys2Proof/Machine/Operands.lean ====
section
/-! DEFINITION. The operand forms: registers, immediates, effective addresses (spec/45_host_hart_subset.md R190 to R200,
spec/30_encoding.md R79). -/

namespace Sys2Proof.Machine

/-- A read of the register file: `x[0]` reads 0 (R190). -/
def readReg (regs : Vector Word 31) (r : RegIdx) : Word :=
  if r = 0#5 then 0#32 else regs[r.toNat - 1]'(by have := r.isLt; omega)

/-- A write of the register file: a write to `x[0]` is discarded (R190). -/
def writeReg (regs : Vector Word 31) (r : RegIdx) (v : Word) : Vector Word 31 :=
  if r = 0#5 then regs else regs.set (r.toNat - 1) v (by have := r.isLt; omega)

/-- `x[r]` (R6). -/
def State.x (s : State) (r : RegIdx) : Word := readReg s.regs r

/-- `x[r] <- v` (R6). -/
def State.setX (s : State) (r : RegIdx) (v : Word) : State := { s with regs := writeReg s.regs r v }

/-- `pc <- pc + 4`, modulo 2^32 (R191). -/
def State.advance (s : State) : State := { s with pc := s.pc + 4#32 }

/-- The U immediate `{inst[31:12], 12'b0}` (R79, R194). -/
def immU (imm : BitVec 20) : Word := place 32 imm 12

/-- The I and S immediates: `sext_32` of the 12-bit field (R79). -/
def imm12 (imm : BitVec 12) : Word := imm.signExtend 32

/-- The B immediate: `sext_32` of the 13-bit offset (R79). -/
def immB (offset : BitVec 13) : Word := offset.signExtend 32

/-- The effective address `x[rs1] + sext_32(imm)` of a load or store, modulo 2^32 (R198, R199, D31). -/
def effectiveAddr (s : State) (rs1 : RegIdx) (imm : BitVec 12) : Word := s.x rs1 + imm12 imm

/-- The target `pc + imm_B` of a branch, modulo 2^32 (R197). -/
def branchTarget (s : State) (offset : BitVec 13) : Word := s.pc + immB offset

/-- A multiple of 4 (R191, R198). -/
def aligned4 (a : Word) : Bool := decide (a.extractLsb' 0 2 = 0#2)

/-- The virtual address SFENCE.VMA selects, or `none` for all: the register number 0 selects "all" (R172). -/
def sfenceAddr (s : State) (rs1 : RegIdx) : Option Word :=
  if rs1 = 0#5 then none else some (s.x rs1)

end Sys2Proof.Machine
end

