-- ==== Sys2Proof/Machine/Ops.lean ====
section
/-! DEFINITION. The named operations over memory, the physical checks, the effective privilege mode, and taking an
exception. -/

namespace Sys2Proof.Machine

/-! ## Physical memory (R44) -/

/-- The canonical form: addresses strictly rising and inside the 34-bit space. No entry equals what an unlisted address
reads as, since an unlisted address holds no value. -/
def Memory.wf : Memory → Bool
  | []      => true
  | c :: cs => decide (c.1 < 2 ^ 34) && cs.all (fun d => decide (c.1 < d.1)) && Memory.wf cs

/-- The byte at an address, none where nothing has been written. -/
def Memory.read : Memory → Nat → Option Byte
  | [], _           => none
  | (a, b) :: cs, k => if k = a then some b else if k < a then none else Memory.read cs k

/-- Store one byte, keeping the canonical form. -/
def Memory.write : Memory → Nat → Byte → Memory
  | [], k, v           => [(k, v)]
  | (a, b) :: cs, k, v =>
    if k < a then (k, v) :: (a, b) :: cs
    else if k = a then (k, v) :: cs
    else (a, b) :: Memory.write cs k v

/-- The byte at a physical address. -/
def readByte (m : Memory) (pa : PhysAddr) : Option Byte := Memory.read m pa.toNat

/-- `PhysWrite(pa, 1, b)`. -/
def writeByte (m : Memory) (pa : PhysAddr) (b : Byte) : Memory := Memory.write m pa.toNat b

/-- `PhysRead(pa, 4)`: the little-endian value, none unless all four bytes have been written (R44). -/
def readWord (m : Memory) (pa : PhysAddr) : Option Word :=
  match readByte m pa, readByte m (pa + 1#34), readByte m (pa + 2#34), readByte m (pa + 3#34) with
  | some b0, some b1, some b2, some b3 => some (wordOfBytes b0 b1 b2 b3)
  | _, _, _, _                         => none

/-- `PhysWrite(pa, 4, v)`: byte `v[8k+7:8k]` at `pa + k` (R44). -/
def writeWord (m : Memory) (pa : PhysAddr) (v : Word) : Memory :=
  writeByte (writeByte (writeByte (writeByte m pa (byteOfWord v 0)) (pa + 1#34) (byteOfWord v 1))
    (pa + 2#34) (byteOfWord v 2)) (pa + 3#34) (byteOfWord v 3)

/-! ## Physical checks (R42, R48, R49, D11) -/

/-- Does the region hold the byte at `a`? -/
def regionHolds (r : Region) (a : Nat) : Bool := decide (r.base ≤ a) && decide (a < r.base + r.size)

/-- The check of one byte: the first region that holds it decides, and an unpopulated address fails. -/
def physCheckByte (c : Config) (a : Nat) (k : PhysKind) (p : Priv) : Bool :=
  match c.regions.find? (fun r => regionHolds r a) with
  | some r => r.allow.contains ⟨k, p⟩
  | none   => false

/-- `PhysCheck(pa, 4, kind, priv)`: every byte is populated and permitted, and none has an address bit at or above
`PALEN` set (R42). -/
def physCheck (c : Config) (pa : PhysAddr) (k : PhysKind) (p : Priv) : Bool :=
  decide (pa.toNat + 4 ≤ 2 ^ c.palen) && (List.range 4).all (fun i => physCheckByte c (pa.toNat + i) k p)

/-- `kind(acc)` of R49. -/
def physKind : AccessType → PhysKind
  | .fetch => .exec
  | .load  => .read
  | .store => .write

/-! ## Privilege (R17, R18) -/

/-- The effective privilege mode of an access: the current mode for a fetch; for a load or store `MPP` when the current mode
is M and `MPRV = 1`, and the current mode otherwise (R17 by its decision D8; R124, R240; assumption log 8). -/
def effPriv (s : State) (acc : AccessType) : Priv :=
  match acc with
  | .fetch         => s.priv
  | .load | .store => if decide (s.priv = .machine) && s.mstatus.mprv then s.mstatus.mpp else s.priv

/-- `ActiveNow` of R18, for the speculative walker. -/
def activeNow (s : State) : Bool :=
  decide (s.priv ≠ .machine) || (s.mstatus.mprv && decide (s.mstatus.mpp ≠ .machine))

/-! ## Taking an exception (R235) -/

/-- An exception and the value it records (R230, R232). -/
structure Exn where
  kind : ExcKind
  tval : Word
deriving DecidableEq, Repr

/-- Taking an exception: the run's terminal outcome `Trap(kind, tval, epc)` with `epc` the `pc` of the raising
instruction; `pc`, every register, `satp`, `mstatus` and the mode keep the values they had before the instruction, and
memory keeps what a part of the instruction that had already succeeded left (R235). The spec gives no trap entry
beyond this record and no return (R236, R237: not modelled); both are the platform's. -/
def takeTrap (e : Exn) (s : State) : State := { s with trap := some ⟨e.kind, e.tval, s.pc⟩ }

/-! ## The result of an operation that may raise -/

/-- An operation on the memory system answers a value, raises an exception, or stops; the first two leave a memory
system behind (R6, R238). -/
inductive MRes (α : Type) where
  | ok (a : α) (m : MemSys)
  | raised (e : Exn) (m : MemSys)
  | stuck (f : Fault)
deriving DecidableEq, Repr

/-- Go on after a successful operation. -/
def MRes.bind {α β : Type} (r : MRes α) (k : α → MemSys → MRes β) : MRes β :=
  match r with
  | .ok a m     => k a m
  | .raised e m => .raised e m
  | .stuck f    => .stuck f

/-- End an instruction with the result of its memory operation: go on with its effect, take the exception, or stop. -/
def finish {α : Type} (s : State) (r : MRes α) (k : α → State → Host.Outcome State Fault Refusal) :
    Host.Outcome State Fault Refusal :=
  match r with
  | .ok a m     => k a { s with ms := m }
  | .raised e m => .next (takeTrap e { s with ms := m })
  | .stuck f    => .fault f

/-- End an instruction with an exception of its own, nothing written (R191). -/
def raise (s : State) (k : ExcKind) (tval : Word) : Host.Outcome State Fault Refusal :=
  .next (takeTrap ⟨k, tval⟩ s)

end Sys2Proof.Machine
end

