-- ==== Sys2Proof/Machine/Branch.lean ====
section
/-! DEFINITION. The branch BNE (spec/45_host_hart_subset.md R197). -/

namespace Sys2Proof.Machine

/-- BNE (R197): taken to `pc + imm_B` when the registers differ; a taken target that is no multiple of 4 raises an
instruction-address-misaligned exception with `tval` the target. -/
def execBne (rs1 rs2 : RegIdx) (offset : BitVec 13) (s : State) : Host.Outcome State Fault Refusal :=
  if s.x rs1 ≠ s.x rs2 then
    if aligned4 (branchTarget s offset) then .next { s with pc := branchTarget s offset }
    else raise s .instructionAddressMisaligned (branchTarget s offset)
  else .next s.advance

end Sys2Proof.Machine
end

