-- ==== Sys2Proof/Machine/Csr.lean ====
section
/-! DEFINITION. The control registers and the instructions CSRRW, CSRRS, CSRRC (spec/45_host_hart_subset.md R193, R201 to
R204; spec/30_encoding.md R84). -/

namespace Sys2Proof.Machine

/-- The control registers of R193. -/
inductive Csr where
  | sstatus
  | satp
  | mstatus
deriving DecidableEq, Repr

/-- The register a number names (R84). -/
def csrOf (n : CsrIdx) : Option Csr :=
  if n = 0x100#12 then some .sstatus
  else if n = 0x180#12 then some .satp
  else if n = 0x300#12 then some .mstatus
  else none

/-- Is the current mode at least the one `csr[9:8]` requires (R84)? -/
def csrPrivOk (p : Priv) (n : CsrIdx) : Bool := decide ((n.extractLsb' 8 2).toNat ≤ (privBits p).toNat)

/-- The register an access may go on to, none where R204 raises an illegal-instruction exception. The check uses the
current mode, not the effective one. -/
def csrAccess (s : State) (n : CsrIdx) : Option Csr :=
  match csrOf n with
  | none   => none
  | some c =>
    if !csrPrivOk s.priv n then none
    else if decide (c = .satp) && decide (s.priv = .supervisor) && s.mstatus.tvm then none
    else some c

/-- `CSR[csr]` (R193). -/
def csrRead (s : State) (c : Csr) : Word :=
  match c with
  | .sstatus => s.mstatus.toSstatus
  | .satp    => s.satp
  | .mstatus => s.mstatus.toWord

/-- `satp` after a write (R15): implemented bits only, and the write is ignored as a whole where it selects an
unsupported MODE. -/
def satpAfterWrite (s : State) (v : Word) : Word :=
  if decide (satpMode v = .sv32) && !s.cfg.sv32Supported then s.satp else v &&& satpMask s.cfg.asidLen

/-- `CSR[csr] <- v`, implemented bits only (R193, R201). A write of `satp` removes no cache entry (R177). -/
def csrWrite (s : State) (c : Csr) (v : Word) : State :=
  match c with
  | .sstatus => { s with mstatus := s.mstatus.writeSstatus v }
  | .satp    => { s with satp := satpAfterWrite s v }
  | .mstatus => { s with mstatus := s.mstatus.write v }

/-- A control-register instruction `i`: the access check; the old value; the new value, if there is one to write; the
old value into `rd`. The exception records the instruction word (R230). -/
def csrInstr (i : Instr) (rd : RegIdx) (n : CsrIdx) (new : Word → Option Word) (s : State) :
    Host.Outcome State Fault Refusal :=
  match csrAccess s n with
  | none   => raise s .illegalInstruction (encode i)
  | some c =>
    let t := csrRead s c
    let s' := match new t with
      | some v => csrWrite s c v
      | none   => s
    .next (s'.setX rd t).advance

/-- CSRRW (R201). -/
def execCsrrw (rd : RegIdx) (csr : CsrIdx) (rs1 : RegIdx) (s : State) : Host.Outcome State Fault Refusal :=
  csrInstr (.csrrw rd csr rs1) rd csr (fun _ => some (s.x rs1)) s

/-- CSRRS (R202): with the register number `rs1 = 0` it only reads. -/
def execCsrrs (rd : RegIdx) (csr : CsrIdx) (rs1 : RegIdx) (s : State) : Host.Outcome State Fault Refusal :=
  csrInstr (.csrrs rd csr rs1) rd csr (fun t => if rs1 = 0#5 then none else some (t ||| s.x rs1)) s

/-- CSRRC (R203): with the register number `rs1 = 0` it only reads. -/
def execCsrrc (rd : RegIdx) (csr : CsrIdx) (rs1 : RegIdx) (s : State) : Host.Outcome State Fault Refusal :=
  csrInstr (.csrrc rd csr rs1) rd csr (fun t => if rs1 = 0#5 then none else some (t &&& ~~~(s.x rs1))) s

end Sys2Proof.Machine
end

