-- ==== Sys2Proof/Machine/Cache.lean ====
section
/-! DEFINITION. The address-translation cache (spec/42_translation_cache_and_sfence.md R160 to R174). -/

namespace Sys2Proof.Machine

/-- The choices of a quiet access: memory answers, nothing is put into the cache, A is not set speculatively. -/
def Choice.quiet : Choice := ⟨none, none, false, false, 0#32⟩

/-- A quiet access: no other agent acts. -/
def Draw.quiet : Draw := ⟨[], Choice.quiet⟩

/-- Take the next draw; past the end of the list every access is quiet (the cache-free machine of R145). -/
def popDraw (m : MemSys) : Draw × MemSys :=
  match m.draws with
  | []      => (Draw.quiet, m)
  | d :: ds => (d, { m with draws := ds })

/-- `Hit(e, i, va, asid)` (R163). -/
def hit (e : AtcEntry) (i : Level) (va : Word) (asid : Asid) : Bool :=
  decide (e.level = i) && (decide (e.asid = asid) || e.global) && decide (e.vpn1 = vpn1 va) &&
    (decide (i = .one) || decide (e.vpn0 = vpn0 va))

/-- The entry the choice names among those that hit, if it names one (R163, R164). -/
def chooseHit (atc : List AtcEntry) (i : Level) (va : Word) (asid : Asid) (use : Option Nat) : Option AtcEntry :=
  match use with
  | none   => none
  | some k => (atc.filter (fun e => hit e i va asid))[k]?

/-- The superseded value of the word at `addr` the choice names, if implicit reads may miss the hart's latest stores and
it names one (R4, R57; assumption log 25). -/
def chooseOlder (vis : Visibility) (unfenced : List Superseded) (addr : PhysAddr) (older : Option Nat) :
    Option Superseded :=
  match vis, older with
  | .sinceFence, some k => (unfenced.filter (fun w => decide (w.addr = addr)))[k]?
  | .sinceFence, none   => none
  | .programOrder, _    => none

/-- The word an implicit read of memory sees; the re-read after a failed comparison, `fresh`, sees the latest (R139). -/
def implicitRead (vis : Visibility) (c : Choice) (fresh : Bool) (addr : PhysAddr) (m : MemSys) : Option Word :=
  match if fresh then none else chooseOlder vis m.unfenced addr c.older with
  | some w => w.value
  | none   => readWord m.mem addr

/-- Remember the word at `addr` before an explicit store of the hart to it. -/
def supersede (vis : Visibility) (addr : PhysAddr) (m : MemSys) : List Superseded :=
  match vis with
  | .programOrder => m.unfenced
  | .sinceFence   => ⟨addr, readWord m.mem addr⟩ :: m.unfenced

/-- `ATC ← ATC ∪ {e}`, if the hart chooses to (R162). -/
def fillAtc (fill : Bool) (e : AtcEntry) (m : MemSys) : MemSys :=
  if fill then { m with atc := e :: m.atc } else m

/-- The entry of a walk's read: the ASID of step 1, the global tag, the level, the VPNs, where the value was read and
the value (R161, R162). -/
def entryOf (va : Word) (asid : Asid) (i : Level) (global : Bool) (addr : PhysAddr) (pte : Word) : AtcEntry where
  asid    := asid
  global  := global
  level   := i
  vpn1    := vpn1 va
  vpn0    := vpn0 va
  pteAddr := addr
  pte     := pte

/-- `Covers(e, V)` (R173). -/
def covers (e : AtcEntry) (v : Word) : Bool :=
  decide (e.vpn1 = vpn1 v) && (decide (e.level = .one) || decide (e.vpn0 = vpn0 v))

/-- `Terminal(e)` (R173). -/
def terminal (e : AtcEntry) : Bool :=
  decide (e.level = .zero) || decide (pteClass e.pte ≠ .pointer)

/-- `MustRemove(e)` (R173), for the selected address and ASID; `none` selects all. -/
def mustRemove (va : Option Word) (asid : Option Asid) (e : AtcEntry) : Bool :=
  (match asid with
    | none   => true
    | some a => decide (e.asid = a) && !e.global) &&
  (match va with
    | none   => true
    | some v => covers e v && terminal e)

/-- The removal SFENCE.VMA must make (R172, R173). -/
def fenceAtc (va : Option Word) (asid : Option Asid) (m : MemSys) : MemSys :=
  { m with atc := m.atc.filter (fun e => !mustRemove va asid e) }

/-- The ordering half of SFENCE.VMA: every earlier store of the hart is before every later implicit read (R172, D18). -/
def fenceStores (m : MemSys) : MemSys := { m with unfenced := [] }

end Sys2Proof.Machine
end

