-- ==== Sys2Proof/Machine/Translate.lean ====
section
/-! DEFINITION. The translation algorithm (spec/41_translation_algorithm.md R130 to R141) with the cache's one widening of it
(R163), its speculative executions (R167 to R169), the other agents' acts between accesses (R58), and the explicit
accesses that call it (spec/20_memory.md R49, R59). -/

namespace Sys2Proof.Machine

/-- What a walk reads and cannot write: the configuration, `satp`, SUM, MXR (R131) and `ActiveNow` (R18). -/
structure Mmu where
  cfg    : Config
  satp   : Word
  sum    : Bool
  mxr    : Bool
  active : Bool
deriving DecidableEq, Repr

/-- The walk's view of a state. -/
def State.mmu (s : State) : Mmu := ⟨s.cfg, s.satp, s.mstatus.sum, s.mstatus.mxr, activeNow s⟩

/-- `a <- {ppn, 12'b0}` (R133, R136). -/
def tableBase (ppn : Ppn) : PhysAddr := place 34 ppn 12

/-- `a + zext_34(va.vpn[i]) × 4` (R134). -/
def pteAddress (a : PhysAddr) (i : Level) (va : Word) : PhysAddr := a + (vpn i va).setWidth 34 * 4#34

/-- `pa` of step 8 (R140). -/
def finalPa (i : Level) (pte va : Word) : PhysAddr :=
  match i with
  | .zero => place 34 (ptePpn pte) 12 ||| place 34 (pageOffset va) 0
  | .one  => place 34 (ptePpn1 pte) 22 ||| place 34 (vpn0 va) 12 ||| place 34 (pageOffset va) 0

/-- The result of a step-2 read: where the PTE is, its value, its global tag. -/
structure PteRead where
  addr   : PhysAddr
  pte    : Word
  global : Bool
deriving DecidableEq, Repr

/-- `Step2Read` of R163 under one choice: a hitting entry answers with no memory access and no check, or memory is
read after its check (R48), as far as implicit reads see it, and the value may be put into the cache (R162). The
speculative walker sees any value in a word nothing has written; a walk made for an access stops there (D35; assumption
log 5). -/
def step2Read (e : Mmu) (spec : Bool) (c : Choice) (acc : AccessType) (va : Word) (i : Level) (a : PhysAddr)
    (gAbove fresh : Bool) (m : MemSys) : MRes PteRead :=
  match if fresh then none else chooseHit m.atc i va (satpAsid e.satp) c.use with
  | some h => .ok ⟨h.pteAddr, h.pte, h.global⟩ m
  | none =>
    let addr := pteAddress a i va
    if physCheck e.cfg addr .read .supervisor then
      match implicitRead e.cfg.implicitReads c fresh addr m, spec with
      | some pte, _   => .ok ⟨addr, pte, gAbove || pteG pte⟩
          (fillAtc c.fill (entryOf va (satpAsid e.satp) i (gAbove || pteG pte) addr pte) m)
      | none, true    => .ok ⟨addr, c.unknown, gAbove || pteG c.unknown⟩
          (fillAtc c.fill (entryOf va (satpAsid e.satp) i (gAbove || pteG c.unknown) addr c.unknown) m)
      | none, false   => .stuck (.unwrittenMemory addr)
    else .raised ⟨.accessFault acc, va⟩ m

/-- What steps 3 to 6 make of a PTE. -/
inductive Verdict where
  | pageFault
  /-- A pointer at level 1: go to step 2 with this table (R136). -/
  | descend (a : PhysAddr)
  /-- A leaf that passed steps 5 and 6. -/
  | leaf
deriving DecidableEq, Repr

/-- Steps 3 to 6 (R135 to R138) in their order. -/
def inspect (e : Mmu) (acc : AccessType) (priv : Priv) (i : Level) (pte : Word) : Verdict :=
  match pteClass pte with
  | .invalid | .reservedRW => .pageFault
  | .pointer =>
    if e.cfg.nonleafDauFault && pointerReservedSet pte then .pageFault
    else match i with
      | .zero => .pageFault
      | .one  => .descend (tableBase (ptePpn pte))
  | .leaf =>
    if !permitted pte acc priv e.sum e.mxr then .pageFault
    else if decide (i = .one) && decide (ptePpn0 pte ≠ 0#10) then .pageFault
    else .leaf

/-- The outcome of step 7. -/
inductive Step7 where
  | done (m : MemSys)
  | raised (k : ExcKind) (m : MemSys)
  /-- The comparison failed: "return to step 2". -/
  | retry (m : MemSys)
  | stuck (f : Fault)
deriving DecidableEq, Repr

/-- One access of the walk: take its draw and let the drawn events land (R58). -/
def accessPoint (land : List Event → MemSys → MemSys) (m : MemSys) : Choice × MemSys :=
  let (d, m') := popDraw m
  (d.choice, land d.events m')

/-- The atomic part of step 7 (R139): compare the walk's PTE with memory, never with the cache (R165), and write the
whole PTE (R45) if they are equal. The walk may put the value it wrote into the cache "as if it had re-read the word"
(R179), with the global tag of such a re-read, `g_above or pte.g` of R162 (DEDUCED; assumption log 12). A speculative
walk sets only A, and only if it chooses to (R168). -/
def compareAndSet (e : Mmu) (spec : Bool) (c : Choice) (acc : AccessType) (va : Word) (i : Level) (gAbove : Bool)
    (r : PteRead) (m : MemSys) : Step7 :=
  if spec && (pteA r.pte || !c.setA) then .done m
  else match readWord m.mem r.addr with
    | none     => if spec then .done m else .stuck (.unwrittenMemory r.addr)
    | some cur =>
      if cur = r.pte then
        let new := if spec then setA r.pte else setAD r.pte acc
        .done (fillAtc c.fill (entryOf va (satpAsid e.satp) i (gAbove || pteG new) r.addr new)
          { m with mem := writeWord m.mem r.addr new })
      else .retry m

/-- Step 7 (R139) under the system's A/D scheme (R116, R117). -/
def step7 (e : Mmu) (spec : Bool) (land : List Event → MemSys → MemSys) (acc : AccessType) (va : Word) (i : Level)
    (gAbove : Bool) (r : PteRead) (m : MemSys) : Step7 :=
  if !needsUpdate r.pte acc then .done m
  else match e.cfg.adScheme with
    | .fault  => .raised (.pageFault acc) m
    | .update =>
      if !physCheck e.cfg r.addr .write .supervisor then .raised (.accessFault acc) m
      else
        let (c, m') := accessPoint land m
        compareAndSet e spec c acc va i gAbove r m'

/-- Steps 2 to 8 (R141), at most `n` passes through step 2. -/
def walk (e : Mmu) (spec : Bool) (land : List Event → MemSys → MemSys) (acc : AccessType) (va : Word) (priv : Priv) :
    Nat → Level → PhysAddr → Bool → Bool → MemSys → MRes PhysAddr
  | 0, _, _, _, _, _ => .stuck .walkRetriesExhausted
  | n + 1, i, a, gAbove, fresh, m =>
    let (c, m1) := accessPoint land m
    (step2Read e spec c acc va i a gAbove fresh m1).bind fun r m2 =>
      match inspect e acc priv i r.pte with
      | .pageFault  => .raised ⟨.pageFault acc, va⟩ m2
      | .descend a' => walk e spec land acc va priv n .zero a' r.global false m2
      | .leaf =>
        match step7 e spec land acc va i gAbove r m2 with
        | .done m3     => .ok (finalPa i r.pte va) m3
        | .raised k m3 => .raised ⟨k, va⟩ m3
        | .retry m3    => walk e spec land acc va priv n i a gAbove true m3
        | .stuck f     => .stuck f

/-- How many passes a walk may make: one per level, and one more for each draw left, since a retry takes a stale cache
entry or another agent's store, and either uses up a draw (R142; assumption log 6). -/
def walkBound (m : MemSys) : Nat := m.draws.length + 2

/-- A whole walk from step 1: `a` from `satp.PPN`, `i = 1`, the tag of the root false (R133, R141). -/
def walkFromRoot (e : Mmu) (spec : Bool) (land : List Event → MemSys → MemSys) (acc : AccessType) (va : Word)
    (priv : Priv) (m : MemSys) : MRes PhysAddr :=
  walk e spec land acc va priv (walkBound m) .one (tableBase (satpPpn e.satp)) false false m

/-- Nothing lands inside a speculative walk, which is one indivisible step (R169). -/
def landNothing (_ : List Event) (m : MemSys) : MemSys := m

/-- `SpecWalk(va, acc, priv)` (R167, R168): enabled while `satp` is active and MODE is Sv32, for modes S and U; it takes
its own choices, raises nothing, and leaves its cache entries and A bits behind. -/
def specWalk (e : Mmu) (va : Word) (acc : AccessType) (priv : Priv) (choices : List Choice) (m : MemSys) : MemSys :=
  if decide (satpMode e.satp = .sv32) && e.active && decide (priv ≠ .machine) then
    match walkFromRoot e true landNothing acc va priv { m with draws := choices.map (fun c => ⟨[], c⟩) } with
    | .ok _ m'     => { m' with draws := m.draws }
    | .raised _ m' => { m' with draws := m.draws }
    | .stuck _     => m
  else m

/-- One act of an agent beside the hart (R10 b, c, d). -/
def applyEvent (e : Mmu) (ev : Event) (m : MemSys) : MemSys :=
  match ev with
  | .store pa b                    => { m with mem := writeByte m.mem pa b }
  | .evict k                       => { m with atc := m.atc.eraseIdx k }
  | .specWalk va acc priv choices  => specWalk e va acc priv choices m

/-- The acts of one draw, in order. -/
def applyEvents (e : Mmu) (evs : List Event) (m : MemSys) : MemSys :=
  evs.foldl (fun m ev => applyEvent e ev m) m

/-- One access of the hart: take its draw and let the drawn events land. -/
def atAccess (e : Mmu) (m : MemSys) : Choice × MemSys := accessPoint (applyEvents e) m

/-- `Translate(va, acc, ctx)` (R130 to R132, R141). -/
def translate (e : Mmu) (acc : AccessType) (va : Word) (priv : Priv) (m : MemSys) : MRes PhysAddr :=
  if satpMode e.satp = .bare ∨ priv = .machine then .ok (va.setWidth 34) m
  else walkFromRoot e false (applyEvents e) acc va priv m

/-- The translation of an explicit access and the final check of its physical address (R49); then the events that fall
between the translation and the access land (R56). Every access is 4 bytes (R59). -/
def resolve (e : Mmu) (acc : AccessType) (va : Word) (priv : Priv) (m : MemSys) : MRes PhysAddr :=
  (translate e acc va priv m).bind fun pa m1 =>
    if physCheck e.cfg pa (physKind acc) priv then .ok pa (atAccess e m1).2
    else .raised ⟨.accessFault acc, va⟩ m1

/-- `PhysRead(pa, 4)` as an explicit access: it stops where nothing has been written (D35). -/
def readMem (pa : PhysAddr) (m : MemSys) : MRes Word :=
  match readWord m.mem pa with
  | some v => .ok v m
  | none   => .stuck (.unwrittenMemory pa)

/-- `PhysWrite(pa, 4, v)` as an explicit access of the hart. -/
def writeMem (e : Mmu) (pa : PhysAddr) (v : Word) (m : MemSys) : MRes Unit :=
  .ok () { m with mem := writeWord m.mem pa v, unfenced := supersede e.cfg.implicitReads pa m }

/-- `MemRead(va, 4)` (R6). -/
def memRead (e : Mmu) (va : Word) (priv : Priv) (m : MemSys) : MRes Word :=
  (resolve e .load va priv m).bind readMem

/-- `MemWrite(va, 4, v)` (R6). -/
def memWrite (e : Mmu) (va : Word) (priv : Priv) (v : Word) (m : MemSys) : MRes Unit :=
  (resolve e .store va priv m).bind fun pa m' => writeMem e pa v m'

/-- The read and write of an AMO, with nothing in between; it is translated once, as a store (R104, R200). It answers
the value read. -/
def memAmo (e : Mmu) (va : Word) (priv : Priv) (f : Word → Word) (m : MemSys) : MRes Word :=
  (resolve e .store va priv m).bind fun pa m' =>
    (readMem pa m').bind fun t m'' => (writeMem e pa (f t) m'').bind fun _ m''' => .ok t m'''

/-- `Fetch(pc)` (R6, R191). -/
def fetch (s : State) : MRes Word :=
  (resolve s.mmu .fetch s.pc (effPriv s .fetch) s.ms).bind readMem

end Sys2Proof.Machine
end

