-- ==== Sys2Proof/Machine/Fence.lean ====
section
/-! DEFINITION. SFENCE.VMA (spec/42_translation_cache_and_sfence.md R172 to R176). -/

namespace Sys2Proof.Machine

/-- The ASID SFENCE.VMA selects, or `none` for all: the register number 0 selects "all"; else the low `ASIDLEN` bits of
the register (R172). -/
def sfenceAsid (s : State) (rs2 : RegIdx) : Option Asid :=
  if rs2 = 0#5 then none else some ((s.x rs2).extractLsb' 0 9 &&& asidMask s.cfg.asidLen)

/-- May the current mode execute SFENCE.VMA (R175)? -/
def sfenceAllowed (s : State) : Bool :=
  match s.priv with
  | .user       => false
  | .supervisor => !s.mstatus.tvm
  | .machine    => true

/-- SFENCE.VMA (R172). The hart may remove more entries than it must: the drawn evictions land first. Its earlier stores
are before every later implicit read. -/
def execSfenceVma (rs1 rs2 : RegIdx) (s : State) : Host.Outcome State Fault Refusal :=
  if sfenceAllowed s then
    .next { s with ms := fenceStores (fenceAtc (sfenceAddr s rs1) (sfenceAsid s rs2) (atAccess s.mmu s.ms).2) }.advance
  else raise s .illegalInstruction (encode (.sfenceVma rs1 rs2))

end Sys2Proof.Machine
end

