-- ==== Sys2Proof/Machine/Integer.lean ====
section
/-! DEFINITION. The integer instructions LUI, ADDI, ADD (spec/45_host_hart_subset.md R194 to R196). -/

namespace Sys2Proof.Machine

/-- Write a result and go to the next instruction. -/
def writeResult (s : State) (rd : RegIdx) (v : Word) : Host.Outcome State Fault Refusal :=
  .next (s.setX rd v).advance

/-- LUI (R194): `x[rd] <- {inst[31:12], 12'b0}`. -/
def execLui (rd : RegIdx) (imm : BitVec 20) (s : State) : Host.Outcome State Fault Refusal :=
  writeResult s rd (immU imm)

/-- ADDI (R195): `x[rd] <- x[rs1] + sext_32(imm)`, modulo 2^32. -/
def execAddi (rd rs1 : RegIdx) (imm : BitVec 12) (s : State) : Host.Outcome State Fault Refusal :=
  writeResult s rd (s.x rs1 + imm12 imm)

/-- ADD (R196): `x[rd] <- x[rs1] + x[rs2]`, modulo 2^32. -/
def execAdd (rd rs1 rs2 : RegIdx) (s : State) : Host.Outcome State Fault Refusal :=
  writeResult s rd (s.x rs1 + s.x rs2)

end Sys2Proof.Machine
end

