-- ==== Sys2Proof/Machine/LoadStore.lean ====
section
/-! DEFINITION. The memory instructions LW, SW, AMOADD.W (spec/45_host_hart_subset.md R198 to R200). The alignment check
precedes translation (R60, R234). -/

namespace Sys2Proof.Machine

/-- LW (R198). -/
def execLw (rd rs1 : RegIdx) (imm : BitVec 12) (s : State) : Host.Outcome State Fault Refusal :=
  let addr := effectiveAddr s rs1 imm
  if aligned4 addr then
    finish s (memRead s.mmu addr (effPriv s .load) s.ms) fun v s' => .next (s'.setX rd v).advance
  else raise s .loadAddressMisaligned addr

/-- SW (R199). -/
def execSw (rs2 rs1 : RegIdx) (imm : BitVec 12) (s : State) : Host.Outcome State Fault Refusal :=
  let addr := effectiveAddr s rs1 imm
  if aligned4 addr then
    finish s (memWrite s.mmu addr (effPriv s .store) (s.x rs2) s.ms) fun _ s' => .next s'.advance
  else raise s .storeAddressMisaligned addr

/-- AMOADD.W (R200): `aq` and `rl` "have no effect in a one-hart model". -/
def execAmoaddW (rd rs2 rs1 : RegIdx) (_aq _rl : Bool) (s : State) : Host.Outcome State Fault Refusal :=
  let addr := s.x rs1
  if aligned4 addr then
    finish s (memAmo s.mmu addr (effPriv s .store) (fun t => t + s.x rs2) s.ms) fun t s' =>
      .next (s'.setX rd t).advance
  else raise s .storeAddressMisaligned addr

end Sys2Proof.Machine
end

