-- ==== Sys2Proof/Machine/Step.lean ====
section
/-! DEFINITION. One step of the hart (spec/45_host_hart_subset.md R191, R192), and where a test lays its instruction. -/

namespace Sys2Proof.Machine

/-- Decode and execute a fetched word; a word that matches no row is refused (R192). -/
def runWord (inst : Word) (s : State) : Host.Outcome State Fault Refusal :=
  match decodeWord inst with
  | .ok i    => exec i s
  | .error _ => .refused (.outsideSubset s.pc inst)

/-- One step (R191): fetch, decode, execute. A run that has ended with a trap takes no further step (R206, R235). -/
def step (s : State) : Host.Outcome State Fault Refusal :=
  match s.trap with
  | some r => .fault (.trapped r)
  | none   =>
    if aligned4 s.pc then finish s (fetch s) runWord
    else .refused (.misalignedFetch s.pc)

/-- The physical address `step` fetches from: that of `pc` as the hart translates it. Where that translation raises or
stops there is no such address, and `pc` itself is taken. -/
def fetchAddress (s : State) : PhysAddr :=
  match translate s.mmu .fetch s.pc (effPriv s .fetch) s.ms with
  | .ok pa _    => pa
  | .raised _ _ => s.pc.setWidth 34
  | .stuck _    => s.pc.setWidth 34

/-- `s` with the instruction whose bits are the `nbits` low bits of `w` stored where `step` fetches next, and no ended
run in the way. -/
def State.withFetchWord (s : State) (nbits w : Nat) : State :=
  { s with
    ms   := { s.ms with mem := writeWord s.ms.mem (fetchAddress s) (BitVec.ofNat 32 (w % 2 ^ nbits)) }
    trap := none }

end Sys2Proof.Machine
end

