-- ==== Sys2Proof/Safety.lean ====
section
/-! DEFINITION. The terms claims are stated in: the invariant of a state, what the other agents may do during a claim, the
closed form of a translation (spec/41_translation_algorithm.md R146), when a cache agrees with memory (R178), and what a
walk may read and add (R162, R163). -/

namespace Sys2Proof.Machine

/-- The invariant every step keeps. -/
structure State.Inv (s : State) : Prop where
  /-- Memory is in its canonical form. -/
  mem  : Memory.wf s.ms.mem = true
  /-- `pc` is "always a multiple of 4 in this subset" (R191). -/
  pc   : aligned4 s.pc = true
  /-- MPRV is set in M-mode only: no other mode writes `mstatus` (R16), and the mode is constant (R19). -/
  mprv : s.mstatus.mprv = true → s.priv = .machine
  /-- Unimplemented bits of `satp` read 0 (R14, R193). -/
  satp : s.satp &&& satpMask s.cfg.asidLen = s.satp
  /-- MODE = Sv32 is never selected where it is not supported (R15). -/
  sv32 : s.cfg.sv32Supported = false → satpMode s.satp = .bare
  /-- Every cache entry carries an ASID `satp` can hold (R161). -/
  atc  : ∀ e ∈ s.ms.atc, e.asid &&& asidMask s.cfg.asidLen = e.asid
  /-- Superseded words are kept only where implicit reads may see them (R4). -/
  unfenced : s.cfg.implicitReads = .programOrder → s.ms.unfenced = []
  /-- The configuration is one R4 and the source allow. -/
  cfg  : s.cfg.wf = true

/-- No other agent acts: the drawn choices of the cache are free, the drawn events are none. -/
def Undisturbed (m : MemSys) : Prop := ∀ d ∈ m.draws, d.events = []

/-- No other agent stores to memory; evictions and speculative walks may happen (R178: "no agent has changed the
value"). -/
def NoForeignStores (m : MemSys) : Prop := ∀ d ∈ m.draws, ∀ ev ∈ d.events, ∀ pa b, ev ≠ Event.store pa b

/-- The cache-free machine of R145: no other agent acts, and memory answers every step-2 read, with its latest value. -/
def CacheFree (m : MemSys) : Prop := Undisturbed m ∧ ∀ d ∈ m.draws, d.choice.use = none ∧ d.choice.older = none

/-- The outcome of the closed form: the physical address with the PTE write step 7 makes, the exception, or the word
nothing has written. -/
inductive Closed where
  | ok (pa : PhysAddr) (write : Option (PhysAddr × Word))
  | raised (k : ExcKind)
  | unwritten (pa : PhysAddr)
deriving DecidableEq, Repr

/-- The end of the closed form, at a leaf that passed every earlier check: step 7 and step 8. -/
def closedLeaf (e : Mmu) (acc : AccessType) (pa addr : PhysAddr) (pte : Word) : Closed :=
  if pteA pte && (decide (acc ≠ .store) || pteD pte) then .ok pa none
  else match e.cfg.adScheme with
    | .fault  => .raised (.pageFault acc)
    | .update => if physCheck e.cfg addr .write .supervisor then .ok pa (some (addr, setAD pte acc))
      else .raised (.accessFault acc)

/-- R146 as straight-line text: the checks in the order a failing access meets them. -/
def closedForm (e : Mmu) (acc : AccessType) (va : Word) (priv : Priv) (mem : Memory) : Closed :=
  if satpMode e.satp = .bare ∨ priv = .machine then .ok (va.setWidth 34) none
  else
    let a1 : PhysAddr := place 34 (satpPpn e.satp) 12 + (va.extractLsb' 22 10).setWidth 34 * 4#34
    if !physCheck e.cfg a1 .read .supervisor then .raised (.accessFault acc)
    else match readWord mem a1 with
    | none    => .unwritten a1
    | some p1 =>
      match pteClass p1 with
      | .invalid | .reservedRW => .raised (.pageFault acc)
      | .leaf =>
        if !permitted p1 acc priv e.sum e.mxr then .raised (.pageFault acc)
        else if p1.extractLsb' 10 10 ≠ 0#10 then .raised (.pageFault acc)
        else closedLeaf e acc (place 34 (p1.extractLsb' 20 12) 22 ||| place 34 (va.extractLsb' 0 22) 0) a1 p1
      | .pointer =>
        if e.cfg.nonleafDauFault && (pteD p1 || pteA p1 || pteU p1) then .raised (.pageFault acc)
        else
          let a0 : PhysAddr := place 34 (p1.extractLsb' 10 22) 12 + (va.extractLsb' 12 10).setWidth 34 * 4#34
          if !physCheck e.cfg a0 .read .supervisor then .raised (.accessFault acc)
          else match readWord mem a0 with
          | none    => .unwritten a0
          | some p0 =>
            match pteClass p0 with
            | .invalid | .reservedRW | .pointer => .raised (.pageFault acc)
            | .leaf =>
              if !permitted p0 acc priv e.sum e.mxr then .raised (.pageFault acc)
              else closedLeaf e acc (place 34 (p0.extractLsb' 10 22) 12 ||| place 34 (va.extractLsb' 0 12) 0) a0 p0

/-- A translation that started with memory `mem` has the closed form's outcome, and leaves memory as that says. -/
def Agrees (c : Closed) (va : Word) (mem : Memory) (r : MRes PhysAddr) : Prop :=
  match c with
  | .ok pa none           => ∃ m', r = .ok pa m' ∧ m'.mem = mem
  | .ok pa (some (a, w))  => ∃ m', r = .ok pa m' ∧ m'.mem = writeWord mem a w
  | .raised k             => ∃ m', r = .raised ⟨k, va⟩ m' ∧ m'.mem = mem
  | .unwritten a          => r = .stuck (.unwrittenMemory a)

/-- A cached value `pte` agrees with memory's word `w`: they are equal, or the word is a leaf in which the walker has
since set A, or A and D (R178: "that value with A or D still 0"), by a store its checks let through. -/
def valueCurrent (e : Mmu) (addr : PhysAddr) (pte w : Word) : Prop :=
  pte = w ∨ (e.cfg.adScheme = .update ∧ pteClass pte = .leaf ∧ (w = setA pte ∨ w = setAD pte .store) ∧
    physCheck e.cfg addr .write .supervisor = true)

/-- An entry holds what a walk under the current `satp` would read: its address is the one the walk computes, the check
of the read passes there, and its value is current (R178). -/
def entryCurrent (e : Mmu) (mem : Memory) (t : AtcEntry) : Prop :=
  let a1 : PhysAddr := tableBase (satpPpn e.satp) + t.vpn1.setWidth 34 * 4#34
  (match t.level with
    | .one  => t.pteAddr = a1
    | .zero => ∃ p1, readWord mem a1 = some p1 ∧ pteClass p1 = .pointer ∧
        t.pteAddr = tableBase (ptePpn p1) + t.vpn0.setWidth 34 * 4#34) ∧
  physCheck e.cfg t.pteAddr .read .supervisor = true ∧
  ∃ w, readWord mem t.pteAddr = some w ∧ valueCurrent e t.pteAddr t.pte w

/-- No word the hart has stored over without a fence is one a walk under the current `satp` reads as a PTE (R178: "no
agent has changed the value of any physical word that a walk has read or could read as a PTE"). -/
def storesApart (e : Mmu) (m : MemSys) : Prop :=
  ∀ w ∈ m.unfenced, ∀ va : Word, w.addr ≠ pteAddress (tableBase (satpPpn e.satp)) .one va ∧
    ∀ p1, readWord m.mem (pteAddress (tableBase (satpPpn e.satp)) .one va) = some p1 → pteClass p1 = .pointer →
      w.addr ≠ pteAddress (tableBase (ptePpn p1)) .zero va

/-- Every entry that can answer under the current ASID is current, and so is every word a walk reads from memory. -/
def Coherent (e : Mmu) (m : MemSys) : Prop :=
  (∀ t ∈ m.atc, (t.asid = satpAsid e.satp ∨ t.global = true) → entryCurrent e m.mem t) ∧
  (e.cfg.implicitReads = .sinceFence → storesApart e m)

/-- A PTE that step 3 refuses (R135): not valid, writable and not readable, or a pointer with a reserved bit set. -/
def refusedByStep3 (e : Mmu) (pte : Word) : Prop :=
  pteV pte = false ∨ (pteR pte = false ∧ pteW pte = true) ∨
  (e.cfg.nonleafDauFault = true ∧ pteR pte = false ∧ pteW pte = false ∧ pteX pte = false ∧
    (pteD pte = true ∨ pteA pte = true ∨ pteU pte = true))

/-- What an implicit read can see at `addr` (R4, R57): the word as it stands, or under `SinceFence` a value the hart has
stored over there without a fence (assumption log 25); none where nothing had been written. -/
def wordSeen (e : Mmu) (m : MemSys) (addr : PhysAddr) (v : Option Word) : Prop :=
  readWord m.mem addr = v ∨ (e.cfg.implicitReads = .sinceFence ∧ ⟨addr, v⟩ ∈ m.unfenced)

/-- (a) of R163: an entry of the cache that hits answers a step-2 read. -/
def cacheMayAnswer (e : Mmu) (m : MemSys) (va : Word) (i : Level) (r : PteRead) : Prop :=
  ∃ t ∈ m.atc, hit t i va (satpAsid e.satp) = true ∧ r = ⟨t.pteAddr, t.pte, t.global⟩

/-- (b) of R163: memory answers a step-2 read in the table at `a`, with the global tag of R162; to a speculative walk an
unwritten word is any value (assumption log 5). -/
def memoryMayAnswer (e : Mmu) (spec : Bool) (m : MemSys) (va : Word) (i : Level) (a : PhysAddr) (gAbove : Bool)
    (r : PteRead) : Prop :=
  r.addr = pteAddress a i va ∧ r.global = (gAbove || pteG r.pte) ∧
  physCheck e.cfg r.addr .read .supervisor = true ∧
  (wordSeen e m r.addr (some r.pte) ∨ (spec = true ∧ wordSeen e m r.addr none))

/-- What may answer a step-2 read (R163). -/
def mayAnswer (e : Mmu) (spec : Bool) (m : MemSys) (va : Word) (i : Level) (a : PhysAddr) (gAbove : Bool)
    (r : PteRead) : Prop :=
  cacheMayAnswer e m va i r ∨ memoryMayAnswer e spec m va i a gAbove r

/-- A walk for `va` may come to step 2 at level `i`, in the table at `a`, with the tag `gAbove` of the level above: at
level 1 in the root table (R133), at level 0 through a pointer that may answer at level 1 and passes step 3 (R135,
R136). -/
def mayVisit (e : Mmu) (spec : Bool) (m : MemSys) (va : Word) (i : Level) (a : PhysAddr) (gAbove : Bool) : Prop :=
  match i with
  | .one  => a = tableBase (satpPpn e.satp) ∧ gAbove = false
  | .zero => ∃ r, mayAnswer e spec m va .one (tableBase (satpPpn e.satp)) false r ∧ pteClass r.pte = .pointer ∧
      ¬ refusedByStep3 e r.pte ∧ a = tableBase (ptePpn r.pte) ∧ gAbove = r.global

/-- A PTE a walk for `va` may read at level `i`. -/
def mayRead (e : Mmu) (spec : Bool) (m : MemSys) (va : Word) (i : Level) (r : PteRead) : Prop :=
  ∃ a gAbove, mayVisit e spec m va i a gAbove ∧ mayAnswer e spec m va i a gAbove r

/-- A leaf that passes steps 3, 5 and 6 (R135, R137, R138). -/
def passingLeaf (e : Mmu) (acc : AccessType) (priv : Priv) (i : Level) (pte : Word) : Prop :=
  pteClass pte = .leaf ∧ permitted pte acc priv e.sum e.mxr = true ∧ (i = .one → ptePpn0 pte = 0#10)

/-- An entry that a walk for `va` may add: the value of a read of memory (R162), or the value it wrote over a leaf
(R179), with the tag `g_above or pte.g` (for the written value DEDUCED; assumption log 12). -/
def mayAdd (e : Mmu) (spec : Bool) (acc : AccessType) (m : MemSys) (va : Word) (t : AtcEntry) : Prop :=
  ∃ i a gAbove r, mayVisit e spec m va i a gAbove ∧
    ((memoryMayAnswer e spec m va i a gAbove r ∧
        t = entryOf va (satpAsid e.satp) i (gAbove || pteG r.pte) r.addr r.pte) ∨
      (mayAnswer e spec m va i a gAbove r ∧ pteClass r.pte = .leaf ∧ e.cfg.adScheme = .update ∧
        readWord m.mem r.addr = some r.pte ∧
        t = entryOf va (satpAsid e.satp) i (gAbove || pteG r.pte) r.addr
          (if spec then setA r.pte else setAD r.pte acc)))

/-- A byte is as it was, or it is a byte of a PTE in which A, or A and D, have been set (R114: bits 6 and 7). -/
def byteKeptOrAD (before after : Option Byte) : Prop :=
  after = before ∨ ∃ b, before = some b ∧ (after = some (b ||| 0x40#8) ∨ after = some (b ||| 0xC0#8))

/-- A byte is as it was, or it is a byte of a PTE in which A has been set. -/
def byteKeptOrA (before after : Option Byte) : Prop :=
  after = before ∨ ∃ b, before = some b ∧ after = some (b ||| 0x40#8)

/-- Two results answer the same and leave the same memory; their caches may differ. -/
def SameResult {α : Type} : MRes α → MRes α → Prop
  | .ok a m, .ok b n         => a = b ∧ m.mem = n.mem
  | .raised x m, .raised y n => x = y ∧ m.mem = n.mem
  | .stuck f, .stuck g       => f = g
  | _, _                     => False

/-- An entry SFENCE.VMA must remove, as R173 writes it: `rs1`, `rs2` the register numbers, `v` and `ssel` the selected
address and ASID. -/
def fenceMustRemove (rs1 rs2 : RegIdx) (v : Word) (ssel : Asid) (t : AtcEntry) : Prop :=
  (rs2 = 0#5 ∨ (t.asid = ssel ∧ t.global = false)) ∧
  (rs1 = 0#5 ∨ (t.vpn1 = v.extractLsb' 22 10 ∧ (t.level = .one ∨ t.vpn0 = v.extractLsb' 12 10) ∧
    (t.level = .zero ∨ pteClass t.pte ≠ .pointer)))

/-- The condition under which R204 raises an illegal-instruction exception. -/
def csrIllegal (s : State) (n : CsrIdx) : Prop :=
  (n ≠ 0x100#12 ∧ n ≠ 0x180#12 ∧ n ≠ 0x300#12) ∨ (privBits s.priv).toNat < (n.extractLsb' 8 2).toNat ∨
  (n = 0x180#12 ∧ s.priv = .supervisor ∧ s.mstatus.tvm = true)

end Sys2Proof.Machine
end

