-- ==== Sys2Proof/Certificates/Slice0/Obligations.lean ====
section
/-! DEFINITION. The statements for the provers. -/

open Sys2Proof Sys2Proof.Machine

/-! ## Encoding -/

/-- R80: a word is a row's instruction iff `w & mask = match`, a word of no row is rejected, and the rows are disjoint. -/
def Obligations.DecodeFollowsOpcodeTable : Prop :=
  (∀ row ∈ opcodeRows, ∀ w : Word,
    w &&& row.mask = row.pattern ↔ ∃ i, decodeWord w = .ok i ∧ mnemonicOf i = row.mnemonic) ∧
  (∀ w : Word, (∀ row ∈ opcodeRows, w &&& row.mask ≠ row.pattern) → decodeWord w = .error (.noRow w)) ∧
  opcodeRows.Pairwise (fun r q => ∀ w : Word, ¬ (w &&& r.mask = r.pattern ∧ w &&& q.mask = q.pattern))

/-- Decoding the encoding of a well-formed instruction gives it back, as a word and as bytes (R78 to R81). -/
def Obligations.DecodeOfEncodeIsInstruction : Prop :=
  ∀ (i : Instr) (rest : List Byte), i.wf = true →
    decodeWord (encode i) = .ok i ∧ decodeBytes (encodeBytes i ++ rest) = .ok (i, rest)

/-- Each word has one meaning: what a word decodes to is well formed and is encoded by that word (R78 to R81). -/
def Obligations.EncodeOfDecodeIsWord : Prop :=
  ∀ (w : Word) (i : Instr), decodeWord w = .ok i → i.wf = true ∧ encode i = w

/-- Words the spec writes out, one of each row, decode to the instructions they stand for (95_test_vectors.md §8). -/
def Obligations.SpecWordsDecode : Prop :=
  decodeWord 0xFFFFF2B7 = .ok (.lui 5 0xFFFFF) ∧
  decodeWord 0x80028293 = .ok (.addi 5 5 0x800) ∧
  decodeWord 0x006283B3 = .ok (.add 7 5 6) ∧
  decodeWord 0xFE829AE3 = .ok (.bne 5 8 0x1FF4) ∧
  decodeWord 0xFFC2A303 = .ok (.lw 6 5 0xFFC) ∧
  decodeWord 0xFE62AE23 = .ok (.sw 6 5 0xFFC) ∧
  decodeWord 0x0662A02F = .ok (.amoaddW 0 6 5 true true) ∧
  decodeWord 0x18029073 = .ok (.csrrw 0 0x180 5) ∧
  decodeWord 0x30002373 = .ok (.csrrs 6 0x300 0) ∧
  decodeWord 0x1003B5F3 = .ok (.csrrc 11 0x100 7) ∧
  decodeWord 0x12628073 = .ok (.sfenceVma 5 6) ∧
  decodeTableWord 32 0x13FF8073 = some (.sfenceVma 31 31)

/-! ## The step -/

/-- A step runs the decoded instruction (R191): when the fetch gives a word that decodes to `i`, the step is `exec` of
`i` at the state the fetch leaves, which differs in its memory system only. -/
def Obligations.StepRunsDecodedInstruction : Prop :=
  ∀ (s : State) (w : Word) (m : MemSys) (i : Instr),
    s.trap = none → s.pc.toNat % 4 = 0 → fetch s = .ok w m → decodeWord w = .ok i →
    step s = exec i { s with ms := m }

/-- The same where the hart does not translate its fetches (M-mode or Bare) and no other agent acts: the word at
physical address `pc` runs, and nothing but the next draw is used up (R43, R191). -/
def Obligations.UntranslatedStepRunsWordAtPc : Prop :=
  ∀ (s : State) (w : Word) (i : Instr),
    s.trap = none → s.pc.toNat % 4 = 0 → (s.priv = .machine ∨ satpMode s.satp = .bare) → Undisturbed s.ms →
    physCheck s.cfg (s.pc.setWidth 34) .exec s.priv = true →
    readWord s.ms.mem (s.pc.setWidth 34) = some w → decodeWord w = .ok i →
    step s = exec i { s with ms := { s.ms with draws := s.ms.draws.tail } }

/-- A fetched word matching no row is refused with `pc` and the word: the spec's own decision D1
(45_host_hart_subset.md §1, assumption log 18). -/
def Obligations.WordOutsideSubsetIsRefused : Prop :=
  ∀ (s : State) (w : Word) (m : MemSys),
    s.trap = none → s.pc.toNat % 4 = 0 → fetch s = .ok w m →
    (∀ row ∈ opcodeRows, w &&& row.mask ≠ row.pattern) →
    step s = .refused (.outsideSubset s.pc w)

/-- A fetch that raises records the instruction kind of its fault and `pc`, and the step takes that trap
(60_exceptions.md §1; `tval = pc` is the spec's own decision D22, assumption log 20). -/
def Obligations.FetchFaultTraps : Prop :=
  ∀ (s : State) (x : Exn) (m : MemSys),
    s.trap = none → s.pc.toNat % 4 = 0 → fetch s = .raised x m →
    (x.kind = .pageFault .fetch ∨ x.kind = .accessFault .fetch) ∧ x.tval = s.pc ∧
    step s = .next { s with ms := m, trap := some ⟨x.kind, s.pc, s.pc⟩ }

/-- A step that ends in a trap records the `pc` of the raising instruction, leaves `pc`, every register, `satp`,
`mstatus` and the mode as they were, and is terminal; with no other agent acting, memory differs at most by A and D
bits. The outcome record is the spec's own decision D23 (60_exceptions.md §3, assumption log 7). -/
def Obligations.TrapLeavesStateAsBefore : Prop :=
  ∀ (s t : State) (r : TrapRecord), s.trap = none → step s = .next t → t.trap = some r →
    r.epc = s.pc ∧ t = { s with ms := t.ms, trap := some r } ∧ step t = .fault (.trapped r) ∧
    (Undisturbed s.ms → ∀ q, byteKeptOrAD (readByte s.ms.mem q) (readByte t.ms.mem q))

/-! ## Integer instructions and the branch -/

/-- R194: LUI, for every operand and state, with its frame and the rule's example word. -/
def Obligations.LuiWritesUpperImmediate : Prop :=
  (∀ (rd : RegIdx) (imm : BitVec 20) (s : State), ∃ t, exec (.lui rd imm) s = .next t ∧
    (∀ r, t.x r = if r = rd ∧ rd ≠ 0#5 then BitVec.ofNat 32 (imm.toNat * 4096) else s.x r) ∧
    t.pc = s.pc + 4#32 ∧ t = { s with regs := t.regs, pc := t.pc }) ∧
  decodeWord 0x004012B7 = .ok (.lui 5 0x401)

/-- R195: ADDI, for every operand and state, with its frame and the rule's example word. -/
def Obligations.AddiAddsImmediate : Prop :=
  (∀ (rd rs1 : RegIdx) (imm : BitVec 12) (s : State), ∃ t, exec (.addi rd rs1 imm) s = .next t ∧
    (∀ r, t.x r = if r = rd ∧ rd ≠ 0#5 then s.x rs1 + imm.signExtend 32 else s.x r) ∧
    t.pc = s.pc + 4#32 ∧ t = { s with regs := t.regs, pc := t.pc }) ∧
  decodeWord 0x00130313 = .ok (.addi 6 6 1)

/-- R196: ADD, for every operand and state, with its frame and the rule's example word. -/
def Obligations.AddAddsRegisters : Prop :=
  (∀ (rd rs1 rs2 : RegIdx) (s : State), ∃ t, exec (.add rd rs1 rs2) s = .next t ∧
    (∀ r, t.x r = if r = rd ∧ rd ≠ 0#5 then s.x rs1 + s.x rs2 else s.x r) ∧
    t.pc = s.pc + 4#32 ∧ t = { s with regs := t.regs, pc := t.pc }) ∧
  decodeWord 0x006383B3 = .ok (.add 7 7 6)

/-- R197: BNE not taken, taken, and taken to a target that is no multiple of 4, each with its whole next state. -/
def Obligations.BneBranchesOnDifference : Prop :=
  (∀ (rs1 rs2 : RegIdx) (offset : BitVec 13) (s : State),
    (s.x rs1 = s.x rs2 → exec (.bne rs1 rs2 offset) s = .next { s with pc := s.pc + 4#32 }) ∧
    (s.x rs1 ≠ s.x rs2 → (s.pc + offset.signExtend 32).toNat % 4 = 0 →
      exec (.bne rs1 rs2 offset) s = .next { s with pc := s.pc + offset.signExtend 32 }) ∧
    (s.x rs1 ≠ s.x rs2 → (s.pc + offset.signExtend 32).toNat % 4 ≠ 0 →
      exec (.bne rs1 rs2 offset) s = .next { s with
        trap := some ⟨.instructionAddressMisaligned, s.pc + offset.signExtend 32, s.pc⟩ })) ∧
  excCode .instructionAddressMisaligned = 0 ∧ decodeWord 0xFE829AE3 = .ok (.bne 5 8 0x1FF4)

/-! ## Memory instructions -/

/-- R198: LW. A misaligned address raises before any translation; a translation that raises, and a final check that
fails, trap; otherwise the word read at the access goes to `rd`, and nothing else changes but what the translation and
the other agents did to the memory system. -/
def Obligations.LwLoadsTranslatedWord : Prop :=
  (∀ (rd rs1 : RegIdx) (imm : BitVec 12) (s : State),
    let addr := s.x rs1 + imm.signExtend 32
    let p := if s.priv = .machine ∧ s.mstatus.mprv = true then s.mstatus.mpp else s.priv
    (addr.toNat % 4 ≠ 0 →
      exec (.lw rd rs1 imm) s = .next { s with trap := some ⟨.loadAddressMisaligned, addr, s.pc⟩ }) ∧
    (addr.toNat % 4 = 0 → ∀ x m, translate s.mmu .load addr p s.ms = .raised x m →
      exec (.lw rd rs1 imm) s = .next { s with ms := m, trap := some ⟨x.kind, x.tval, s.pc⟩ }) ∧
    (addr.toNat % 4 = 0 → ∀ pa m, translate s.mmu .load addr p s.ms = .ok pa m →
      physCheck s.cfg pa .read p = false →
      exec (.lw rd rs1 imm) s = .next { s with ms := m, trap := some ⟨.accessFault .load, addr, s.pc⟩ }) ∧
    (addr.toNat % 4 = 0 → ∀ pa m v, translate s.mmu .load addr p s.ms = .ok pa m →
      physCheck s.cfg pa .read p = true → readWord (atAccess s.mmu m).2.mem pa = some v →
      ∃ t, exec (.lw rd rs1 imm) s = .next t ∧
        (∀ r, t.x r = if r = rd ∧ rd ≠ 0#5 then v else s.x r) ∧ t.pc = s.pc + 4#32 ∧
        t = { s with ms := (atAccess s.mmu m).2, regs := t.regs, pc := t.pc })) ∧
  decodeWord 0x0002A303 = .ok (.lw 6 5 0)

/-- R199: SW. As for LW, with the store kinds; otherwise the four bytes of `x[rs2]` are at the physical address, least
significant first, every other byte is as the access found it, and no register changes. What becomes of
`MemSys.unfenced`, the model's own (assumption log 25), `ImplicitReadVisibility` says. -/
def Obligations.SwStoresAtTranslatedAddress : Prop :=
  (∀ (rs2 rs1 : RegIdx) (imm : BitVec 12) (s : State),
    let addr := s.x rs1 + imm.signExtend 32
    let p := if s.priv = .machine ∧ s.mstatus.mprv = true then s.mstatus.mpp else s.priv
    (addr.toNat % 4 ≠ 0 →
      exec (.sw rs2 rs1 imm) s = .next { s with trap := some ⟨.storeAddressMisaligned, addr, s.pc⟩ }) ∧
    (addr.toNat % 4 = 0 → ∀ x m, translate s.mmu .store addr p s.ms = .raised x m →
      exec (.sw rs2 rs1 imm) s = .next { s with ms := m, trap := some ⟨x.kind, x.tval, s.pc⟩ }) ∧
    (addr.toNat % 4 = 0 → ∀ pa m, translate s.mmu .store addr p s.ms = .ok pa m →
      physCheck s.cfg pa .write p = false →
      exec (.sw rs2 rs1 imm) s = .next { s with ms := m, trap := some ⟨.accessFault .store, addr, s.pc⟩ }) ∧
    (addr.toNat % 4 = 0 → ∀ pa m, translate s.mmu .store addr p s.ms = .ok pa m →
      physCheck s.cfg pa .write p = true →
      ∃ t, exec (.sw rs2 rs1 imm) s = .next t ∧ t.pc = s.pc + 4#32 ∧
        t = { s with ms := { (atAccess s.mmu m).2 with mem := t.ms.mem, unfenced := t.ms.unfenced }, pc := t.pc } ∧
        (∀ k < 4, readByte t.ms.mem (pa + BitVec.ofNat 34 k) = some ((s.x rs2).extractLsb' (8 * k) 8)) ∧
        (∀ q, (∀ k < 4, q ≠ pa + BitVec.ofNat 34 k) →
          readByte t.ms.mem q = readByte (atAccess s.mmu m).2.mem q))) ∧
  decodeWord 0x0062A223 = .ok (.sw 6 5 4)

/-- R200: AMOADD.W. Translated once, as a store; the sum is stored where the old word was read, and the old word goes to
`rd`. The ordering bits have no effect. What becomes of `MemSys.unfenced`, the model's own (assumption log 25),
`ImplicitReadVisibility` says. -/
def Obligations.AmoaddAddsInMemory : Prop :=
  (∀ (rd rs2 rs1 : RegIdx) (aq rl : Bool) (s : State),
    let addr := s.x rs1
    let p := if s.priv = .machine ∧ s.mstatus.mprv = true then s.mstatus.mpp else s.priv
    (addr.toNat % 4 ≠ 0 → exec (.amoaddW rd rs2 rs1 aq rl) s =
      .next { s with trap := some ⟨.storeAddressMisaligned, addr, s.pc⟩ }) ∧
    (addr.toNat % 4 = 0 → ∀ x m, translate s.mmu .store addr p s.ms = .raised x m →
      exec (.amoaddW rd rs2 rs1 aq rl) s = .next { s with ms := m, trap := some ⟨x.kind, x.tval, s.pc⟩ }) ∧
    (addr.toNat % 4 = 0 → ∀ pa m, translate s.mmu .store addr p s.ms = .ok pa m →
      physCheck s.cfg pa .write p = false → exec (.amoaddW rd rs2 rs1 aq rl) s =
        .next { s with ms := m, trap := some ⟨.accessFault .store, addr, s.pc⟩ }) ∧
    (addr.toNat % 4 = 0 → ∀ pa m v, translate s.mmu .store addr p s.ms = .ok pa m →
      physCheck s.cfg pa .write p = true → readWord (atAccess s.mmu m).2.mem pa = some v →
      ∃ t, exec (.amoaddW rd rs2 rs1 aq rl) s = .next t ∧
        (∀ r, t.x r = if r = rd ∧ rd ≠ 0#5 then v else s.x r) ∧ t.pc = s.pc + 4#32 ∧
        t = { s with ms := { (atAccess s.mmu m).2 with mem := t.ms.mem, unfenced := t.ms.unfenced }, regs := t.regs, pc := t.pc } ∧
        readWord t.ms.mem pa = some (v + s.x rs2) ∧
        (∀ q, (∀ k < 4, q ≠ pa + BitVec.ofNat 34 k) →
          readByte t.ms.mem q = readByte (atAccess s.mmu m).2.mem q))) ∧
  decodeWord 0x0062A52F = .ok (.amoaddW 10 6 5 false false)

/-- R104: an AMO's trap is of a store kind, never a load fault, and a walk for a store that finds an unreadable leaf
raises a store page fault. -/
def Obligations.AmoRaisesStoreKindsOnly : Prop :=
  (∀ (rd rs2 rs1 : RegIdx) (aq rl : Bool) (s t : State) (r : TrapRecord), s.trap = none →
    exec (.amoaddW rd rs2 rs1 aq rl) s = .next t → t.trap = some r →
    r.kind = .storeAddressMisaligned ∨ r.kind = .pageFault .store ∨ r.kind = .accessFault .store) ∧
  (∀ (e : Mmu) (land : List Event → MemSys → MemSys) (va : Word) (priv : Priv) (n : Nat) (i : Level) (a : PhysAddr)
    (gAbove fresh : Bool) (m m' : MemSys) (r : PteRead),
    step2Read e false (accessPoint land m).1 .store va i a gAbove fresh (accessPoint land m).2 = .ok r m' →
    pteClass r.pte = .leaf → pteR r.pte = false →
    walk e false land .store va priv (n + 1) i a gAbove fresh m = .raised ⟨.pageFault .store, va⟩ m')

/-- The frame of a completed store over the whole step of its access: with no other agent acting, a byte outside the
four stored ones, whose address `resolve` computes, is as before the instruction, or A and D have been set in it. -/
def Obligations.StoreFrame : Prop :=
  ∀ (rs2 rs1 : RegIdx) (imm : BitVec 12) (s t : State), s.trap = none → Undisturbed s.ms →
    exec (.sw rs2 rs1 imm) s = .next t → t.trap = none →
    ∃ pa m, resolve s.mmu .store (effectiveAddr s rs1 imm) (effPriv s .store) s.ms = .ok pa m ∧
      (∀ k < 4, readByte t.ms.mem (pa + BitVec.ofNat 34 k) = some ((s.x rs2).extractLsb' (8 * k) 8)) ∧
      (∀ q, (∀ k < 4, q ≠ pa + BitVec.ofNat 34 k) → byteKeptOrAD (readByte s.ms.mem q) (readByte t.ms.mem q))

/-- The memory frame of every instruction that is no store: while no other agent stores, a step of it leaves each byte as
it was or sets A in it. D is set by stores alone, speculative walks included (R53, R115, R168). -/
def Obligations.OnlyStoresWriteMemoryOrSetD : Prop :=
  ∀ (s t : State) (w : Word) (m : MemSys) (i : Instr),
    s.trap = none → fetch s = .ok w m → decodeWord w = .ok i →
    (∀ rs2 rs1 imm, i ≠ .sw rs2 rs1 imm) → (∀ rd rs2 rs1 aq rl, i ≠ .amoaddW rd rs2 rs1 aq rl) →
    NoForeignStores s.ms → step s = .next t →
    ∀ q, byteKeptOrA (readByte s.ms.mem q) (readByte t.ms.mem q)

/-- A word's bits `[8k+7:8k]` are the byte at `pa + k`, read and written: little-endian, the spec's own decision D3
(20_memory.md §2, assumption log 19). -/
def Obligations.WordsAreLittleEndian : Prop :=
  (∀ (m : Memory) (pa : PhysAddr) (w : Word), readWord m pa = some w ↔
    ∀ k < 4, readByte m (pa + BitVec.ofNat 34 k) = some (w.extractLsb' (8 * k) 8)) ∧
  (∀ (m : Memory) (pa : PhysAddr) (v : Word),
    (∀ k < 4, readByte (writeWord m pa v) (pa + BitVec.ofNat 34 k) = some (v.extractLsb' (8 * k) 8)) ∧
    (∀ q, (∀ k < 4, q ≠ pa + BitVec.ofNat 34 k) → readByte (writeWord m pa v) q = readByte m q))

/-! ## Control registers -/

/-- R201: CSRRW on a register the access check lets through. No cache entry goes, and the next fetch's walk has the new
`satp`. -/
def Obligations.CsrrwSwaps : Prop :=
  (∀ (rd rs1 : RegIdx) (csr : CsrIdx) (s : State) (c : Csr), csrAccess s csr = some c →
    ∃ t, exec (.csrrw rd csr rs1) s = .next t ∧
      (∀ r, t.x r = if r = rd ∧ rd ≠ 0#5 then csrRead s c else s.x r) ∧ t.pc = s.pc + 4#32 ∧
      t.mstatus = (csrWrite s c (s.x rs1)).mstatus ∧ t.satp = (csrWrite s c (s.x rs1)).satp ∧
      t.mmu.satp = (csrWrite s c (s.x rs1)).satp ∧
      t = { s with regs := t.regs, pc := t.pc, mstatus := t.mstatus, satp := t.satp }) ∧
  decodeWord 0x18029073 = .ok (.csrrw 0 0x180 5)

/-- R202: CSRRS on a register the access check lets through; with the register number 0 it only reads. -/
def Obligations.CsrrsSetsBits : Prop :=
  (∀ (rd rs1 : RegIdx) (csr : CsrIdx) (s : State) (c : Csr), csrAccess s csr = some c →
    ∃ t, exec (.csrrs rd csr rs1) s = .next t ∧
      (∀ r, t.x r = if r = rd ∧ rd ≠ 0#5 then csrRead s c else s.x r) ∧ t.pc = s.pc + 4#32 ∧
      (rs1 = 0#5 → t.mstatus = s.mstatus ∧ t.satp = s.satp) ∧
      (rs1 ≠ 0#5 → t.mstatus = (csrWrite s c (csrRead s c ||| s.x rs1)).mstatus ∧
        t.satp = (csrWrite s c (csrRead s c ||| s.x rs1)).satp) ∧
      t = { s with regs := t.regs, pc := t.pc, mstatus := t.mstatus, satp := t.satp }) ∧
  decodeWord 0x1003A073 = .ok (.csrrs 0 0x100 7) ∧
  (∀ s : State, (csrWrite s .sstatus (csrRead s .sstatus ||| 0x00040000#32)).mstatus.sum = true)

/-- R203: CSRRC on a register the access check lets through; with the register number 0 it only reads. -/
def Obligations.CsrrcClearsBits : Prop :=
  (∀ (rd rs1 : RegIdx) (csr : CsrIdx) (s : State) (c : Csr), csrAccess s csr = some c →
    ∃ t, exec (.csrrc rd csr rs1) s = .next t ∧
      (∀ r, t.x r = if r = rd ∧ rd ≠ 0#5 then csrRead s c else s.x r) ∧ t.pc = s.pc + 4#32 ∧
      (rs1 = 0#5 → t.mstatus = s.mstatus ∧ t.satp = s.satp) ∧
      (rs1 ≠ 0#5 → t.mstatus = (csrWrite s c (csrRead s c &&& ~~~(s.x rs1))).mstatus ∧
        t.satp = (csrWrite s c (csrRead s c &&& ~~~(s.x rs1))).satp) ∧
      t = { s with regs := t.regs, pc := t.pc, mstatus := t.mstatus, satp := t.satp }) ∧
  decodeWord 0x1003B073 = .ok (.csrrc 0 0x100 7) ∧
  (∀ s : State, (csrWrite s .sstatus (csrRead s .sstatus &&& ~~~0x00040000#32)).mstatus.sum = false)

/-- R204: a control-register instruction raises an illegal-instruction exception, which records the instruction word and
writes nothing, on exactly the rule's condition; otherwise the access goes on to the register the number names. -/
def Obligations.CsrAccessCheck : Prop :=
  ∀ (rd rs1 : RegIdx) (csr : CsrIdx) (s : State),
    (csrIllegal s csr →
      exec (.csrrw rd csr rs1) s = .next { s with
        trap := some ⟨.illegalInstruction, encode (.csrrw rd csr rs1), s.pc⟩ } ∧
      exec (.csrrs rd csr rs1) s = .next { s with
        trap := some ⟨.illegalInstruction, encode (.csrrs rd csr rs1), s.pc⟩ } ∧
      exec (.csrrc rd csr rs1) s = .next { s with
        trap := some ⟨.illegalInstruction, encode (.csrrc rd csr rs1), s.pc⟩ }) ∧
    (¬ csrIllegal s csr →
      csrAccess s csr = (if csr = 0x100#12 then some .sstatus else if csr = 0x180#12 then some .satp
        else some .mstatus))

/-- The implemented bits of the three registers (45_host_hart_subset.md §1, the table of R193), bit by bit: what a write
leaves to be read. The layout is the spec's own decision D5, D6 (assumption log 19). -/
def Obligations.CsrImplementedBits : Prop :=
  ∀ (s : State) (v : Word),
    (s.cfg.sv32Supported = true ∨ v.getLsbD 31 = false → ∀ k < 32, (csrRead (csrWrite s .satp v) .satp).getLsbD k =
      (v.getLsbD k && (decide (k < 22 + s.cfg.asidLen.val) || decide (k = 31)))) ∧
    (s.cfg.sv32Supported = false → v.getLsbD 31 = true → csrRead (csrWrite s .satp v) .satp = csrRead s .satp) ∧
    (∀ k < 32, (csrRead (csrWrite s .mstatus v) .mstatus).getLsbD k =
      if k = 11 ∨ k = 12 then
        (if v.extractLsb' 11 2 = 2#2 then (csrRead s .mstatus).getLsbD k else v.getLsbD k)
      else (v.getLsbD k && decide (17 ≤ k) && decide (k ≤ 20))) ∧
    (∀ k < 32, (csrRead s .sstatus).getLsbD k =
      ((csrRead s .mstatus).getLsbD k && (decide (k = 18) || decide (k = 19)))) ∧
    (∀ k < 32, (csrRead (csrWrite s .sstatus v) .mstatus).getLsbD k =
      if k = 18 ∨ k = 19 then v.getLsbD k else (csrRead s .mstatus).getLsbD k)

/-! ## SFENCE.VMA -/

/-- SFENCE.VMA completes in M-mode, and in S-mode with TVM clear (42_translation_cache_and_sfence.md §3, R172, R173): of
the entries the drawn evictions leave, exactly those the rule's `MustRemove` names go; memory, registers and control
registers are as they were, but for what other agents did, and no superseded word is left for an implicit read to see.
`MustRemove` and that ordering are the spec's own decision D18 (assumption logs 14 and 25). -/
def Obligations.SfenceRemovesCoveredEntries : Prop :=
  ∀ (rs1 rs2 : RegIdx) (s : State),
    s.priv = .machine ∨ (s.priv = .supervisor ∧ s.mstatus.tvm = false) →
    ∃ t, exec (.sfenceVma rs1 rs2) s = .next t ∧ t.pc = s.pc + 4#32 ∧
      t = { s with ms := { (atAccess s.mmu s.ms).2 with atc := t.ms.atc, unfenced := [] }, pc := t.pc } ∧
      (∀ u, u ∈ t.ms.atc ↔ u ∈ (atAccess s.mmu s.ms).2.atc ∧
        ¬ fenceMustRemove rs1 rs2 (s.x rs1)
          ((s.x rs2).setWidth 9 &&& BitVec.ofNat 9 (2 ^ s.cfg.asidLen.val - 1)) u)

/-- Who may execute SFENCE.VMA: the spec's own decision D19 (42_translation_cache_and_sfence.md §3, assumption
log 19). -/
def Obligations.SfencePrivilege : Prop :=
  ∀ (rs1 rs2 : RegIdx) (s : State),
    (s.priv = .user ∨ (s.priv = .supervisor ∧ s.mstatus.tvm = true) →
      exec (.sfenceVma rs1 rs2) s = .next { s with
        trap := some ⟨.illegalInstruction, encode (.sfenceVma rs1 rs2), s.pc⟩ }) ∧
    (s.priv = .machine ∨ (s.priv = .supervisor ∧ s.mstatus.tvm = false) →
      ∃ t, exec (.sfenceVma rs1 rs2) s = .next t ∧ t.trap = s.trap)

/-- After `sfence.vma x0, x0`, and while no other agent acts, every translation is the one memory gives, whatever the
cache chooses (R171, R173). That the cache is then empty is the spec's own decision D18 (assumption log 14); that a walk
stops at a word nothing has written is its decision D35 and the model's choice (DESIGN CHOICE, assumption log 5). -/
def Obligations.FencedTranslationUsesMemory : Prop :=
  ∀ (s t : State), s.priv = .machine ∨ (s.priv = .supervisor ∧ s.mstatus.tvm = false) →
    exec (.sfenceVma 0 0) s = .next t → Undisturbed t.ms →
    t.ms.atc = [] ∧
    ∀ (acc : AccessType) (va : Word) (priv : Priv),
      Agrees (closedForm t.mmu acc va priv t.ms.mem) va t.ms.mem (translate t.mmu acc va priv t.ms)

/-! ## Translation -/

/-- No translation in Bare mode or for M: the address is zero-extended and nothing else happens (R43, R132). -/
def Obligations.NoTranslationInBareOrMachine : Prop :=
  ∀ (e : Mmu) (acc : AccessType) (va : Word) (priv : Priv) (m : MemSys),
    satpMode e.satp = .bare ∨ priv = .machine →
    ∃ pa, translate e acc va priv m = .ok pa m ∧ pa.toNat = va.toNat

/-- The cache-free machine's translation (R141, R145) is the closed form of R146, with its outcome and its one PTE
write, for every choice of what is put into the cache. That a walk stops at a word nothing has written is the spec's own
decision D35 and the model's choice (DESIGN CHOICE, assumption log 5). -/
def Obligations.CacheFreeTranslateIsClosedForm : Prop :=
  ∀ (e : Mmu) (acc : AccessType) (va : Word) (priv : Priv) (m : MemSys), CacheFree m →
    Agrees (closedForm e acc va priv m.mem) va m.mem (translate e acc va priv m)

/-- The argument of R178: a cache whose entries hold memory's values, or those values with A or D still 0, cannot be
told from no cache, whichever entries answer, if no word the hart has stored over without a fence is one a walk reads.
That a walk stops at a word nothing has written is the spec's own decision D35 and the model's choice (DESIGN CHOICE,
assumption log 5). -/
def Obligations.CoherentCacheIsInvisible : Prop :=
  ∀ (e : Mmu) (acc : AccessType) (va : Word) (priv : Priv) (m : MemSys), Undisturbed m → Coherent e m →
    Agrees (closedForm e acc va priv m.mem) va m.mem (translate e acc va priv m)

/-- A translation with no other agent acting keeps such a cache coherent, through its own fills and its own A and D
updates (R162, R178, R179). -/
def Obligations.TranslateKeepsCoherence : Prop :=
  ∀ (e : Mmu) (acc : AccessType) (va : Word) (priv : Priv) (m m' : MemSys), Undisturbed m → Coherent e m →
    (∀ pa, translate e acc va priv m = .ok pa m' → Coherent e m') ∧
    (∀ x, translate e acc va priv m = .raised x m' → Coherent e m')

/-- A translation that succeeds under Sv32, with no other agent acting and for every choice of the cache, went through a
leaf that a hitting entry, the word of memory at the PTE's address or (log 25) a value superseded there gives the walk;
that leaf permits the access and is no misaligned megapage, the address is its own, and A and D are as needed unless the
scheme sets them (R137 to R140). Whatever the other agents do, a walk that finds a leaf that does not permit the access
page-faults (R137). -/
def Obligations.TranslateOkThroughPermittedLeaf : Prop :=
  (∀ (e : Mmu) (acc : AccessType) (va : Word) (priv : Priv) (m m' : MemSys) (pa : PhysAddr),
    satpMode e.satp = .sv32 → priv ≠ .machine → Undisturbed m → translate e acc va priv m = .ok pa m' →
    ∃ i r, mayRead e false m va i r ∧ pteClass r.pte = .leaf ∧ permitted r.pte acc priv e.sum e.mxr = true ∧
      (i = .one → ptePpn0 r.pte = 0#10) ∧ pa = finalPa i r.pte va ∧
      (needsUpdate r.pte acc = true → e.cfg.adScheme = .update)) ∧
  (∀ (e : Mmu) (spec : Bool) (land : List Event → MemSys → MemSys) (acc : AccessType) (va : Word) (priv : Priv)
    (n : Nat) (i : Level) (a : PhysAddr) (gAbove fresh : Bool) (m m' : MemSys) (r : PteRead),
    step2Read e spec (accessPoint land m).1 acc va i a gAbove fresh (accessPoint land m).2 = .ok r m' →
    pteClass r.pte = .leaf → permitted r.pte acc priv e.sum e.mxr = false →
    walk e spec land acc va priv (n + 1) i a gAbove fresh m = .raised ⟨.pageFault acc, va⟩ m')

/-- Whatever the cache and the other agents do, an access that raises does so with a page fault or access fault of its
own type, recording its virtual address (41_translation_algorithm.md §1; `tval = va` is the spec's own decision D22,
assumption log 20). -/
def Obligations.AccessRaisesOwnKind : Prop :=
  ∀ (e : Mmu) (acc : AccessType) (va : Word) (priv : Priv) (m m' : MemSys) (x : Exn),
    resolve e acc va priv m = .raised x m' →
    (x.kind = .pageFault acc ∨ x.kind = .accessFault acc) ∧ x.tval = va

/-- The side effects of a translation (41_translation_algorithm.md §4, R144), with no other agent acting and for every
cache: one that raises, and one that Bare or M-mode leaves out, has written nothing; any other that succeeds went through
a leaf at which it has written nothing if A and D were as needed, and else, under the updating scheme and with the leaf's
word in memory, has set the A bit, or A and D for a store, in the low byte at that leaf's address and nowhere else (R139).
Which leaves a walk may read includes superseded values under `SinceFence` (DESIGN CHOICE, assumption log 25). -/
def Obligations.TranslateMemoryFrame : Prop :=
  ∀ (e : Mmu) (acc : AccessType) (va : Word) (priv : Priv) (m m' : MemSys), Undisturbed m →
    (∀ x, translate e acc va priv m = .raised x m' → m'.mem = m.mem) ∧
    (∀ pa, translate e acc va priv m = .ok pa m' →
      (satpMode e.satp = .bare ∨ priv = .machine → m'.mem = m.mem) ∧
      (satpMode e.satp = .sv32 → priv ≠ .machine →
        ∃ i r, mayRead e false m va i r ∧ pteClass r.pte = .leaf ∧ pa = finalPa i r.pte va ∧
          (needsUpdate r.pte acc = false → m'.mem = m.mem) ∧
          (needsUpdate r.pte acc = true → e.cfg.adScheme = .update ∧ readWord m.mem r.addr = some r.pte ∧
            ∃ b, readByte m.mem r.addr = some b ∧
              ∀ q, readByte m'.mem q = if q = r.addr then some (b ||| (if acc = .store then 0xC0#8 else 0x40#8))
                else readByte m.mem q)))

/-- Under the faulting scheme nothing but another agent's store changes memory during a translation: not the walk, not
speculative walks (R116, R144, R168). -/
def Obligations.FaultSchemeNeverWritesMemory : Prop :=
  ∀ (e : Mmu) (acc : AccessType) (va : Word) (priv : Priv) (m m' : MemSys),
    e.cfg.adScheme = .fault → NoForeignStores m →
    (∀ x, translate e acc va priv m = .raised x m' → m'.mem = m.mem) ∧
    (∀ pa, translate e acc va priv m = .ok pa m' → m'.mem = m.mem)

/-- R135: a PTE with V = 0, with W = 1 and R = 0, or (under `NONLEAF_DAU_FAULT`) a pointer with D, A or U set, page-faults
with the access's type and address, at either level, wherever its value was read from. Nothing else is reserved: any
other PTE is a pointer the walk follows, or a leaf that only steps 5 to 7 can refuse. -/
def Obligations.ReservedPtesPageFault : Prop :=
  (∀ (e : Mmu) (spec : Bool) (land : List Event → MemSys → MemSys) (acc : AccessType) (va : Word) (priv : Priv)
    (n : Nat) (i : Level) (a : PhysAddr) (gAbove fresh : Bool) (m m' : MemSys) (r : PteRead),
    step2Read e spec (accessPoint land m).1 acc va i a gAbove fresh (accessPoint land m).2 = .ok r m' →
    refusedByStep3 e r.pte →
    walk e spec land acc va priv (n + 1) i a gAbove fresh m = .raised ⟨.pageFault acc, va⟩ m') ∧
  (∀ (e : Mmu) (acc : AccessType) (priv : Priv) (pte : Word), ¬ refusedByStep3 e pte →
    (pteR pte = false ∧ pteX pte = false → inspect e acc priv .one pte = .descend (tableBase (ptePpn pte))) ∧
    (pteR pte = true ∨ pteX pte = true → permitted pte acc priv e.sum e.mxr = true →
      inspect e acc priv .zero pte = .leaf))

/-- R138: a leaf at level 1 with `ppn[0]` not zero page-faults, wherever its value was read from; at level 0 the same
bits refuse nothing (R147). -/
def Obligations.MisalignedMegapagePageFaults : Prop :=
  (∀ (e : Mmu) (spec : Bool) (land : List Event → MemSys → MemSys) (acc : AccessType) (va : Word) (priv : Priv)
    (n : Nat) (a : PhysAddr) (gAbove fresh : Bool) (m m' : MemSys) (r : PteRead),
    step2Read e spec (accessPoint land m).1 acc va .one a gAbove fresh (accessPoint land m).2 = .ok r m' →
    pteClass r.pte = .leaf → r.pte.extractLsb' 10 10 ≠ 0#10 →
    walk e spec land acc va priv (n + 1) .one a gAbove fresh m = .raised ⟨.pageFault acc, va⟩ m') ∧
  (∀ (e : Mmu) (acc : AccessType) (priv : Priv) (pte : Word), pteClass pte = .leaf →
    permitted pte acc priv e.sum e.mxr = true → inspect e acc priv .zero pte = .leaf)

/-- The U bit (R105 to R107): user mode reaches only pages with U = 1; the supervisor reaches a page with U = 1 only by
a load or store with SUM set, and never executes one, where no other agent acts and the page is one that a hitting entry,
memory or, under `SinceFence`, a superseded value (DESIGN CHOICE, assumption log 25) gives the walk; every other walk that
finds the leaf page-faults, whatever the other agents do. Where the U bit
does not refuse, the R, W and X bits and MXR alone decide. -/
def Obligations.UserBitGuardsPages : Prop :=
  (∀ (e : Mmu) (acc : AccessType) (va : Word) (m m' : MemSys) (pa : PhysAddr), satpMode e.satp = .sv32 →
    Undisturbed m →
    (translate e acc va .user m = .ok pa m' →
      ∃ i r, mayRead e false m va i r ∧ pteClass r.pte = .leaf ∧ pa = finalPa i r.pte va ∧ pteU r.pte = true) ∧
    (translate e acc va .supervisor m = .ok pa m' →
      ∃ i r, mayRead e false m va i r ∧ pteClass r.pte = .leaf ∧ pa = finalPa i r.pte va ∧
        (pteU r.pte = true → acc ≠ .fetch ∧ e.sum = true))) ∧
  (∀ (e : Mmu) (spec : Bool) (land : List Event → MemSys → MemSys) (acc : AccessType) (va : Word) (n : Nat) (i : Level)
    (a : PhysAddr) (gAbove fresh : Bool) (m m' : MemSys) (r : PteRead),
    step2Read e spec (accessPoint land m).1 acc va i a gAbove fresh (accessPoint land m).2 = .ok r m' →
    pteClass r.pte = .leaf →
    (pteU r.pte = false →
      walk e spec land acc va .user (n + 1) i a gAbove fresh m = .raised ⟨.pageFault acc, va⟩ m') ∧
    (pteU r.pte = true → acc = .fetch ∨ e.sum = false →
      walk e spec land acc va .supervisor (n + 1) i a gAbove fresh m = .raised ⟨.pageFault acc, va⟩ m')) ∧
  (∀ (pte : Word) (acc : AccessType) (sum mxr : Bool),
    (pteU pte = true → permitted pte acc .user sum mxr = rwxOk pte acc mxr) ∧
    (pteU pte = false ∨ (acc ≠ .fetch ∧ sum = true) → permitted pte acc .supervisor sum mxr = rwxOk pte acc mxr))

/-- R113: the hardware ignores RSW and never changes it. -/
def Obligations.RswIsIgnoredAndKept : Prop :=
  (∀ (e : Mmu) (acc : AccessType) (priv : Priv) (i : Level) (va pte pte' : Word),
    pte &&& 0xFFFFFCFF#32 = pte' &&& 0xFFFFFCFF#32 →
    inspect e acc priv i pte = inspect e acc priv i pte' ∧ finalPa i pte va = finalPa i pte' va ∧
    needsUpdate pte acc = needsUpdate pte' acc ∧ pteG pte = pteG pte') ∧
  (∀ (acc : AccessType) (pte : Word), (setAD pte acc).extractLsb' 8 2 = pte.extractLsb' 8 2 ∧
    (setA pte).extractLsb' 8 2 = pte.extractLsb' 8 2)

/-- A translated address that fails its physical check raises an access fault of the access's type, and what the
translation did to memory, its A and D update included, stays. The outcome is the spec's own decision D30 (20_memory.md
§3, assumption log 15). -/
def Obligations.FailedFinalCheckIsAccessFault : Prop :=
  ∀ (e : Mmu) (acc : AccessType) (va : Word) (priv : Priv) (m m1 : MemSys) (pa : PhysAddr),
    translate e acc va priv m = .ok pa m1 →
    physCheck e.cfg pa (match acc with | .fetch => .exec | .load => .read | .store => .write) priv = false →
    resolve e acc va priv m = .raised ⟨.accessFault acc, va⟩ m1

/-- An address with a bit at or above `PALEN` set fails the check and is never truncated (20_memory.md, R42, R50):
nothing above `PALEN` is reached by an explicit access or by a step-2 read that no cache entry answers. The access fault is the spec's own
decision D11 (assumption log 15). -/
def Obligations.AddressAbovePalenIsRefused : Prop :=
  (∀ (c : Config) (pa : PhysAddr) (k : PhysKind) (p : Priv), 2 ^ c.palen ≤ pa.toNat → physCheck c pa k p = false) ∧
  (∀ (e : Mmu) (acc : AccessType) (va : Word) (priv : Priv) (m m1 : MemSys) (pa : PhysAddr),
    translate e acc va priv m = .ok pa m1 → 2 ^ e.cfg.palen ≤ pa.toNat →
    resolve e acc va priv m = .raised ⟨.accessFault acc, va⟩ m1) ∧
  (∀ (e : Mmu) (spec : Bool) (c : Choice) (acc : AccessType) (va : Word) (i : Level) (a : PhysAddr)
    (g fresh : Bool) (m : MemSys), 2 ^ e.cfg.palen ≤ (pteAddress a i va).toNat →
    fresh = true ∨ chooseHit m.atc i va (satpAsid e.satp) c.use = none →
    step2Read e spec c acc va i a g fresh m = .raised ⟨.accessFault acc, va⟩ m)

/-! ## The cache and speculation -/

/-- Entries of another ASID that are not global never answer (42_translation_cache_and_sfence.md §1, R163): with no other
agent acting, dropping them all changes no translation's outcome and no memory. -/
def Obligations.ForeignAsidEntriesNeverAnswer : Prop :=
  ∀ (e : Mmu) (acc : AccessType) (va : Word) (priv : Priv) (m : MemSys), Undisturbed m →
    SameResult (translate e acc va priv m)
      (translate e acc va priv
        { m with atc := m.atc.filter (fun t => decide (t.asid = satpAsid e.satp) || t.global) })

/-- Every entry that hits may answer (R163, R164), stale or not, whatever its level and its value: some choice makes the
step-2 read answer it, with no access to memory. And every leaf a walk may read, from an entry or from memory, below the
root or below a pointer from an entry or from memory, may end the translation where it passes and needs no update: some
draws make it so (T1, T3, T7 of 95_test_vectors.md). Under `SinceFence` such a leaf or pointer may be a superseded value
(DESIGN CHOICE, assumption log 25). -/
def Obligations.EveryHitMayAnswer : Prop :=
  (∀ (e : Mmu) (spec : Bool) (acc : AccessType) (va : Word) (i : Level) (a : PhysAddr) (gAbove : Bool) (m : MemSys)
    (t : AtcEntry), t ∈ m.atc → hit t i va (satpAsid e.satp) = true →
    ∃ c, step2Read e spec c acc va i a gAbove false m = .ok ⟨t.pteAddr, t.pte, t.global⟩ m) ∧
  (∀ (e : Mmu) (acc : AccessType) (va : Word) (priv : Priv) (m : MemSys) (i : Level) (r : PteRead),
    satpMode e.satp = .sv32 → priv ≠ .machine → mayRead e false m va i r → passingLeaf e acc priv i r.pte →
    needsUpdate r.pte acc = false →
    ∃ ds, translate e acc va priv { m with draws := ds } = .ok (finalPa i r.pte va) { m with draws := [] })

/-- What a walk adds to the cache (R111, R162, R179): with no other agent acting every entry that is new after a
translation, and every entry that is new after a speculative walk, holds a value read from memory, or the value written
over a leaf, with the current ASID, the address it stands at and the global tag `g_above or pte.g`; and both may be added:
some choice makes the read, and some choice makes the comparison of step 7, add just that entry. The tag of a written
value is the model's reading of R179 (DEDUCED, assumption log 12); that the values read include superseded ones under
`SinceFence`, and any value of an unwritten word for a speculative walk, is its choice (DESIGN CHOICE, assumption logs 25
and 5). -/
def Obligations.NewEntriesAreReadsWithTheirTag : Prop :=
  (∀ (e : Mmu) (acc : AccessType) (va : Word) (priv : Priv) (m m' : MemSys), Undisturbed m →
    (∃ pa, translate e acc va priv m = .ok pa m') ∨ (∃ x, translate e acc va priv m = .raised x m') →
    ∀ t ∈ m'.atc, t ∈ m.atc ∨ mayAdd e false acc m va t) ∧
  (∀ (e : Mmu) (acc : AccessType) (va : Word) (priv : Priv) (cs : List Choice) (m : MemSys),
    ∀ t ∈ (specWalk e va acc priv cs m).atc, t ∈ m.atc ∨ mayAdd e true acc m va t) ∧
  (∀ (e : Mmu) (spec : Bool) (acc : AccessType) (va : Word) (i : Level) (a : PhysAddr) (gAbove : Bool) (m : MemSys)
    (r : PteRead), memoryMayAnswer e spec m va i a gAbove r →
    ∃ c, step2Read e spec c acc va i a gAbove false m = .ok r
      { m with atc := entryOf va (satpAsid e.satp) i (gAbove || pteG r.pte) r.addr r.pte :: m.atc }) ∧
  (∀ (e : Mmu) (acc : AccessType) (va : Word) (i : Level) (gAbove : Bool) (m : MemSys) (r : PteRead),
    readWord m.mem r.addr = some r.pte →
    ∃ c, compareAndSet e false c acc va i gAbove r m = .done
      { m with mem := writeWord m.mem r.addr (setAD r.pte acc),
               atc := entryOf va (satpAsid e.satp) i (gAbove || pteG r.pte) r.addr (setAD r.pte acc) :: m.atc })

/-- `IMPLICIT_READ_VISIBILITY` (R4, R57). Under `ProgramOrder` (the spec's own decision D20) a walk no cache entry answers
sees the hart's latest stores: it is the closed form over memory. Under `SinceFence` a store of the hart records the word
it stores over, and while no fence has removed the record that value may still answer a walk. The form of `SinceFence` is
the model's choice (DESIGN CHOICE, assumption log 25); that a walk stops at a word nothing has written is the spec's own
decision D35 and the model's choice (DESIGN CHOICE, assumption log 5). -/
def Obligations.ImplicitReadVisibility : Prop :=
  (∀ (e : Mmu) (acc : AccessType) (va : Word) (priv : Priv) (m : MemSys), e.cfg.implicitReads = .programOrder →
    Undisturbed m → (∀ d ∈ m.draws, d.choice.use = none) →
    Agrees (closedForm e acc va priv m.mem) va m.mem (translate e acc va priv m)) ∧
  (∀ (e : Mmu) (acc : AccessType) (va : Word) (priv : Priv) (m : MemSys) (pte : Word),
    e.cfg.implicitReads = .sinceFence → satpMode e.satp = .sv32 → priv ≠ .machine →
    ⟨pteAddress (tableBase (satpPpn e.satp)) .one va, some pte⟩ ∈ m.unfenced →
    physCheck e.cfg (pteAddress (tableBase (satpPpn e.satp)) .one va) .read .supervisor = true →
    pteClass pte = .leaf → permitted pte acc priv e.sum e.mxr = true → ptePpn0 pte = 0#10 →
    needsUpdate pte acc = false →
    ∃ ds, translate e acc va priv { m with draws := ds } = .ok (finalPa .one pte va) { m with draws := [] }) ∧
  (∀ (rs2 rs1 : RegIdx) (imm : BitVec 12) (s t : State), exec (.sw rs2 rs1 imm) s = .next t → t.trap = none →
    ∃ pa m, resolve s.mmu .store (effectiveAddr s rs1 imm) (effPriv s .store) s.ms = .ok pa m ∧
      (s.cfg.implicitReads = .programOrder → t.ms.unfenced = s.ms.unfenced) ∧
      (s.cfg.implicitReads = .sinceFence → t.ms.unfenced = ⟨pa, readWord m.mem pa⟩ :: s.ms.unfenced)) ∧
  (∀ (rd rs2 rs1 : RegIdx) (aq rl : Bool) (s t : State), exec (.amoaddW rd rs2 rs1 aq rl) s = .next t →
    t.trap = none →
    ∃ pa m, resolve s.mmu .store (s.x rs1) (effPriv s .store) s.ms = .ok pa m ∧
      (s.cfg.implicitReads = .programOrder → t.ms.unfenced = s.ms.unfenced) ∧
      (s.cfg.implicitReads = .sinceFence → t.ms.unfenced = ⟨pa, readWord m.mem pa⟩ :: s.ms.unfenced))

/-- A speculative walk (R168) leaves each byte of memory as it was or, under the updating scheme, sets A in it, in at
most one byte; it removes no cache entry; and it uses up none of the hart's draws. -/
def Obligations.SpecWalkSetsOnlyA : Prop :=
  ∀ (e : Mmu) (va : Word) (acc : AccessType) (priv : Priv) (cs : List Choice) (m : MemSys),
    (∀ q, readByte (specWalk e va acc priv cs m).mem q = readByte m.mem q ∨
      (e.cfg.adScheme = .update ∧ ∃ b, readByte m.mem q = some b ∧
        readByte (specWalk e va acc priv cs m).mem q = some (b ||| 0x40#8))) ∧
    (∀ q q', readByte (specWalk e va acc priv cs m).mem q ≠ readByte m.mem q →
      readByte (specWalk e va acc priv cs m).mem q' ≠ readByte m.mem q' → q = q') ∧
    (∀ t ∈ m.atc, t ∈ (specWalk e va acc priv cs m).atc) ∧
    (specWalk e va acc priv cs m).draws = m.draws

/-- What a speculative walk may do (R167, R168, R170), wherever it may begin: for every PTE such a walk may read from memory
some choices make it add the entry of that value, a faulting value included; and under the updating scheme, for every leaf
it may read with A clear that passes steps 3, 5 and 6 and still stands in memory, in a place where the store passes its
check, some choices make it set A there. A pointer or leaf it reads may be a superseded value under `SinceFence`, and any
value in an unwritten word (DESIGN CHOICE, assumption logs 25 and 5). -/
def Obligations.SpecWalkMayFillAndSetA : Prop :=
  ∀ (e : Mmu) (va : Word) (acc : AccessType) (priv : Priv) (m : MemSys),
    satpMode e.satp = .sv32 → e.active = true → priv ≠ .machine →
    (∀ i a gAbove r, mayVisit e true m va i a gAbove → memoryMayAnswer e true m va i a gAbove r →
      ∃ cs, entryOf va (satpAsid e.satp) i (gAbove || pteG r.pte) r.addr r.pte ∈ (specWalk e va acc priv cs m).atc) ∧
    (e.cfg.adScheme = .update → ∀ i r, mayRead e true m va i r → passingLeaf e acc priv i r.pte → pteA r.pte = false →
      readWord m.mem r.addr = some r.pte → physCheck e.cfg r.addr .write .supervisor = true →
      ∃ cs, (specWalk e va acc priv cs m).mem = writeWord m.mem r.addr (setA r.pte))

/-- No speculative walk begins in Bare mode, or while `satp` is not active (R18, R167): in M-mode with MPRV clear, or
with MPP = M. -/
def Obligations.SpecWalkNeedsActiveSatp : Prop :=
  ∀ (s : State) (va : Word) (acc : AccessType) (priv : Priv) (cs : List Choice) (m : MemSys),
    satpMode s.satp = .bare ∨ (s.priv = .machine ∧ (s.mstatus.mprv = false ∨ s.mstatus.mpp = .machine)) →
    specWalk s.mmu va acc priv cs m = m

/-! ## The whole machine -/

/-- What reset leaves, as far as R27 and R260 state values: mode M, `MPRV = 0`, no reservation, `x0 = 0`, `pc` the
parameter `RESET_PC`: the spec's own decision D27. -/
def Obligations.ResetValues : Prop :=
  State.reset.priv = .machine ∧ State.reset.mstatus.mprv = false ∧ State.reset.reservation = none ∧
  State.reset.x 0 = 0#32 ∧ State.reset.pc = State.reset.cfg.resetPc ∧ State.reset.trap = none

/-- The reset state meets the invariant, with the model's own reset values of `satp` and the cache (assumption log 4). -/
def Obligations.ResetMeetsInvariant : Prop := State.reset.Inv

/-- The codes of the ten exceptions (60_exceptions.md §1, R230), which tell them apart. -/
def Obligations.ExceptionCodes : Prop :=
  excCode .instructionAddressMisaligned = 0 ∧ excCode (.accessFault .fetch) = 1 ∧ excCode .illegalInstruction = 2 ∧
  excCode .loadAddressMisaligned = 4 ∧ excCode (.accessFault .load) = 5 ∧ excCode .storeAddressMisaligned = 6 ∧
  excCode (.accessFault .store) = 7 ∧ excCode (.pageFault .fetch) = 12 ∧ excCode (.pageFault .load) = 13 ∧
  excCode (.pageFault .store) = 15 ∧ ∀ k k' : ExcKind, excCode k = excCode k' → k = k'

/-- R63's bound on `RESERVATION_SET`, which `Config.wf` asks of a configuration as a condition on its size and alignment
(DEDUCED, assumption log 21): it holds exactly when a set that starts at any multiple of the alignment lies in one
4 KiB page. -/
def Obligations.ReservationSetLiesInOnePage : Prop :=
  ∀ c : Config, c.reservationInPage = true ↔
    ∀ base : Nat, c.reservationAlign ∣ base → base % 4096 + c.reservationSize ≤ 4096

/-- Every step keeps the invariant: memory in its canonical form, `pc` a multiple of 4 (R191), MPRV in M-mode only
(R16, R19), unimplemented bits of `satp` 0 (R14, R193), no unsupported MODE (R15), every cache entry's ASID one that
`satp` can hold (R161), superseded words under `SinceFence` only (assumption log 25), and the configuration one that R4
allows. -/
def Obligations.StepKeepsInvariant : Prop :=
  ∀ (s t : State), s.Inv → step s = .next t → t.Inv

/-- No step changes the mode, the configuration or the reservation. A constant mode is what R19 and the spec's own
decision D23 make of it (assumption log 7); a constant configuration is R4's, held in State (DESIGN CHOICE, assumption
log 1); that no step changes a held reservation is the model's own reading of R25 (DEDUCED, assumption log 21). -/
def Obligations.StepKeepsModeAndConfig : Prop :=
  ∀ (s t : State), step s = .next t → t.priv = s.priv ∧ t.cfg = s.cfg ∧ t.reservation = s.reservation

/-- User mode changes no control register and removes no cache entry by SFENCE.VMA: what entries go are the other
agents' evictions (R240). -/
def Obligations.UserModeCannotTouchControl : Prop :=
  ∀ (s t : State), s.priv = .user → step s = .next t →
    t.satp = s.satp ∧ t.mstatus = s.mstatus ∧
    (Undisturbed s.ms → ∀ u ∈ s.ms.atc, u ∈ t.ms.atc)

/-- The supervisor changes only SUM and MXR of `mstatus`, and with TVM set neither `satp` nor, by SFENCE.VMA, the cache
(R15, R16, R20, R193). -/
def Obligations.SupervisorControlIsLimited : Prop :=
  ∀ (s t : State), s.priv = .supervisor → step s = .next t →
    t.mstatus.mpp = s.mstatus.mpp ∧ t.mstatus.mprv = s.mstatus.mprv ∧ t.mstatus.tvm = s.mstatus.tvm ∧
    (s.mstatus.tvm = true → t.satp = s.satp ∧ (Undisturbed s.ms → ∀ u ∈ s.ms.atc, u ∈ t.ms.atc))

/-- A walk ends: no step answers that its retries outran the bound, whatever the cache holds and the other agents do
(R142, U20). The bound is the model's own (assumption log 6). -/
def Obligations.WalksTerminate : Prop :=
  ∀ s : State, step s ≠ .fault .walkRetriesExhausted
end

