-- ==== Sys2Proof/Laws/Memory.lean ====
section
/-! SUPPORT. The laws of physical memory: a read after a write, and the canonical form, kept by every write. -/

namespace Sys2Proof.Machine

/-- A read after a write of one byte. -/
theorem Memory.read_write (m : Memory) (k j : Nat) (v : Byte) :
    Memory.read (Memory.write m k v) j = if j = k then some v else Memory.read m j := by
  induction m with
  | nil => by_cases h : j = k <;> simp [Memory.read, Memory.write, h]
  | cons c cs ih =>
    obtain ⟨a, b⟩ := c
    simp only [Memory.write]
    split
    · simp only [Memory.read]
      split
      · rfl
      · split
        · have : j ≠ a := by omega
          have : j < a := by omega
          simp [*]
        · rfl
    · split
      · rename_i h1 h2
        subst h2
        simp only [Memory.read]
        split <;> rfl
      · rename_i h1 h2
        simp only [Memory.read, ih]
        split
        · have : j ≠ k := by omega
          simp [this]
        · split
          · have : j ≠ k := by omega
            simp [this]
          · rfl

theorem Memory.mem_write {m : Memory} {k : Nat} {v : Byte} {c : Host.Cell} (h : c ∈ Memory.write m k v) :
    c = (k, v) ∨ c ∈ m := by
  induction m with
  | nil => simpa [Memory.write] using h
  | cons d ds ih =>
    obtain ⟨a, b⟩ := d
    simp only [Memory.write] at h
    split at h
    · simpa using h
    · split at h
      · simp only [List.mem_cons] at h ⊢
        tauto
      · simp only [List.mem_cons] at h ⊢
        rcases h with h | h
        · exact .inr (.inl h)
        · rcases ih h with h | h <;> tauto

theorem Memory.wf_cons {c : Host.Cell} {cs : Memory} :
    Memory.wf (c :: cs) = true ↔ c.1 < 2 ^ 34 ∧ (∀ d ∈ cs, c.1 < d.1) ∧ Memory.wf cs = true := by
  simp [Memory.wf, and_assoc]

/-- A write inside the address space keeps the canonical form. -/
theorem Memory.wf_write {m : Memory} {k : Nat} (v : Byte) (h : Memory.wf m = true) (hk : k < 2 ^ 34) :
    Memory.wf (Memory.write m k v) = true := by
  induction m with
  | nil => simp [Memory.write, Memory.wf]; omega
  | cons c cs ih =>
    obtain ⟨a, b⟩ := c
    obtain ⟨ha, hlt, hcs⟩ := Memory.wf_cons.mp h
    simp only [Memory.write]
    split
    · rename_i hka
      refine Memory.wf_cons.mpr ⟨hk, fun d hd => ?_, h⟩
      rcases List.mem_cons.mp hd with rfl | hd
      · exact hka
      · exact Nat.lt_trans hka (hlt d hd)
    · split
      · rename_i hka
        subst hka
        exact Memory.wf_cons.mpr ⟨hk, hlt, hcs⟩
      · refine Memory.wf_cons.mpr ⟨ha, fun d hd => ?_, ih hcs⟩
        rcases Memory.mem_write hd with rfl | hd
        · dsimp only at *; omega
        · exact hlt d hd

/-- Canonical memories that read alike are equal data. -/
theorem Memory.eq_of_read {m n : Memory} (hm : Memory.wf m = true) (hn : Memory.wf n = true)
    (h : ∀ k, Memory.read m k = Memory.read n k) : m = n := by
  have below : ∀ {cs : Memory} {k : Nat}, (∀ d ∈ cs, k < d.1) → Memory.read cs k = none := by
    intro cs k hlt
    cases cs with
    | nil => rfl
    | cons d ds =>
      have := hlt d (by simp)
      have h1 : k ≠ d.1 := by omega
      simp [Memory.read, h1, this]
  induction m generalizing n with
  | nil =>
    cases n with
    | nil => rfl
    | cons d ds => have := h d.1; simp [Memory.read] at this
  | cons c cs ih =>
    obtain ⟨-, hc, hcs⟩ := Memory.wf_cons.mp hm
    cases n with
    | nil => have := h c.1; simp [Memory.read] at this
    | cons d ds =>
      obtain ⟨-, hd, hds⟩ := Memory.wf_cons.mp hn
      have h1 := h c.1
      have h2 := h d.1
      have hkey : c.1 = d.1 := by
        rcases Nat.lt_trichotomy c.1 d.1 with hlt | heq | hlt
        · have : c.1 ≠ d.1 := by omega
          simp [Memory.read, this, hlt] at h1
        · exact heq
        · have : d.1 ≠ c.1 := by omega
          simp [Memory.read, this, hlt] at h2
      have hval : c.2 = d.2 := by simpa [Memory.read, hkey] using h1
      have hcd : c = d := Prod.ext hkey hval
      subst hcd
      congr 1
      refine ih hcs hds fun k => ?_
      have hk := h k
      by_cases e : k = c.1
      · rw [e, below hc, below hd]
      · by_cases l : k < c.1
        · rw [below fun x hx => Nat.lt_trans l (hc x hx), below fun x hx => Nat.lt_trans l (hd x hx)]
        · simpa [Memory.read, e, l] using hk

/-- A read after a write at physical addresses. -/
theorem readByte_writeByte (m : Memory) (pa q : PhysAddr) (b : Byte) :
    readByte (writeByte m pa b) q = if q = pa then some b else readByte m q := by
  simp [readByte, writeByte, Memory.read_write, BitVec.toNat_inj]

theorem writeByte_wf {m : Memory} (pa : PhysAddr) (b : Byte) (h : Memory.wf m = true) :
    Memory.wf (writeByte m pa b) = true :=
  Memory.wf_write b h pa.isLt

/-- A 4-byte write keeps the canonical form. -/
theorem writeWord_wf {m : Memory} (pa : PhysAddr) (v : Word) (h : Memory.wf m = true) :
    Memory.wf (writeWord m pa v) = true :=
  writeByte_wf _ _ (writeByte_wf _ _ (writeByte_wf _ _ (writeByte_wf _ _ h)))

/-- Which bytes a readable word is made of. -/
theorem readWord_eq_some {m : Memory} {pa : PhysAddr} {w : Word} (h : readWord m pa = some w) :
    ∃ b0 b1 b2 b3, readByte m pa = some b0 ∧ readByte m (pa + 1#34) = some b1 ∧ readByte m (pa + 2#34) = some b2 ∧
      readByte m (pa + 3#34) = some b3 ∧ w = wordOfBytes b0 b1 b2 b3 := by
  simp only [readWord] at h
  split at h
  · rename_i b0 b1 b2 b3 h0 h1 h2 h3
    exact ⟨b0, b1, b2, b3, h0, h1, h2, h3, by simpa using h.symm⟩
  · simp at h

end Sys2Proof.Machine
end

