-- ==== Sys2Proof/Laws/PerInstr.lean ====
section
/-! SUPPORT. Statements about every instruction as syntax, one lemma per constructor. -/

namespace Sys2Proof.Laws

/-- Two words are equal when their 32 bits are. -/
theorem word_ext {v w : Word} (h : ∀ k < 32, v.getLsbD k = w.getLsbD k) : v = w :=
  BitVec.eq_of_getLsbD_eq fun k hk => h k hk

namespace EncodeRow

/-- The encoding of an instruction matches the row of R80's table that bears its mnemonic. -/
def Statement (i : Instr) : Prop :=
  ∃ row ∈ opcodeRows, row.mnemonic = mnemonicOf i ∧ encode i &&& row.mask = row.pattern

theorem lui (rd : RegIdx) (imm : BitVec 20) : Statement (.lui rd imm) := by
  refine ⟨⟨"LUI", 0x00000037, 0x0000007f⟩, by simp [opcodeRows], rfl, word_ext fun k hk => ?_⟩
  interval_cases k <;> simp [encode, place]

theorem addi (rd rs1 : RegIdx) (imm : BitVec 12) : Statement (.addi rd rs1 imm) := by
  refine ⟨⟨"ADDI", 0x00000013, 0x0000707f⟩, by simp [opcodeRows], rfl, word_ext fun k hk => ?_⟩
  interval_cases k <;> simp [encode, rs1Word, place]

theorem add (rd rs1 rs2 : RegIdx) : Statement (.add rd rs1 rs2) := by
  refine ⟨⟨"ADD", 0x00000033, 0xfe00707f⟩, by simp [opcodeRows], rfl, word_ext fun k hk => ?_⟩
  interval_cases k <;> simp [encode, rs1Word, place]

theorem bne (rs1 rs2 : RegIdx) (offset : BitVec 13) : Statement (.bne rs1 rs2 offset) := by
  refine ⟨⟨"BNE", 0x00001063, 0x0000707f⟩, by simp [opcodeRows], rfl, word_ext fun k hk => ?_⟩
  interval_cases k <;> simp [encode, rs1Word, place]

theorem lw (rd rs1 : RegIdx) (imm : BitVec 12) : Statement (.lw rd rs1 imm) := by
  refine ⟨⟨"LW", 0x00002003, 0x0000707f⟩, by simp [opcodeRows], rfl, word_ext fun k hk => ?_⟩
  interval_cases k <;> simp [encode, rs1Word, place]

theorem sw (rs2 rs1 : RegIdx) (imm : BitVec 12) : Statement (.sw rs2 rs1 imm) := by
  refine ⟨⟨"SW", 0x00002023, 0x0000707f⟩, by simp [opcodeRows], rfl, word_ext fun k hk => ?_⟩
  interval_cases k <;> simp [encode, rs1Word, place]

theorem amoaddW (rd rs2 rs1 : RegIdx) (aq rl : Bool) : Statement (.amoaddW rd rs2 rs1 aq rl) := by
  refine ⟨⟨"AMOADD.W", 0x0000202f, 0xf800707f⟩, by simp [opcodeRows], rfl, word_ext fun k hk => ?_⟩
  interval_cases k <;> simp [encode, rs1Word, place]

theorem csrrw (rd : RegIdx) (csr : CsrIdx) (rs1 : RegIdx) : Statement (.csrrw rd csr rs1) := by
  refine ⟨⟨"CSRRW", 0x00001073, 0x0000707f⟩, by simp [opcodeRows], rfl, word_ext fun k hk => ?_⟩
  interval_cases k <;> simp [encode, rs1Word, place]

theorem csrrs (rd : RegIdx) (csr : CsrIdx) (rs1 : RegIdx) : Statement (.csrrs rd csr rs1) := by
  refine ⟨⟨"CSRRS", 0x00002073, 0x0000707f⟩, by simp [opcodeRows], rfl, word_ext fun k hk => ?_⟩
  interval_cases k <;> simp [encode, rs1Word, place]

theorem csrrc (rd : RegIdx) (csr : CsrIdx) (rs1 : RegIdx) : Statement (.csrrc rd csr rs1) := by
  refine ⟨⟨"CSRRC", 0x00003073, 0x0000707f⟩, by simp [opcodeRows], rfl, word_ext fun k hk => ?_⟩
  interval_cases k <;> simp [encode, rs1Word, place]

theorem sfenceVma (rs1 rs2 : RegIdx) : Statement (.sfenceVma rs1 rs2) := by
  refine ⟨⟨"SFENCE.VMA", 0x12000073, 0xfe007fff⟩, by simp [opcodeRows], rfl, word_ext fun k hk => ?_⟩
  interval_cases k <;> simp [encode, rs1Word, place]

end EncodeRow

end Sys2Proof.Laws
end

