-- ==== Sys2Proof/Laws/State.lean ====
section
/-! SUPPORT. What each update of a state does to each field: one lemma per field per update, true by rfl. -/

namespace Sys2Proof.Machine

/-! ## `x[r] <- v` -/

@[simp] theorem State.setX_cfg (s : State) (r : RegIdx) (v : Word) : (s.setX r v).cfg = s.cfg := rfl
@[simp] theorem State.setX_regs (s : State) (r : RegIdx) (v : Word) : (s.setX r v).regs = writeReg s.regs r v := rfl
@[simp] theorem State.setX_pc (s : State) (r : RegIdx) (v : Word) : (s.setX r v).pc = s.pc := rfl
@[simp] theorem State.setX_priv (s : State) (r : RegIdx) (v : Word) : (s.setX r v).priv = s.priv := rfl
@[simp] theorem State.setX_mstatus (s : State) (r : RegIdx) (v : Word) : (s.setX r v).mstatus = s.mstatus := rfl
@[simp] theorem State.setX_satp (s : State) (r : RegIdx) (v : Word) : (s.setX r v).satp = s.satp := rfl
@[simp] theorem State.setX_ms (s : State) (r : RegIdx) (v : Word) : (s.setX r v).ms = s.ms := rfl
@[simp] theorem State.setX_reservation (s : State) (r : RegIdx) (v : Word) :
    (s.setX r v).reservation = s.reservation := rfl
@[simp] theorem State.setX_trap (s : State) (r : RegIdx) (v : Word) : (s.setX r v).trap = s.trap := rfl

/-! ## `pc <- pc + 4` -/

@[simp] theorem State.advance_cfg (s : State) : s.advance.cfg = s.cfg := rfl
@[simp] theorem State.advance_regs (s : State) : s.advance.regs = s.regs := rfl
@[simp] theorem State.advance_pc (s : State) : s.advance.pc = s.pc + 4#32 := rfl
@[simp] theorem State.advance_priv (s : State) : s.advance.priv = s.priv := rfl
@[simp] theorem State.advance_mstatus (s : State) : s.advance.mstatus = s.mstatus := rfl
@[simp] theorem State.advance_satp (s : State) : s.advance.satp = s.satp := rfl
@[simp] theorem State.advance_ms (s : State) : s.advance.ms = s.ms := rfl
@[simp] theorem State.advance_reservation (s : State) : s.advance.reservation = s.reservation := rfl
@[simp] theorem State.advance_trap (s : State) : s.advance.trap = s.trap := rfl

/-! ## Taking an exception -/

@[simp] theorem takeTrap_cfg (e : Exn) (s : State) : (takeTrap e s).cfg = s.cfg := rfl
@[simp] theorem takeTrap_regs (e : Exn) (s : State) : (takeTrap e s).regs = s.regs := rfl
@[simp] theorem takeTrap_pc (e : Exn) (s : State) : (takeTrap e s).pc = s.pc := rfl
@[simp] theorem takeTrap_priv (e : Exn) (s : State) : (takeTrap e s).priv = s.priv := rfl
@[simp] theorem takeTrap_mstatus (e : Exn) (s : State) : (takeTrap e s).mstatus = s.mstatus := rfl
@[simp] theorem takeTrap_satp (e : Exn) (s : State) : (takeTrap e s).satp = s.satp := rfl
@[simp] theorem takeTrap_ms (e : Exn) (s : State) : (takeTrap e s).ms = s.ms := rfl
@[simp] theorem takeTrap_reservation (e : Exn) (s : State) : (takeTrap e s).reservation = s.reservation := rfl
@[simp] theorem takeTrap_trap (e : Exn) (s : State) : (takeTrap e s).trap = some ⟨e.kind, e.tval, s.pc⟩ := rfl

/-! ## Control-register writes -/

@[simp] theorem csrWrite_cfg (s : State) (c : Csr) (v : Word) : (csrWrite s c v).cfg = s.cfg := by cases c <;> rfl
@[simp] theorem csrWrite_regs (s : State) (c : Csr) (v : Word) : (csrWrite s c v).regs = s.regs := by cases c <;> rfl
@[simp] theorem csrWrite_pc (s : State) (c : Csr) (v : Word) : (csrWrite s c v).pc = s.pc := by cases c <;> rfl
@[simp] theorem csrWrite_priv (s : State) (c : Csr) (v : Word) : (csrWrite s c v).priv = s.priv := by cases c <;> rfl
@[simp] theorem csrWrite_ms (s : State) (c : Csr) (v : Word) : (csrWrite s c v).ms = s.ms := by cases c <;> rfl
@[simp] theorem csrWrite_reservation (s : State) (c : Csr) (v : Word) :
    (csrWrite s c v).reservation = s.reservation := by cases c <;> rfl
@[simp] theorem csrWrite_trap (s : State) (c : Csr) (v : Word) : (csrWrite s c v).trap = s.trap := by cases c <;> rfl
@[simp] theorem csrWrite_mstatus_satp (s : State) (v : Word) : (csrWrite s .satp v).mstatus = s.mstatus := rfl
@[simp] theorem csrWrite_mstatus_sstatus (s : State) (v : Word) :
    (csrWrite s .sstatus v).mstatus = s.mstatus.writeSstatus v := rfl
@[simp] theorem csrWrite_mstatus_mstatus (s : State) (v : Word) :
    (csrWrite s .mstatus v).mstatus = s.mstatus.write v := rfl
@[simp] theorem csrWrite_satp_satp (s : State) (v : Word) : (csrWrite s .satp v).satp = satpAfterWrite s v := rfl
@[simp] theorem csrWrite_satp_sstatus (s : State) (v : Word) : (csrWrite s .sstatus v).satp = s.satp := rfl
@[simp] theorem csrWrite_satp_mstatus (s : State) (v : Word) : (csrWrite s .mstatus v).satp = s.satp := rfl

/-! ## The register file -/

@[simp] theorem readReg_zero (regs : Vector Word 31) : readReg regs 0#5 = 0#32 := by simp [readReg]

@[simp] theorem writeReg_zero (regs : Vector Word 31) (v : Word) : writeReg regs 0#5 v = regs := by simp [writeReg]

/-- A read after a write: the written register holds the value, `x0` still reads 0, every other is as it was. -/
theorem readReg_writeReg (regs : Vector Word 31) (rd r : RegIdx) (v : Word) :
    readReg (writeReg regs rd v) r = if r = rd ∧ rd ≠ 0#5 then v else readReg regs r := by
  by_cases hd : rd = 0#5
  · simp [hd]
  by_cases hr : r = 0#5
  · subst hr
    have : (0#5 : RegIdx) ≠ rd := fun h => hd h.symm
    simp [this]
  have h1 : rd.toNat ≠ 0 := fun h => hd (BitVec.eq_of_toNat_eq (by simpa using h))
  have h2 : r.toNat ≠ 0 := fun h => hr (BitVec.eq_of_toNat_eq (by simpa using h))
  simp only [readReg, writeReg, hd, hr, if_false, Vector.getElem_set]
  by_cases he : r = rd
  · simp [he, hd]
  · have hne : rd.toNat - 1 ≠ r.toNat - 1 := fun h => he (BitVec.eq_of_toNat_eq (by omega))
    simp [he, hne]

@[simp] theorem State.setX_x (s : State) (rd r : RegIdx) (v : Word) :
    (s.setX rd v).x r = if r = rd ∧ rd ≠ 0#5 then v else s.x r :=
  readReg_writeReg s.regs rd r v

@[simp] theorem State.advance_x (s : State) (r : RegIdx) : s.advance.x r = s.x r := rfl
@[simp] theorem takeTrap_x (e : Exn) (s : State) (r : RegIdx) : (takeTrap e s).x r = s.x r := rfl
@[simp] theorem csrWrite_x (s : State) (c : Csr) (v : Word) (r : RegIdx) : (csrWrite s c v).x r = s.x r := by
  cases c <;> rfl

/-! ## Ending an instruction with its memory operation -/

@[simp] theorem finish_ok {α : Type} (s : State) (a : α) (m : MemSys)
    (k : α → State → Host.Outcome State Fault Refusal) : finish s (.ok a m) k = k a { s with ms := m } := rfl
@[simp] theorem finish_raised {α : Type} (s : State) (e : Exn) (m : MemSys)
    (k : α → State → Host.Outcome State Fault Refusal) :
    finish s (.raised e m) k = .next (takeTrap e { s with ms := m }) := rfl
@[simp] theorem finish_stuck {α : Type} (s : State) (f : Fault)
    (k : α → State → Host.Outcome State Fault Refusal) : finish s (.stuck f) k = .fault f := rfl

/-- Everything `finish` can do when it answers a next state: the operation succeeded and its effect followed, or the
exception was taken. -/
theorem finish_cases {α : Type} {s t : State} {r : MRes α} {k : α → State → Host.Outcome State Fault Refusal}
    (h : finish s r k = .next t) :
    (∃ a m, r = .ok a m ∧ k a { s with ms := m } = .next t) ∨
    (∃ e m, r = .raised e m ∧ t = takeTrap e { s with ms := m }) := by
  cases r with
  | ok a m => exact .inl ⟨a, m, rfl, h⟩
  | raised e m => exact .inr ⟨e, m, rfl, by simpa using h.symm⟩
  | stuck f => simp at h

end Sys2Proof.Machine
end

