-- ==== Sys2Proof/Laws/Walk.lean ====
section
/-! SUPPORT. What the parts of a walk can do, one lemma per part, and the induction over a walk packaged once. -/

namespace Sys2Proof.Machine

/-! ## Draws and fills -/

@[simp] theorem popDraw_mem (m : MemSys) : (popDraw m).2.mem = m.mem := by
  unfold popDraw; split <;> rfl
@[simp] theorem popDraw_atc (m : MemSys) : (popDraw m).2.atc = m.atc := by
  unfold popDraw; split <;> rfl
theorem popDraw_draws (m : MemSys) : (popDraw m).2.draws = m.draws.tail := by
  unfold popDraw; split <;> simp_all
/-- A draw is one of those still to come, or the quiet one. -/
theorem popDraw_draw (m : MemSys) : (popDraw m).1 ∈ m.draws ∨ (popDraw m).1 = Draw.quiet := by
  unfold popDraw; split <;> simp_all

@[simp] theorem fillAtc_mem (f : Bool) (t : AtcEntry) (m : MemSys) : (fillAtc f t m).mem = m.mem := by
  unfold fillAtc; split <;> rfl
@[simp] theorem fillAtc_draws (f : Bool) (t : AtcEntry) (m : MemSys) : (fillAtc f t m).draws = m.draws := by
  unfold fillAtc; split <;> rfl
/-- A fill adds the entry or nothing. -/
theorem fillAtc_atc (f : Bool) (t : AtcEntry) (m : MemSys) :
    (fillAtc f t m).atc = m.atc ∨ (fillAtc f t m).atc = t :: m.atc := by
  unfold fillAtc; split <;> simp

@[simp] theorem fenceAtc_mem (va : Option Word) (a : Option Asid) (m : MemSys) : (fenceAtc va a m).mem = m.mem := rfl
@[simp] theorem fenceAtc_draws (va : Option Word) (a : Option Asid) (m : MemSys) :
    (fenceAtc va a m).draws = m.draws := rfl
@[simp] theorem mem_fenceAtc (va : Option Word) (a : Option Asid) (m : MemSys) (t : AtcEntry) :
    t ∈ (fenceAtc va a m).atc ↔ t ∈ m.atc ∧ mustRemove va a t = false := by
  simp [fenceAtc]

@[simp] theorem fenceAtc_unfenced (va : Option Word) (a : Option Asid) (m : MemSys) :
    (fenceAtc va a m).unfenced = m.unfenced := rfl
@[simp] theorem fenceStores_mem (m : MemSys) : (fenceStores m).mem = m.mem := rfl
@[simp] theorem fenceStores_atc (m : MemSys) : (fenceStores m).atc = m.atc := rfl
@[simp] theorem fenceStores_unfenced (m : MemSys) : (fenceStores m).unfenced = [] := rfl
@[simp] theorem fenceStores_draws (m : MemSys) : (fenceStores m).draws = m.draws := rfl

@[simp] theorem popDraw_unfenced (m : MemSys) : (popDraw m).2.unfenced = m.unfenced := by
  unfold popDraw; split <;> rfl
@[simp] theorem fillAtc_unfenced (f : Bool) (t : AtcEntry) (m : MemSys) : (fillAtc f t m).unfenced = m.unfenced := by
  unfold fillAtc; split <;> rfl

@[simp] theorem supersede_programOrder (pa : PhysAddr) (m : MemSys) :
    supersede .programOrder pa m = m.unfenced := rfl
@[simp] theorem supersede_sinceFence (pa : PhysAddr) (m : MemSys) :
    supersede .sinceFence pa m = ⟨pa, readWord m.mem pa⟩ :: m.unfenced := rfl

/-! ## The cases of each part -/

/-- What an implicit read of memory can see: the word as it stands, or under `SinceFence`, and not in the re-read after
a failed comparison, a value the hart has stored over there without a fence. -/
theorem implicitRead_cases (vis : Visibility) (c : Choice) (fresh : Bool) (addr : PhysAddr) (m : MemSys) :
    implicitRead vis c fresh addr m = readWord m.mem addr ∨
    (vis = .sinceFence ∧ fresh = false ∧ ⟨addr, implicitRead vis c fresh addr m⟩ ∈ m.unfenced) := by
  unfold implicitRead
  cases fresh with
  | true => exact .inl rfl
  | false =>
    simp only [Bool.false_eq_true, if_false, true_and]
    cases hc : chooseOlder vis m.unfenced addr c.older with
    | none => exact .inl rfl
    | some w =>
      cases vis with
      | programOrder => simp [chooseOlder] at hc
      | sinceFence =>
        cases ho : c.older with
        | none => simp [chooseOlder, ho] at hc
        | some k =>
          have hm := List.mem_of_getElem? (by simpa [chooseOlder, ho] using hc)
          obtain ⟨hw, rfl⟩ : w ∈ m.unfenced ∧ w.addr = addr := by simpa [List.mem_filter] using hm
          exact .inr ⟨rfl, hw⟩

/-- A chosen entry is an entry that hits. -/
theorem chooseHit_some {atc : List AtcEntry} {i : Level} {va : Word} {asid : Asid} {u : Option Nat} {t : AtcEntry}
    (h : chooseHit atc i va asid u = some t) : t ∈ atc ∧ hit t i va asid = true := by
  cases u with
  | none => simp [chooseHit] at h
  | some k =>
    have := List.mem_of_getElem? h
    simpa [List.mem_filter] using this

/-- Everything a step-2 read can do when it answers a PTE: an entry of the cache answers and nothing changes; or memory
answers as implicit reads see it, its check passed, and the value may be put into the cache; or the speculative walker
sees any value in a word nothing has written. -/
theorem step2Read_ok {e : Mmu} {spec : Bool} {c : Choice} {acc : AccessType} {va : Word} {i : Level} {a : PhysAddr}
    {gAbove fresh : Bool} {m m' : MemSys} {r : PteRead}
    (h : step2Read e spec c acc va i a gAbove fresh m = .ok r m') :
    (∃ t, fresh = false ∧ chooseHit m.atc i va (satpAsid e.satp) c.use = some t ∧ r = ⟨t.pteAddr, t.pte, t.global⟩ ∧
      m' = m) ∨
    (r.addr = pteAddress a i va ∧ physCheck e.cfg r.addr .read .supervisor = true ∧
      r.global = (gAbove || pteG r.pte) ∧
      (implicitRead e.cfg.implicitReads c fresh r.addr m = some r.pte ∨
        (implicitRead e.cfg.implicitReads c fresh r.addr m = none ∧ spec = true)) ∧
      m' = fillAtc c.fill (entryOf va (satpAsid e.satp) i r.global r.addr r.pte) m) := by
  unfold step2Read at h
  split at h
  · rename_i t ht
    cases fresh with
    | true => simp at ht
    | false =>
      injection h with h1 h2
      exact .inl ⟨t, rfl, by simpa using ht, h1.symm, h2.symm⟩
  · simp only at h
    split at h
    · rename_i hp
      split at h
      · rename_i pte _ hr
        injection h with h1 h2
        subst h1
        exact .inr ⟨rfl, hp, rfl, .inl hr, h2.symm⟩
      · rename_i hr
        injection h with h1 h2
        subst h1
        exact .inr ⟨rfl, hp, rfl, .inr ⟨hr, rfl⟩, h2.symm⟩
      · simp at h
    · simp at h

/-- A step-2 read raises only the access fault of its access, and changes nothing. -/
theorem step2Read_raised {e : Mmu} {spec : Bool} {c : Choice} {acc : AccessType} {va : Word} {i : Level} {a : PhysAddr}
    {gAbove fresh : Bool} {m m' : MemSys} {x : Exn}
    (h : step2Read e spec c acc va i a gAbove fresh m = .raised x m') : x = ⟨.accessFault acc, va⟩ ∧ m' = m := by
  unfold step2Read at h
  split at h
  · simp at h
  · simp only at h
    split at h
    · split at h <;> simp at h
    · injection h with h1 h2
      exact ⟨h1.symm, h2.symm⟩

/-- Steps 3 to 6 go down only from level 1, through a pointer. -/
theorem inspect_descend {e : Mmu} {acc : AccessType} {priv : Priv} {i : Level} {pte : Word} {a : PhysAddr}
    (h : inspect e acc priv i pte = .descend a) :
    i = .one ∧ pteClass pte = .pointer ∧ a = tableBase (ptePpn pte) := by
  unfold inspect at h
  split at h
  · simp at h
  · simp at h
  · rename_i hc
    split at h
    · simp at h
    · cases i with
      | zero => simp at h
      | one => exact ⟨rfl, hc, by simpa using h.symm⟩
  · split at h
    · simp at h
    · split at h <;> simp at h

/-- Steps 3 to 6 pass only a leaf that permits the access and is no misaligned megapage. -/
theorem inspect_leaf {e : Mmu} {acc : AccessType} {priv : Priv} {i : Level} {pte : Word}
    (h : inspect e acc priv i pte = .leaf) :
    pteClass pte = .leaf ∧ permitted pte acc priv e.sum e.mxr = true ∧ (i = .one → ptePpn0 pte = 0#10) := by
  unfold inspect at h
  split at h
  · simp at h
  · simp at h
  · split at h
    · simp at h
    · cases i <;> simp at h
  · rename_i hc
    split at h
    · simp at h
    · rename_i hp
      split at h
      · simp at h
      · rename_i hm
        exact ⟨hc, by simpa using hp, fun hi => by simpa [hi] using hm⟩

/-- A property of a memory system that holds of what a result leaves behind. -/
def MRes.Leaves {α : Type} (P : MemSys → Prop) : MRes α → Prop
  | .ok _ m     => P m
  | .raised _ m => P m
  | .stuck _    => True

/-- A property of a memory system that holds of what step 7 leaves behind. -/
def Step7.Leaves (P : MemSys → Prop) : Step7 → Prop
  | .done m     => P m
  | .raised _ m => P m
  | .retry m    => P m
  | .stuck _    => True

/-- The atomic part of step 7 keeps what checked A/D writes and fills with the walk's ASID keep. -/
theorem compareAndSet_leaves {P : MemSys → Prop} {e : Mmu} {spec : Bool} {c : Choice} {acc : AccessType} {va : Word}
    {i : Level} {gAbove : Bool} {r : PteRead} {m : MemSys}
    (hfill : ∀ m f t, P m → t.asid = satpAsid e.satp → P (fillAtc f t m))
    (hwrite : ∀ new, readWord m.mem r.addr = some r.pte → (new = setA r.pte ∨ new = setAD r.pte acc) →
      P { m with mem := writeWord m.mem r.addr new })
    (hm : P m) : (compareAndSet e spec c acc va i gAbove r m).Leaves P := by
  unfold compareAndSet
  split
  · exact hm
  · split
    · cases spec
      · trivial
      · exact hm
    · rename_i cur hr
      by_cases he : cur = r.pte
      · subst he
        simp only [if_true]
        refine hfill _ _ _ (hwrite _ hr ?_) rfl
        cases spec <;> simp
      · simp only [he, if_false]
        exact hm

/-- Step 7 keeps what landing draws, checked A/D writes and fills with the walk's ASID keep. -/
theorem step7_leaves {P : MemSys → Prop} {e : Mmu} {spec : Bool} {land : List Event → MemSys → MemSys}
    {acc : AccessType} {va : Word} {i : Level} {gAbove : Bool} {r : PteRead} {m : MemSys}
    (hpop : ∀ m, P m → P (land (popDraw m).1.events (popDraw m).2))
    (hfill : ∀ m f t, P m → t.asid = satpAsid e.satp → P (fillAtc f t m))
    (hwrite : ∀ m addr pte new, P m → readWord m.mem addr = some pte → (new = setA pte ∨ new = setAD pte acc) →
      physCheck e.cfg addr .write .supervisor = true → e.cfg.adScheme = .update →
      P { m with mem := writeWord m.mem addr new })
    (hm : P m) : (step7 e spec land acc va i gAbove r m).Leaves P := by
  unfold step7
  split
  · exact hm
  · cases hs : e.cfg.adScheme with
    | fault => exact hm
    | update =>
      by_cases hp : physCheck e.cfg r.addr .write .supervisor = true
      · simp only [hp, Bool.not_true, Bool.false_eq_true, if_false, accessPoint]
        have h3 := hpop m hm
        exact compareAndSet_leaves hfill (fun new hr hn => hwrite _ _ _ _ h3 hr hn hp hs) h3
      · simp only [hp, Bool.not_false, if_true]
        exact hm

/-- The induction over a walk, once: what draws, landing events, fills with the walk's ASID and checked A/D writes keep,
a walk keeps. -/
theorem walk_leaves {P : MemSys → Prop} {e : Mmu} {spec : Bool} {land : List Event → MemSys → MemSys}
    {acc : AccessType} {va : Word} {priv : Priv}
    (hpop : ∀ m, P m → P (land (popDraw m).1.events (popDraw m).2))
    (hfill : ∀ m f t, P m → t.asid = satpAsid e.satp → P (fillAtc f t m))
    (hwrite : ∀ m addr pte new, P m → readWord m.mem addr = some pte → (new = setA pte ∨ new = setAD pte acc) →
      physCheck e.cfg addr .write .supervisor = true → e.cfg.adScheme = .update →
      P { m with mem := writeWord m.mem addr new })
    (n : Nat) (i : Level) (a : PhysAddr) (gAbove fresh : Bool) (m : MemSys) (hm : P m) :
    (walk e spec land acc va priv n i a gAbove fresh m).Leaves P := by
  induction n generalizing i a gAbove fresh m with
  | zero => trivial
  | succ n ih =>
    have h1 := hpop m hm
    simp only [walk, accessPoint]
    cases hq : step2Read e spec (popDraw m).1.choice acc va i a gAbove fresh
      (land (popDraw m).1.events (popDraw m).2) with
    | stuck f => trivial
    | raised x m' =>
      obtain ⟨-, rfl⟩ := step2Read_raised hq
      exact h1
    | ok r m2 =>
      have h2 : P m2 := by
        rcases step2Read_ok hq with ⟨_, _, _, _, rfl⟩ | ⟨_, _, _, _, rfl⟩
        · exact h1
        · exact hfill _ _ _ h1 rfl
      have h7 := step7_leaves (gAbove := gAbove) (r := r) (i := i) (va := va) (spec := spec) hpop hfill hwrite h2
      simp only [MRes.bind]
      cases inspect e acc priv i r.pte with
      | pageFault => exact h2
      | descend a' => exact ih _ _ _ _ _ h2
      | leaf =>
        cases hs : step7 e spec land acc va i gAbove r m2 with
        | done m3 => rw [hs] at h7; exact h7
        | raised k m3 => rw [hs] at h7; exact h7
        | retry m3 => rw [hs] at h7; exact ih _ _ _ _ _ h7
        | stuck f => trivial

/-! ## The canonical form, kept by every memory operation -/

theorem landNothing_eq (evs : List Event) (m : MemSys) : landNothing evs m = m := rfl

theorem specWalk_wf {e : Mmu} {va : Word} {acc : AccessType} {priv : Priv} {cs : List Choice} {m : MemSys}
    (h : Memory.wf m.mem = true) : Memory.wf (specWalk e va acc priv cs m).mem = true := by
  unfold specWalk
  split
  · have hw := walk_leaves (P := fun m => Memory.wf m.mem = true) (e := e) (spec := true) (land := landNothing)
      (acc := acc) (va := va) (priv := priv) (fun m hm => by simpa [landNothing] using hm)
      (fun m f t hm _ => by simpa using hm) (fun m addr pte new hm _ _ _ _ => writeWord_wf _ _ hm)
      (walkBound { m with draws := cs.map (fun c => ⟨[], c⟩) }) .one (tableBase (satpPpn e.satp)) false false
      { m with draws := cs.map (fun c => ⟨[], c⟩) } h
    unfold walkFromRoot
    split <;> rename_i hq <;> simp_all [MRes.Leaves]
  · exact h

theorem applyEvent_wf {e : Mmu} {ev : Event} {m : MemSys} (h : Memory.wf m.mem = true) :
    Memory.wf (applyEvent e ev m).mem = true := by
  cases ev with
  | store pa b => exact writeByte_wf _ _ h
  | evict k => exact h
  | specWalk va acc priv cs => exact specWalk_wf h

theorem applyEvents_wf {e : Mmu} {evs : List Event} {m : MemSys} (h : Memory.wf m.mem = true) :
    Memory.wf (applyEvents e evs m).mem = true := by
  unfold applyEvents
  induction evs generalizing m with
  | nil => exact h
  | cons ev evs ih => exact ih (applyEvent_wf h)

theorem atAccess_wf {e : Mmu} {m : MemSys} (h : Memory.wf m.mem = true) : Memory.wf (atAccess e m).2.mem = true := by
  simp only [atAccess, accessPoint]
  exact applyEvents_wf (by simpa using h)

/-- A translation keeps the canonical form. -/
theorem translate_wf {e : Mmu} {acc : AccessType} {va : Word} {priv : Priv} {m : MemSys}
    (h : Memory.wf m.mem = true) : (translate e acc va priv m).Leaves (fun m => Memory.wf m.mem = true) := by
  unfold translate
  split
  · exact h
  · exact walk_leaves (fun m hm => applyEvents_wf (by simpa using hm)) (fun m f t hm _ => by simpa using hm)
      (fun m addr pte new hm _ _ _ _ => writeWord_wf _ _ hm) _ _ _ _ _ _ h

/-- Everything `resolve` can do when it answers an address: the translation gave it, its final check passed, and the
events drawn for the access landed. -/
theorem resolve_ok {e : Mmu} {acc : AccessType} {va : Word} {priv : Priv} {m m' : MemSys} {pa : PhysAddr}
    (h : resolve e acc va priv m = .ok pa m') :
    ∃ m1, translate e acc va priv m = .ok pa m1 ∧ physCheck e.cfg pa (physKind acc) priv = true ∧
      m' = (atAccess e m1).2 := by
  unfold resolve at h
  cases ht : translate e acc va priv m with
  | ok pa1 m1 =>
    simp only [ht, MRes.bind] at h
    split at h
    · rename_i hp
      injection h with h1 h2
      subst h1
      exact ⟨m1, rfl, hp, h2.symm⟩
    · simp at h
  | raised x m1 => simp [ht, MRes.bind] at h
  | stuck f => simp [ht, MRes.bind] at h

/-- The whole path of an explicit access keeps the canonical form. -/
theorem resolve_wf {e : Mmu} {acc : AccessType} {va : Word} {priv : Priv} {m : MemSys}
    (h : Memory.wf m.mem = true) : (resolve e acc va priv m).Leaves (fun m => Memory.wf m.mem = true) := by
  have ht := translate_wf (e := e) (acc := acc) (va := va) (priv := priv) h
  unfold resolve
  cases hq : translate e acc va priv m with
  | ok pa m1 =>
    rw [hq] at ht
    simp only [MRes.bind]
    split
    · exact atAccess_wf ht
    · exact ht
  | raised x m1 => rw [hq] at ht; exact ht
  | stuck f => trivial

end Sys2Proof.Machine
end

