-- ==== Sys2Proof/Tests/Slice0.lean ====
section
/-! SUPPORT. Tests whose expected results are the spec's own vectors (spec/95_test_vectors.md; the row is named in each
docstring), the smoke test of well-formedness, and a witness for the hypotheses of every statement that has some. -/

namespace Sys2Proof.Tests

open Sys2Proof.Machine

/-! ## Helpers -/

/-- The outcome is a next state with this property. -/
def nextAnd (o : Host.Outcome State Fault Refusal) (p : State → Bool) : Bool :=
  match o with
  | .next t => p t
  | _       => false

theorem exists_next {o : Host.Outcome State Fault Refusal} {p : State → Bool} (h : nextAnd o p = true) :
    ∃ t, o = .next t ∧ p t = true := by
  cases o with
  | next t => exact ⟨t, rfl, h⟩
  | fault f => simp [nextAnd] at h
  | refused r => simp [nextAnd] at h

/-- The result is a success with this property. -/
def okAnd {α : Type} (r : MRes α) (p : α → MemSys → Bool) : Bool :=
  match r with
  | .ok a m => p a m
  | _       => false

theorem exists_ok {α : Type} {r : MRes α} {p : α → MemSys → Bool} (h : okAnd r p = true) :
    ∃ a m, r = .ok a m ∧ p a m = true := by
  cases r with
  | ok a m => exact ⟨a, m, rfl, h⟩
  | raised x m => simp [okAnd] at h
  | stuck f => simp [okAnd] at h

/-- The result is an exception with this property. -/
def raisedAnd {α : Type} (r : MRes α) (p : Exn → MemSys → Bool) : Bool :=
  match r with
  | .raised x m => p x m
  | _           => false

theorem exists_raised {α : Type} {r : MRes α} {p : Exn → MemSys → Bool} (h : raisedAnd r p = true) :
    ∃ x m, r = .raised x m ∧ p x m = true := by
  cases r with
  | ok a m => simp [raisedAnd] at h
  | raised x m => exact ⟨x, m, rfl, h⟩
  | stuck f => simp [raisedAnd] at h

/-- A memory that holds these words. -/
def words (l : List (PhysAddr × Word)) : Memory := l.foldl (fun m p => writeWord m p.1 p.2) []

/-- A machine in M-mode at address 0 with these words in memory; the updating scheme, the rest at its defaults. -/
def machineState (l : List (PhysAddr × Word)) : State :=
  { State.reset with cfg := { Config.platform with adScheme := .update }, ms := ⟨words l, [], [], []⟩ }

/-- The code page of image T1 (`root[1]`, `l0[0]`) with one instruction at physical 0x80003000, and more words. -/
def codePage (inst : Word) (l : List (PhysAddr × Word)) : Memory :=
  words ([(0x80001004, 0x20000801), (0x80002000, 0x20000C4B), (0x80003000, inst)] ++ l)

/-- Supervisor mode at va 0x00400000 on part of image T1, as the vectors of 95_test_vectors.md §9 start. -/
def supervisorState (scheme : AdScheme) (inst : Word) (l : List (PhysAddr × Word)) : State :=
  { machineState [] with
    cfg := { Config.platform with adScheme := scheme }, priv := .supervisor, satp := 0x80080001
    pc := 0x00400000, ms := ⟨codePage inst l, [], [], []⟩ }

/-- The walk's view of image T1's `satp` with SUM and MXR given. -/
def mmuT1 (scheme : AdScheme) (sum mxr : Bool) : Mmu :=
  ⟨{ Config.platform with adScheme := scheme }, 0x80080001, sum, mxr, true⟩

/-- The words of image T1 that the tests below walk: `root[1]` and some of the level-0 table's. -/
def tables : Memory := words [(0x80001004, 0x20000801), (0x80002004, 0x20001047), (0x80002008, 0x200014D7),
  (0x8000200C, 0x20001859), (0x80002014, 0xFFFFFFFE), (0x80002028, 0x20002807)]

/-- PC1 of 95_test_vectors.md §5: 16 MiB of memory at 0x80000000, every kind and mode. -/
def pc1 (scheme : AdScheme) : Config :=
  { Config.platform with adScheme := scheme, regions := [⟨0x80000000, 0x01000000, Region.allGrants⟩] }

/-- Reads and fetches in every mode. -/
def readOnly : List Grant := Region.allGrants.filter (fun g => g.kind ≠ .write)

/-- PC3 of 95_test_vectors.md §5: PC1 with writes to 0x8000A000..0x8000AFFF failing. -/
def pc3 : Config :=
  { pc1 .update with regions := [⟨0x8000A000, 0x1000, readOnly⟩, ⟨0x80000000, 0x01000000, Region.allGrants⟩] }

/-! ## Well-formedness and decoding -/

/-- R79: a branch offset is a multiple of 2; the term with an odd one is refused, its even neighbour is not. -/
theorem test_wellformed_refuses_odd_branch_offset :
    (Instr.bne 5 6 7).wf = false ∧ (Instr.bne 5 6 8).wf = true := by decide

/-- One word of every row of R80, from the table of 95_test_vectors.md §8. -/
theorem test_decode_rows :
    decodeWord 0x004012B7 = .ok (.lui 5 0x401) ∧ decodeWord 0xFFF00293 = .ok (.addi 5 0 0xFFF) ∧
    decodeWord 0x006283B3 = .ok (.add 7 5 6) ∧ decodeWord 0x80629063 = .ok (.bne 5 6 0x1000) ∧
    decodeWord 0x0002A283 = .ok (.lw 5 5 0) ∧ decodeWord 0x7E02AE23 = .ok (.sw 0 5 2044) ∧
    decodeWord 0x0062A52F = .ok (.amoaddW 10 6 5 false false) ∧ decodeWord 0x10029373 = .ok (.csrrw 6 0x100 5) ∧
    decodeWord 0x30002373 = .ok (.csrrs 6 0x300 0) ∧ decodeWord 0x3002B073 = .ok (.csrrc 0 0x300 5) ∧
    decodeWord 0x12628073 = .ok (.sfenceVma 5 6) := by decide

/-- Words 95_test_vectors.md §8 lists as refused: `ecall`, SFENCE.VMA with `rd = 1`, `sub`, `amoswap.w`, `csrrwi`,
`fence`, all zeros, all ones. -/
theorem test_decode_refuses :
    [0x00000073#32, 0x120000F3#32, 0x406283B3#32, 0x0862A52F#32, 0x1802D073#32, 0x0FF0000F#32, 0#32,
      0xFFFFFFFF#32].all (fun w => decide (decodeWord w = .error (.noRow w))) = true := by decide

/-! ## One step of each instruction -/

/-- H1. -/
theorem test_lui : nextAnd (exec (.lui 5 0xFFFFF) (machineState []))
    (fun t => t.x 5 == 0xFFFFF000 && t.pc == 4) = true := by decide

/-- H2: the sum wraps; H3: the immediate is sign-extended. -/
theorem test_addi_wraps :
    nextAnd (exec (.addi 6 6 1) ((machineState []).setX 6 0xFFFFFFFF)) (fun t => t.x 6 == 0) = true ∧
    nextAnd (exec (.addi 5 0 0xFFF) (machineState [])) (fun t => t.x 5 == 0xFFFFFFFF) = true := by decide

/-- H4; H5: one register as all three operands. -/
theorem test_add :
    nextAnd (exec (.add 7 5 6) (((machineState []).setX 5 0x80000000).setX 6 0x80000001)) (fun t => t.x 7 == 1) = true ∧
    nextAnd (exec (.add 5 5 5) ((machineState []).setX 5 0x40000001)) (fun t => t.x 5 == 0x80000002) = true := by decide

/-- H6 and H7: taken and not taken. -/
theorem test_bne :
    nextAnd (exec (.bne 5 6 8) { ((machineState []).setX 5 1).setX 6 2 with pc := 0x00400000 })
      (fun t => t.pc == 0x00400008) = true ∧
    nextAnd (exec (.bne 5 6 8) { ((machineState []).setX 5 2).setX 6 2 with pc := 0x00400000 })
      (fun t => t.pc == 0x00400004) = true := by decide

/-- H8: a target that is no multiple of 4. -/
theorem test_bne_misaligned :
    nextAnd (exec (.bne 5 6 6) { ((machineState []).setX 5 1).setX 6 2 with pc := 0x00400000 })
      (fun t => t.trap == some ⟨.instructionAddressMisaligned, 0x00400006, 0x00400000⟩ && t.pc == 0x00400000) = true := by
  decide

/-- H9, as a whole step: the load's page is found through both table levels. -/
theorem test_lw : nextAnd
    (step ((supervisorState .fault 0xFFC2A303 [(0x80002004, 0x20001047), (0x80004000, 0x11223344)]).setX 5 0x00401004))
    (fun t => t.x 6 == 0x11223344 && t.pc == 0x00400004) = true := by decide

/-- H10: misalignment is found before any translation. -/
theorem test_lw_misaligned : nextAnd (step ((supervisorState .fault 0x0022A303 []).setX 5 0x00401000))
    (fun t => t.trap == some ⟨.loadAddressMisaligned, 0x00401002, 0x00400000⟩) = true := by decide

/-- The last instruction of P1 under `Update`: the word is stored and D of `l0[1]` is set. -/
theorem test_sw_sets_dirty : nextAnd
    (step (((supervisorState .update 0x0062A223 [(0x80002004, 0x20001047), (0x80004004, 0)]).setX 5 0x00401000).setX 6
      0x2B))
    (fun t => readWord t.ms.mem 0x80004004 == some 0x2B && readWord t.ms.mem 0x80002004 == some 0x200010C7 &&
      readWord t.ms.mem 0x80002000 == some 0x20000C4B) = true := by decide

/-- The same under `Fault`: a store page fault, nothing stored. -/
theorem test_sw_dirty_fault : nextAnd
    (step (((supervisorState .fault 0x0062A223 [(0x80002004, 0x20001047), (0x80004004, 0)]).setX 5 0x00401000).setX 6
      0x2B))
    (fun t => t.trap == some ⟨.pageFault .store, 0x00401004, 0x00400000⟩ &&
      readWord t.ms.mem 0x80004004 == some 0) = true := by decide

/-- H13: the addend's register is the destination. -/
theorem test_amoadd : nextAnd
    (step (((supervisorState .fault 0x0062A32F [(0x8000201C, 0x200023EF), (0x80008000, 0xFFFFFFFE)]).setX 5
      0x00407000).setX 6 3))
    (fun t => readWord t.ms.mem 0x80008000 == some 1 && t.x 6 == 0xFFFFFFFE) = true := by decide

/-- H12: misalignment is found before the page fault. -/
theorem test_amoadd_misaligned : nextAnd (step ((supervisorState .fault 0x0062A52F []).setX 5 0x00405002))
    (fun t => t.trap == some ⟨.storeAddressMisaligned, 0x00405002, 0x00400000⟩) = true := by decide

/-- H21: `sstatus` writes SUM and MXR only. -/
theorem test_csrrw_sstatus : nextAnd (step ((supervisorState .fault 0x10029373 []).setX 5 0xFFFFFFFF))
    (fun t => t.x 6 == 0 && t.mstatus.toWord == 0x000C0000) = true := by decide

/-- H22: with `ASIDLEN = 4` the upper ASID bits read 0. -/
theorem test_csrrw_satp : nextAnd (exec (.csrrw 0 0x180 5)
    { (machineState []).setX 5 0xFFFFFFFF with cfg := { Config.platform with asidLen := 4 } })
    (fun t => t.satp == 0x83FFFFFF) = true := by decide

/-- R202's example sets SUM. -/
theorem test_csrrs : nextAnd (step ((supervisorState .fault 0x1003A073 []).setX 7 0x00040000))
    (fun t => t.mstatus.sum && t.mstatus.toWord == 0x00040000) = true := by decide

/-- H18: `mstatus` in S-mode. -/
theorem test_csrrs_illegal : nextAnd (step (supervisorState .fault 0x300022F3 []))
    (fun t => t.trap == some ⟨.illegalInstruction, 0x300022F3, 0x00400000⟩) = true := by decide

/-- R203's example clears SUM. -/
theorem test_csrrc : nextAnd
    (step { (supervisorState .fault 0x1003B073 []).setX 7 0x00040000 with mstatus := { Mstatus.reset with sum := true } })
    (fun t => t.mstatus.toWord == 0) = true := by decide

/-- Six of the entries e1 to e8 of 95_test_vectors.md §7. -/
def fenceCache : List AtcEntry := [
  ⟨0, false, .one, 1, 0, 0x80001004, 0x20000801⟩, ⟨0, false, .zero, 1, 1, 0x80002004, 0x20001047⟩,
  ⟨1, false, .zero, 1, 1, 0x80002004, 0x20001047⟩, ⟨0, true, .zero, 1, 7, 0x8000201C, 0x200023EF⟩,
  ⟨0, false, .one, 3, 0, 0x8000100C, 0x200000C7⟩, ⟨0, false, .zero, 1, 5, 0x80002014, 0xFFFFFFFE⟩]

/-- S4 and S10: what `x5 = 0x00401234` removes for all ASIDs, and what the low 9 bits of `x6` select. -/
theorem test_sfence_removes :
    nextAnd (exec (.sfenceVma 5 0) { (machineState []).setX 5 0x00401234 with ms := ⟨[], fenceCache, [], []⟩ })
      (fun t => t.ms.atc == fenceCache.take 1 ++ fenceCache.drop 3) = true ∧
    nextAnd (exec (.sfenceVma 5 6) { ((machineState []).setX 5 0x00405000).setX 6 0xFFFFFE00 with
        ms := ⟨[], fenceCache, [], []⟩ })
      (fun t => t.ms.atc == fenceCache.take 5) = true := by decide

/-- D8: outside M-mode MPRV does not choose the mode of a load. -/
theorem test_mprv_ignored_outside_machine_mode :
    effPriv { machineState [] with priv := .user, mstatus := { Mstatus.reset with mprv := true, mpp := .machine } } .load =
      .user ∧
    effPriv { machineState [] with mstatus := { Mstatus.reset with mprv := true, mpp := .supervisor } } .store =
      .supervisor := by decide

/-- H16: SFENCE.VMA in S-mode with TVM set. -/
theorem test_sfence_illegal : nextAnd
    (step { supervisorState .fault 0x12628073 [] with mstatus := { Mstatus.reset with tvm := true } })
    (fun t => t.trap == some ⟨.illegalInstruction, 0x12628073, 0x00400000⟩) = true := by decide

/-! ## Translation -/

/-- V20 against V21: MXR does not override the U and SUM check. -/
theorem test_mxr_keeps_sum_check :
    raisedAnd (translate (mmuT1 .fault false true) .load 0x00403000 .supervisor ⟨tables, [], [], []⟩)
      (fun x _ => x == ⟨.pageFault .load, 0x00403000⟩) = true ∧
    okAnd (translate (mmuT1 .fault true true) .load 0x00403000 .supervisor ⟨tables, [], [], []⟩)
      (fun pa _ => pa == 0x80006000) = true := by decide

/-- V41: a megapage with a 34-bit result; V43: the word that is a misaligned megapage at level 1 maps a page at level 0. -/
theorem test_megapages :
    okAnd (translate (mmuT1 .fault false false) .load 0x01812344 .supervisor ⟨words [(0x80001018, 0xC00000CF)], [], [], []⟩)
      (fun pa _ => pa == 0x300012344) = true ∧
    okAnd (translate (mmuT1 .fault false false) .load 0x01C02008 .supervisor
      ⟨words [(0x8000101C, 0x20000401), (0x80001008, 0x200004CF)], [], [], []⟩) (fun pa _ => pa == 0x80001008) = true := by
  decide

/-- B4: in M-mode MPRV makes a load use the mode in MPP. -/
theorem test_mprv_load : nextAnd (exec (.lw 6 5 0) { (machineState []).setX 5 0x00401ABC with
      satp := 0x80080001, mstatus := { Mstatus.reset with mprv := true, mpp := .supervisor }
      ms := ⟨words [(0x80001004, 0x20000801), (0x80002004, 0x20001047), (0x80004ABC, 7)], [], [], []⟩ })
    (fun t => t.x 6 == 7) = true := by decide

/-- The cached entry of T1, T2 and T3 of 95_test_vectors.md §6, with the value given. -/
def stale (pte : Word) : AtcEntry := ⟨0, false, .zero, 1, 1, 0x80002004, pte⟩

/-- Memory of T1 to T3: `l0[1] = NEW`. -/
def rewritten : Memory := words [(0x80001004, 0x20000801), (0x80002004, 0x20002C47)]

/-- A tape that chooses the first entry that hits, at two accesses. -/
def useFirst : List Draw := [⟨[], ⟨some 0, none, false, false, 0⟩⟩, ⟨[], ⟨some 0, none, false, false, 0⟩⟩]

/-- T1: the entry answers, or memory does. -/
theorem test_stale_entry_may_answer :
    okAnd (translate (mmuT1 .update false false) .load 0x00401ABC .supervisor ⟨rewritten, [stale 0x20001047], [], useFirst⟩)
      (fun pa _ => pa == 0x80004ABC) = true ∧
    okAnd (translate (mmuT1 .update false false) .load 0x00401ABC .supervisor ⟨rewritten, [stale 0x20001047], [], []⟩)
      (fun pa _ => pa == 0x8000BABC) = true := by decide

/-- T2: a stale entry with D clear fails the comparison of step 7, and the re-read is of memory. -/
theorem test_stale_entry_retries :
    okAnd (translate (mmuT1 .update false false) .store 0x00401ABC .supervisor ⟨rewritten, [stale 0x20001047], [], useFirst⟩)
      (fun pa m => pa == 0x8000BABC && readWord m.mem 0x80002004 == some 0x20002CC7) = true := by decide

/-- `SinceFence`, as R57's note allows it: after a store over `l0[1]` its old value may answer until the fence, and the
re-read after a failed comparison sees the new one. -/
theorem test_superseded_value_may_answer :
    (let e : Mmu := { mmuT1 .update false false with
        cfg := { Config.platform with adScheme := .update, implicitReads := .sinceFence } }
     let m : MemSys := ⟨rewritten, [], [⟨0x80002004, some 0x20001047⟩],
        [Draw.quiet, ⟨[], ⟨none, some 0, false, false, 0⟩⟩]⟩
     okAnd (translate e .load 0x00401ABC .supervisor m) (fun pa _ => pa == 0x80004ABC) &&
       okAnd (translate e .store 0x00401ABC .supervisor m) (fun pa _ => pa == 0x8000BABC) &&
       okAnd (translate (mmuT1 .update false false) .load 0x00401ABC .supervisor m) (fun pa _ => pa == 0x8000BABC) &&
       okAnd (translate e .load 0x00401ABC .supervisor (fenceStores m)) (fun pa _ => pa == 0x8000BABC)) = true := by
  decide

/-- F10: the A and D update stays when the final check fails. -/
theorem test_update_stays_on_final_fault :
    raisedAnd (resolve { mmuT1 .update false false with cfg := pc3 } .store 0x0040A000 .supervisor ⟨tables, [], [], []⟩)
      (fun x m => x == ⟨.accessFault .store, 0x0040A000⟩ && readWord m.mem 0x80002028 == some 0x200028C7) = true := by
  decide

/-! ## Witnesses: concrete states and operands that meet the hypotheses of the statements, one for each clause -/

/-- M-mode about to run `lui x5, 0x401`. -/
def runLui : State := machineState [(0, 0x004012B7)]

/-- H23: S-mode at a page without X. -/
def noExecute : State := { supervisorState .fault 0 [(0x80002004, 0x20001047)] with pc := 0x00401000 }

/-- F4 as a step: the root table lies outside the memory of PC1. -/
def noRoot : State := { supervisorState .fault 0 [] with satp := 0x80090000, cfg := pc1 .fault }

theorem witness_DecodeFollowsOpcodeTable :
    (∃ row ∈ opcodeRows, 0x004012B7#32 &&& row.mask = row.pattern) ∧
    (∀ row ∈ opcodeRows, 0x00000073#32 &&& row.mask ≠ row.pattern) := by decide

/-- The largest backward and forward offsets of 95_test_vectors.md §8. -/
theorem witness_DecodeOfEncodeIsInstruction :
    (Instr.bne 5 6 0x1000).wf = true ∧ (Instr.bne 5 6 4092).wf = true ∧ (Instr.sfenceVma 31 31).wf = true := by decide

theorem witness_EncodeOfDecodeIsWord : decodeWord 0xFE829AE3 = .ok (.bne 5 8 0x1FF4) := by decide

theorem witness_StepRunsDecodedInstruction : ∃ w m, fetch runLui = .ok w m ∧ runLui.trap = none ∧
    runLui.pc.toNat % 4 = 0 ∧ decodeWord w = .ok (.lui 5 0x401) := by
  obtain ⟨w, m, h, hp⟩ := exists_ok (r := fetch runLui) (p := fun w _ => decide (w = 0x004012B7)) (by decide)
  obtain rfl : w = 0x004012B7 := of_decide_eq_true hp
  exact ⟨_, m, h, rfl, by decide, by decide⟩

/-- In M-mode, and in U-mode under Bare at the last word of the address space. -/
theorem witness_UntranslatedStepRunsWordAtPc :
    (runLui.trap = none ∧ runLui.pc.toNat % 4 = 0 ∧ runLui.priv = .machine ∧ runLui.ms.draws = [] ∧
      physCheck runLui.cfg (runLui.pc.setWidth 34) .exec runLui.priv = true ∧
      readWord runLui.ms.mem (runLui.pc.setWidth 34) = some 0x004012B7) ∧
    let s : State := { machineState [(0xFFFFFFFC, 0x004012B7)] with priv := .user, pc := 0xFFFFFFFC }
    s.trap = none ∧ s.pc.toNat % 4 = 0 ∧ satpMode s.satp = .bare ∧ s.ms.draws = [] ∧
      physCheck s.cfg (s.pc.setWidth 34) .exec s.priv = true ∧
      readWord s.ms.mem (s.pc.setWidth 34) = some 0x004012B7 := by decide

/-- `ecall`, a word of 95_test_vectors.md §8's list of refused words. -/
theorem witness_WordOutsideSubsetIsRefused :
    let s := machineState [(0, 0x00000073)]
    s.trap = none ∧ s.pc.toNat % 4 = 0 ∧ okAnd (fetch s) (fun w _ => w == 0x00000073) = true ∧
      ∀ row ∈ opcodeRows, 0x00000073#32 &&& row.mask ≠ row.pattern := by decide

/-- A page fault and an access fault of a fetch. -/
theorem witness_FetchFaultTraps :
    (noExecute.trap = none ∧ noExecute.pc.toNat % 4 = 0 ∧
      raisedAnd (fetch noExecute) (fun x _ => x.kind == .pageFault .fetch) = true) ∧
    (noRoot.trap = none ∧ noRoot.pc.toNat % 4 = 0 ∧
      raisedAnd (fetch noRoot) (fun x _ => x.kind == .accessFault .fetch) = true) := by decide

theorem witness_TrapLeavesStateAsBefore : noExecute.trap = none ∧ Undisturbed noExecute.ms ∧
    nextAnd (step noExecute) (fun t => t.trap == some ⟨.pageFault .fetch, 0x00401000, 0x00401000⟩) = true :=
  ⟨rfl, by simp [Undisturbed, noExecute, supervisorState], by decide⟩

/-- Not taken, taken and taken to a misaligned target. -/
theorem witness_BneBranchesOnDifference :
    (machineState []).x 5 = (machineState []).x 6 ∧
    (let s := (machineState []).setX 5 1
     s.x 5 ≠ s.x 6 ∧ (s.pc + (8#13).signExtend 32).toNat % 4 = 0 ∧ (s.pc + (6#13).signExtend 32).toNat % 4 ≠ 0) := by
  decide

/-- S-mode with `x5` at an address of image T1, data pages included. -/
def dataState (addr : Word) (cfg : Config) : State :=
  { (machineState []).setX 5 addr with
    cfg := cfg, priv := .supervisor, satp := 0x80080001
    ms := ⟨words [(0x80001004, 0x20000801), (0x80002004, 0x20001047), (0x80002028, 0x20002807), (0x80004000, 7)], [], [], []⟩ }

/-- LW's four clauses: a misaligned address; V31's page under `Fault`, which raises; a page whose final check fails; a
page that is read. -/
theorem witness_LwLoadsTranslatedWord :
    (let s := dataState 0x00401002 (pc1 .fault)
     (s.x 5 + (0#12).signExtend 32).toNat % 4 ≠ 0) ∧
    (let s := dataState 0x0040A000 (pc1 .fault)
     (s.x 5 + (0#12).signExtend 32).toNat % 4 = 0 ∧
       raisedAnd (translate s.mmu .load 0x0040A000 .supervisor s.ms) (fun x _ => x.kind == .pageFault .load) = true) ∧
    (let s := dataState 0x00401000 { pc1 .fault with regions := [⟨0x80001000, 0x2000, Region.allGrants⟩] }
     (s.x 5 + (0#12).signExtend 32).toNat % 4 = 0 ∧
       okAnd (translate s.mmu .load 0x00401000 .supervisor s.ms)
         (fun pa _ => !physCheck s.cfg pa .read .supervisor) = true) ∧
    (let s := dataState 0x00401000 (pc1 .fault)
     (s.x 5 + (0#12).signExtend 32).toNat % 4 = 0 ∧
       okAnd (translate s.mmu .load 0x00401000 .supervisor s.ms) (fun pa m =>
         physCheck s.cfg pa .read .supervisor && readWord (atAccess s.mmu m).2.mem pa == some 7) = true) := by decide

theorem witness_SwStoresAtTranslatedAddress :
    (let s := dataState 0x00401002 (pc1 .update)
     (s.x 5 + (0#12).signExtend 32).toNat % 4 ≠ 0) ∧
    (let s := dataState 0x00401000 (pc1 .fault)
     (s.x 5 + (0#12).signExtend 32).toNat % 4 = 0 ∧
       raisedAnd (translate s.mmu .store 0x00401000 .supervisor s.ms) (fun x _ => x.kind == .pageFault .store) = true) ∧
    (let s := dataState 0x0040A000 pc3
     (s.x 5 + (0#12).signExtend 32).toNat % 4 = 0 ∧
       okAnd (translate s.mmu .store 0x0040A000 .supervisor s.ms)
         (fun pa _ => !physCheck s.cfg pa .write .supervisor) = true) ∧
    (let s := dataState 0x00401000 (pc1 .update)
     (s.x 5 + (0#12).signExtend 32).toNat % 4 = 0 ∧
       okAnd (translate s.mmu .store 0x00401000 .supervisor s.ms)
         (fun pa _ => physCheck s.cfg pa .write .supervisor) = true) := by decide

/-- Its clauses are SW's with `x5` itself as the address; the last one also reads the word. -/
theorem witness_AmoaddAddsInMemory :
    ((dataState 0x00401002 (pc1 .update)).x 5).toNat % 4 ≠ 0 ∧
    (let s := dataState 0x00401000 (pc1 .fault)
     (s.x 5).toNat % 4 = 0 ∧
       raisedAnd (translate s.mmu .store 0x00401000 .supervisor s.ms) (fun x _ => x.kind == .pageFault .store) = true) ∧
    (let s := dataState 0x0040A000 pc3
     (s.x 5).toNat % 4 = 0 ∧ okAnd (translate s.mmu .store 0x0040A000 .supervisor s.ms)
         (fun pa _ => !physCheck s.cfg pa .write .supervisor) = true) ∧
    (let s := dataState 0x00401000 (pc1 .update)
     (s.x 5).toNat % 4 = 0 ∧ okAnd (translate s.mmu .store 0x00401000 .supervisor s.ms) (fun pa m =>
         physCheck s.cfg pa .write .supervisor && readWord (atAccess s.mmu m).2.mem pa == some 7) = true) := by decide

/-- The step-2 read of a walk with nothing drawn. -/
def quietRead (e : Mmu) (acc : AccessType) (va : Word) (i : Level) (a : PhysAddr) (mem : Memory) : MRes PteRead :=
  let m : MemSys := ⟨mem, [], [], []⟩
  step2Read e false (accessPoint landNothing m).1 acc va i a false false (accessPoint landNothing m).2

/-- An AMO that traps; and E4's unreadable leaf (V19). -/
theorem witness_AmoRaisesStoreKindsOnly :
    (dataState 0x00401000 (pc1 .fault)).trap = none ∧
    nextAnd (exec (.amoaddW 10 6 5 false false) (dataState 0x00401000 (pc1 .fault))) (fun t => t.trap.isSome) = true ∧
    (okAnd (quietRead (mmuT1 .fault false true) .store 0x00403000 .zero 0x80002000 tables)
      (fun r _ => r.pte == 0x20001859) = true ∧ pteClass 0x20001859 = .leaf ∧
      pteR 0x20001859 = false) := by decide

/-- A store that completes and sets D. -/
theorem witness_StoreFrame : Undisturbed (dataState 0x00401000 (pc1 .update)).ms ∧
    nextAnd (exec (.sw 6 5 0) (dataState 0x00401000 (pc1 .update))) (fun t => t.trap == none) = true :=
  ⟨by simp [Undisturbed, dataState], by decide⟩

/-- A load that sets A (V31's page), with a speculative walk landing before its fetch. -/
def loadWithSpeculation : State :=
  let s := (supervisorState .update 0x0002A303
    [(0x80002028, 0x20002807), (0x80002010, 0x20001C03), (0x8000A000, 5)]).setX 5 0x0040A000
  { s with ms := { s.ms with draws :=
      [⟨[.specWalk 0x00404FFC .load .supervisor (List.replicate 3 ⟨none, none, true, true, 0⟩)], Choice.quiet⟩] } }

theorem witness_OnlyStoresWriteMemoryOrSetD : loadWithSpeculation.trap = none ∧ NoForeignStores loadWithSpeculation.ms ∧
    okAnd (fetch loadWithSpeculation) (fun w _ => decide (decodeWord w = .ok (.lw 6 5 0))) = true ∧
    nextAnd (step loadWithSpeculation) (fun t => t.x 6 == 5 && readWord t.ms.mem 0x80002028 == some 0x20002847 &&
      readWord t.ms.mem 0x80002010 == some 0x20001C43) = true := by
  refine ⟨rfl, ?_, by decide, by decide⟩
  intro d hd ev hev pa b
  simp only [loadWithSpeculation, List.mem_singleton] at hd
  subst hd
  simp only [List.mem_singleton] at hev
  subst hev
  simp

/-- Each register in the lowest mode that reaches it; `mstatus` in M-mode only. -/
theorem witness_CsrrwSwaps :
    (let s : State := { machineState [] with priv := .supervisor }
     csrAccess s 0x100 = some .sstatus ∧ csrAccess s 0x180 = some .satp) ∧
    csrAccess (machineState []) 0x300 = some .mstatus := by decide

theorem witness_CsrrsSetsBits :
    csrAccess (machineState []) 0x300 = some .mstatus ∧ (0#5 = 0#5) ∧ (5#5 ≠ 0#5) := by decide

theorem witness_CsrrcClearsBits :
    csrAccess { machineState [] with priv := .supervisor } 0x180 = some .satp ∧ (0#5 = 0#5) ∧ (5#5 ≠ 0#5) := by decide

/-- R204's three grounds: an unknown number (H20), too low a mode (H18, H19), `satp` in S-mode with TVM set (H17); and
a lawful access. -/
theorem witness_CsrAccessCheck :
    csrIllegal { machineState [] with priv := .supervisor } 0xC00 ∧
    csrIllegal { machineState [] with priv := .supervisor } 0x300 ∧ csrIllegal { machineState [] with priv := .user } 0x100 ∧
    csrIllegal { machineState [] with priv := .supervisor, mstatus := { Mstatus.reset with tvm := true } } 0x180 ∧
    ¬ csrIllegal { machineState [] with priv := .supervisor } 0x180 ∧ ¬ csrIllegal (machineState []) 0x300 := by
  unfold csrIllegal
  decide

theorem witness_CsrImplementedBits : (machineState []).cfg.sv32Supported = true ∧
    (let s : State := { machineState [] with cfg := { Config.platform with sv32Supported := false } }
     s.cfg.sv32Supported = false) ∧ (0x80000000#32).getLsbD 31 = true ∧ (0x7FFFFFFF#32).getLsbD 31 = false ∧
    (0x00001000#32).extractLsb' 11 2 = 2#2 := by decide

/-- M-mode, and S-mode with TVM clear, with entries of 95_test_vectors.md §7 in the cache. -/
theorem witness_SfenceRemovesCoveredEntries :
    (let s : State := { machineState [] with ms := ⟨[], fenceCache, [], []⟩ }
     s.priv = .machine) ∧
    (let s : State := { machineState [] with priv := .supervisor, ms := ⟨[], fenceCache, [], []⟩ }
     s.priv = .supervisor ∧ s.mstatus.tvm = false) := by decide

/-- The four cases of R175. -/
theorem witness_SfencePrivilege :
    ({ machineState [] with priv := .user } : State).priv = .user ∧
    (let s : State := { machineState [] with priv := .supervisor, mstatus := { Mstatus.reset with tvm := true } }
     s.priv = .supervisor ∧ s.mstatus.tvm = true) ∧
    (machineState []).priv = .machine ∧
    (let s : State := { machineState [] with priv := .supervisor }
     s.priv = .supervisor ∧ s.mstatus.tvm = false) := by decide

theorem witness_FencedTranslationUsesMemory : ∃ t : State,
    exec (.sfenceVma 0 0) { machineState [] with ms := ⟨rewritten, [stale 0x20001047], [], []⟩ } = .next t ∧
      Undisturbed t.ms := by
  obtain ⟨t, h, hp⟩ := exists_next
    (o := exec (.sfenceVma 0 0) { machineState [] with ms := ⟨rewritten, [stale 0x20001047], [], []⟩ })
    (p := fun t => decide (t.ms.draws = [])) (by decide)
  exact ⟨t, h, by simp [Undisturbed, of_decide_eq_true hp]⟩

/-- B1 and B3. -/
theorem witness_NoTranslationInBareOrMachine :
    satpMode 0x00080001 = .bare ∧ (satpMode 0x80080001 = .sv32 ∧ (machineState []).priv = .machine) := by decide

/-- A cache, and a tape that fills it, but never uses it. -/
theorem witness_CacheFreeTranslateIsClosedForm :
    CacheFree ⟨tables, [stale 0x20001047], [], [⟨[], ⟨none, none, true, false, 0⟩⟩]⟩ := by
  simp [CacheFree, Undisturbed]

/-- T9: an entry equal to memory's word, which an update under way will make differ from it by A. -/
def currentEntry : AtcEntry := ⟨0, false, .zero, 1, 10, 0x80002028, 0x20002807⟩

/-- Memory after that update, and the entry that still has A clear. -/
theorem witness_CoherentCacheIsInvisible :
    Undisturbed ⟨tables, [currentEntry], [], useFirst⟩ ∧ Coherent (mmuT1 .update false false) ⟨tables, [currentEntry], [], useFirst⟩ ∧
    Coherent (mmuT1 .update false false)
      ⟨words [(0x80001004, 0x20000801), (0x80002028, 0x20002847)], [currentEntry], [], useFirst⟩ := by
  refine ⟨by simp [Undisturbed, useFirst], ⟨?_, nofun⟩, ⟨?_, nofun⟩⟩ <;>
  · intro t ht _
    simp only [List.mem_singleton] at ht
    subst ht
    refine ⟨⟨0x20000801, by decide, by decide, by decide⟩, by decide, ?_⟩
    first
      | exact ⟨0x20002807, by decide, .inl rfl⟩
      | exact ⟨0x20002847, by decide, .inr ⟨rfl, by decide, .inl (by decide), by decide⟩⟩

/-- R179 with R162: the entry of a written PTE has the tag of a re-read of memory, not the tag of the entry that answered. -/
theorem test_written_entry_tag :
    okAnd (translate (mmuT1 .update false false) .load 0x0040A000 .supervisor
      ⟨tables, [{ currentEntry with global := true }], [],
        [Draw.quiet, ⟨[], ⟨some 0, none, false, false, 0⟩⟩, ⟨[], ⟨none, none, true, false, 0⟩⟩]⟩)
      (fun _ m => m.atc == [{ currentEntry with pte := 0x20002847 }, { currentEntry with global := true }]) = true := by
  decide

/-- The same cache, with a translation that succeeds (T9) and one that raises. -/
theorem witness_TranslateKeepsCoherence :
    okAnd (translate (mmuT1 .update false false) .load 0x0040A000 .supervisor ⟨tables, [currentEntry], [], useFirst⟩)
      (fun _ m => m.atc == [currentEntry]) = true ∧
    raisedAnd (translate (mmuT1 .update false false) .fetch 0x0040A000 .supervisor ⟨tables, [currentEntry], [], useFirst⟩)
      (fun _ _ => true) = true := by decide

/-- V2, where D must be set; T1's stale entry; and the read of a leaf that does not permit the access (V2's page, a
fetch). -/
theorem witness_TranslateOkThroughPermittedLeaf :
    satpMode (mmuT1 .update false false).satp = .sv32 ∧ (Priv.supervisor ≠ .machine) ∧
    okAnd (translate (mmuT1 .update false false) .store 0x00401ABC .supervisor ⟨tables, [], [], []⟩)
      (fun pa _ => pa == 0x80004ABC) = true ∧
    okAnd (translate (mmuT1 .fault false false) .load 0x00401ABC .supervisor ⟨rewritten, [stale 0x20001047], [], useFirst⟩)
      (fun pa _ => pa == 0x80004ABC) = true ∧
    Undisturbed ⟨tables, [], [], []⟩ ∧ Undisturbed ⟨rewritten, [stale 0x20001047], [], useFirst⟩ ∧
    okAnd (quietRead (mmuT1 .fault false false) .fetch 0x00401ABC .zero 0x80002000 tables)
      (fun r _ => r.pte == 0x20001047) = true ∧ pteClass 0x20001047 = .leaf ∧
    permitted 0x20001047 .fetch .supervisor false false = false := by
  refine ⟨by decide, by decide, by decide, by decide, by simp [Undisturbed], by simp [Undisturbed, useFirst], by decide,
    by decide, by decide⟩

/-- V3 and F2. -/
theorem witness_AccessRaisesOwnKind :
    raisedAnd (resolve (mmuT1 .fault false false) .fetch 0x00401ABC .supervisor ⟨tables, [], [], []⟩)
      (fun x _ => x.kind == .pageFault .fetch) = true ∧
    raisedAnd (resolve { mmuT1 .fault false false with cfg := pc1 .fault } .load 0x01812344 .supervisor
      ⟨words [(0x80001018, 0xC00000CF)], [], [], []⟩) (fun x _ => x.kind == .accessFault .load) = true := by decide

/-- V26, which raises; V2, which sets D; V1, which needs no update; Bare; all with the quiet tape. -/
theorem witness_TranslateMemoryFrame :
    raisedAnd (translate (mmuT1 .update false false) .load 0x00405000 .supervisor ⟨tables, [], [], []⟩)
      (fun _ m => m.mem == tables) = true ∧
    okAnd (translate (mmuT1 .update false false) .store 0x00401ABC .supervisor ⟨tables, [], [], []⟩)
      (fun _ m => readByte m.mem 0x80002004 == some 0xC7 && readByte tables 0x80002004 == some 0x47) = true ∧
    okAnd (translate (mmuT1 .update false false) .load 0x00401ABC .supervisor ⟨tables, [], [], []⟩)
      (fun _ m => m.mem == tables) = true ∧
    okAnd (translate { mmuT1 .update false false with satp := 0x00080001 } .load 0x00401ABC .supervisor
      ⟨tables, [], [], []⟩) (fun pa m => pa == 0x00401ABC && m.mem == tables) = true ∧
    satpMode 0x00080001 = .bare ∧ Undisturbed ⟨tables, [], [], []⟩ := by
  refine ⟨by decide, by decide, by decide, by decide, by decide, by simp [Undisturbed]⟩

/-- A tape with a speculative walk on it, under the faulting scheme; V31, which raises, and V1, which succeeds. -/
theorem witness_FaultSchemeNeverWritesMemory :
    let ds : List Draw := [⟨[.specWalk 0x0040A000 .load .supervisor [⟨none, none, true, true, 0⟩]], Choice.quiet⟩]
    (mmuT1 .fault false false).cfg.adScheme = .fault ∧
    raisedAnd (translate (mmuT1 .fault false false) .load 0x0040A000 .supervisor ⟨tables, [], [], ds⟩) (fun _ _ => true) = true ∧
    okAnd (translate (mmuT1 .fault false false) .load 0x00401ABC .supervisor ⟨tables, [], [], ds⟩) (fun _ _ => true) = true ∧
    NoForeignStores ⟨tables, [], [], ds⟩ := by
  refine ⟨rfl, by decide, by decide, ?_⟩
  intro d hd ev hev pa b
  simp only [List.mem_singleton] at hd
  subst hd
  simp only [List.mem_singleton] at hev
  subst hev
  simp

/-- The read of a root word with this value, for va 0x01000000 to 0x013FFFFF. -/
def rootRead (pte : Word) : MRes PteRead :=
  quietRead (mmuT1 .fault false false) .load 0x01000000 .one (tableBase 0x80001) (words [(0x80001010, pte)])

/-- V8's, V39's and V40's words: not valid, W without R, a pointer with A set; and `root[1]`, `l0[1]`, which pass. -/
theorem witness_ReservedPtesPageFault :
    [0x00000000#32, 0x200000C5#32, 0x20000841#32].all (fun w => okAnd (rootRead w) (fun r _ => r.pte == w)) = true ∧
    refusedByStep3 (mmuT1 .fault false false) 0x00000000 ∧ refusedByStep3 (mmuT1 .fault false false) 0x200000C5 ∧
    refusedByStep3 (mmuT1 .fault false false) 0x20000841 ∧ ¬ refusedByStep3 (mmuT1 .fault false false) 0x20000801 ∧
    ¬ refusedByStep3 (mmuT1 .fault false false) 0x20001047 ∧
    permitted 0x20001047 .load .supervisor false false = true := by
  unfold refusedByStep3
  decide

/-- V34's word at level 1; the same leaf at level 0 is permitted. -/
theorem witness_MisalignedMegapagePageFaults :
    okAnd (rootRead 0x200004CF) (fun r _ => r.pte == 0x200004CF) = true ∧ pteClass 0x200004CF = .leaf ∧
    (0x200004CF#32).extractLsb' 10 10 ≠ 0#10 ∧ permitted 0x200004CF .load .supervisor false false = true := by decide

/-- V10, V14, and walks that read the PTEs of V7 (U clear) and V22 (U set, a fetch). -/
theorem witness_UserBitGuardsPages :
    okAnd (translate (mmuT1 .fault false false) .load 0x00402004 .user ⟨tables, [], [], []⟩) (fun _ _ => true) = true ∧
    okAnd (translate (mmuT1 .fault true false) .load 0x00402004 .supervisor ⟨tables, [], [], []⟩) (fun _ _ => true) = true ∧
    (okAnd (rootRead 0x20000C4B) (fun r _ => r.pte == 0x20000C4B) = true ∧ pteClass 0x20000C4B = .leaf ∧
      pteU 0x20000C4B = false) ∧
    (okAnd (rootRead 0x2000245B) (fun r _ => r.pte == 0x2000245B) = true ∧ pteClass 0x2000245B = .leaf ∧
      pteU 0x2000245B = true) ∧ Undisturbed ⟨tables, [], [], []⟩ := by
  refine ⟨by decide, by decide, by decide, by decide, by simp [Undisturbed]⟩

/-- `l0[7]` with RSW = 3 and with RSW = 0. -/
theorem witness_RswIsIgnoredAndKept :
    0x200023EF#32 &&& 0xFFFFFCFF#32 = 0x200020EF#32 &&& 0xFFFFFCFF#32 ∧ 0x200023EF#32 ≠ 0x200020EF#32 := by decide

/-- F10 and F1. -/
theorem witness_FailedFinalCheckIsAccessFault :
    okAnd (translate { mmuT1 .update false false with cfg := pc3 } .store 0x0040A000 .supervisor ⟨tables, [], [], []⟩)
      (fun pa _ => !physCheck pc3 pa .write .supervisor) = true ∧
    okAnd (translate { mmuT1 .update false false with cfg := pc1 .update } .load 0x00409ABC .supervisor
      ⟨words [(0x80001004, 0x20000801), (0x80002024, 0xFFFFFCCF)], [], [], []⟩)
      (fun pa _ => !physCheck (pc1 .update) pa .read .supervisor) = true := by decide

/-- `PALEN = 32` and V41's page at 0x3_00000000; a root table at 0x3_FFFFF000 (F5); the first address above `PALEN`. -/
theorem witness_AddressAbovePalenIsRefused :
    (2 ^ 32 ≤ (0x100000000#34).toNat) ∧
    okAnd (translate { mmuT1 .fault false false with cfg := { Config.platform with adScheme := .fault, palen := 32 } } .load
      0x01812344 .supervisor ⟨words [(0x80001018, 0xC00000CF)], [], [], []⟩)
      (fun pa _ => decide (2 ^ 32 ≤ pa.toNat)) = true ∧
    2 ^ 32 ≤ (pteAddress (tableBase 0x3FFFFF) .one 0x00401ABC).toNat ∧
    chooseHit [stale 0x20001047] .one 0x00401ABC 0 (some 0) = none ∧ chooseHit [] .one 0x00401ABC 0 none = none := by
  decide

/-- T4's entry, of another ASID. -/
theorem witness_ForeignAsidEntriesNeverAnswer :
    Undisturbed ⟨rewritten, [{ stale 0x20001047 with asid := 1 }], [], useFirst⟩ := by simp [Undisturbed, useFirst]

/-- T7's machine: `root[1]` has become a megapage, and the old pointer and the old leaf are cached. -/
def upgraded (draws : List Draw) : MemSys :=
  ⟨words [(0x80001004, 0x202000CF)], [⟨0, false, .one, 1, 0, 0x80001004, 0x20000801⟩, stale 0x20001047], [], draws⟩

/-- T7: both cached levels may answer, or memory's new leaf. -/
theorem test_cached_pointer_may_answer :
    okAnd (translate (mmuT1 .fault false false) .load 0x00401ABC .supervisor (upgraded useFirst))
      (fun pa _ => pa == 0x80004ABC) = true ∧
    okAnd (translate (mmuT1 .fault false false) .load 0x00401ABC .supervisor (upgraded []))
      (fun pa _ => pa == 0x80801ABC) = true := by decide

/-- T7: a pointer entry and a level-0 leaf entry hit, and a walk may read the leaf below the pointer; the new leaf may be
read from memory. -/
theorem witness_EveryHitMayAnswer :
    let e := mmuT1 .fault false false
    satpMode e.satp = .sv32 ∧ hit (stale 0x20001047) .zero 0x00401ABC (satpAsid e.satp) = true ∧
    hit ⟨0, false, .one, 1, 0, 0x80001004, 0x20000801⟩ .one 0x00401ABC (satpAsid e.satp) = true ∧
    mayRead e false (upgraded []) 0x00401ABC .zero ⟨0x80002004, 0x20001047, false⟩ ∧
    passingLeaf e .load .supervisor .zero 0x20001047 ∧ needsUpdate 0x20001047 .load = false ∧
    mayRead e false (upgraded []) 0x00401ABC .one ⟨0x80001004, 0x202000CF, false⟩ ∧
    passingLeaf e .load .supervisor .one 0x202000CF ∧ needsUpdate 0x202000CF .load = false := by
  refine ⟨by decide, by decide, by decide, ?_, by unfold passingLeaf; decide, by decide, ?_,
    by unfold passingLeaf; decide, by decide⟩
  · exact ⟨_, _, ⟨⟨0x80001004, 0x20000801, false⟩, .inl ⟨_, .head _, by decide, rfl⟩, by decide,
      by unfold refusedByStep3; decide, rfl, rfl⟩, .inl ⟨_, .tail _ (.head _), by decide, rfl⟩⟩
  · exact ⟨_, _, ⟨rfl, rfl⟩, .inr ⟨by decide, by decide, by decide, .inl (.inl (by decide))⟩⟩

/-- T2's walk adds the value it wrote; a walk that faults has added what it read; a read memory may answer; a leaf the
comparison of step 7 finds in memory. -/
theorem witness_NewEntriesAreReadsWithTheirTag :
    let e := mmuT1 .update false false
    let fill : Draw := ⟨[], ⟨none, none, true, false, 0⟩⟩
    okAnd (translate e .store 0x00401ABC .supervisor ⟨tables, [], [], [fill, fill, fill]⟩)
      (fun _ m => m.atc == [stale 0x200010C7, stale 0x20001047, ⟨0, false, .one, 1, 1, 0x80001004, 0x20000801⟩]) = true ∧
    raisedAnd (translate e .load 0x00405000 .supervisor ⟨tables, [], [], [fill, fill]⟩)
      (fun _ m => m.atc == [⟨0, true, .zero, 1, 5, 0x80002014, 0xFFFFFFFE⟩,
        ⟨0, false, .one, 1, 5, 0x80001004, 0x20000801⟩]) = true ∧
    Undisturbed ⟨tables, [], [], [fill, fill, fill]⟩ ∧
    memoryMayAnswer e false ⟨tables, [], [], []⟩ 0x00401ABC .one (tableBase 0x80001) false ⟨0x80001004, 0x20000801, false⟩ ∧
    readWord tables 0x80002004 = some 0x20001047 := by
  refine ⟨by decide, by decide, by simp [Undisturbed], ⟨by decide, by decide, by decide, .inl (.inl (by decide))⟩,
    by decide⟩

/-- The level-0 read of V31's leaf, whose A is clear, below `root[1]`. -/
theorem witness_SpecWalkMayFillAndSetA :
    let e := mmuT1 .update false false
    let m : MemSys := ⟨tables, [], [], []⟩
    satpMode e.satp = .sv32 ∧ e.active = true ∧ mayVisit e true m 0x0040A000 .zero (tableBase 0x80002) false ∧
    memoryMayAnswer e true m 0x0040A000 .zero (tableBase 0x80002) false ⟨0x80002028, 0x20002807, false⟩ ∧
    e.cfg.adScheme = .update ∧ mayRead e true m 0x0040A000 .zero ⟨0x80002028, 0x20002807, false⟩ ∧
    passingLeaf e .load .supervisor .zero 0x20002807 ∧ pteA 0x20002807 = false ∧
    readWord m.mem 0x80002028 = some 0x20002807 ∧ physCheck e.cfg 0x80002028 .write .supervisor = true := by
  have hv : mayVisit (mmuT1 .update false false) true ⟨tables, [], [], []⟩ 0x0040A000 .zero (tableBase 0x80002) false :=
    ⟨⟨0x80001004, 0x20000801, false⟩, .inr ⟨by decide, by decide, by decide, .inl (.inl (by decide))⟩, by decide,
      by unfold refusedByStep3; decide, by decide, rfl⟩
  have hr : memoryMayAnswer (mmuT1 .update false false) true ⟨tables, [], [], []⟩ 0x0040A000 .zero (tableBase 0x80002)
      false ⟨0x80002028, 0x20002807, false⟩ := ⟨by decide, by decide, by decide, .inl (.inl (by decide))⟩
  exact ⟨by decide, rfl, hv, hr, rfl, ⟨_, _, hv, .inr hr⟩, by unfold passingLeaf; decide, by decide, by decide,
    by decide⟩

/-- A machine in M-mode under `SinceFence`, its store and its AMO; and a word stored over that a walk would reach. -/
theorem witness_ImplicitReadVisibility :
    (mmuT1 .update false false).cfg.implicitReads = .programOrder ∧
    (let e : Mmu := { mmuT1 .fault false false with
        cfg := { Config.platform with adScheme := .fault, implicitReads := .sinceFence } }
     let m : MemSys := ⟨[], [], [⟨0x8000100C, some 0x200000C7⟩], []⟩
     e.cfg.implicitReads = .sinceFence ∧ satpMode e.satp = .sv32 ∧
       ⟨pteAddress (tableBase (satpPpn e.satp)) .one 0x00C12344, some 0x200000C7⟩ ∈ m.unfenced ∧
       physCheck e.cfg (pteAddress (tableBase (satpPpn e.satp)) .one 0x00C12344) .read .supervisor = true ∧
       pteClass 0x200000C7 = .leaf ∧ permitted 0x200000C7 .store .supervisor false false = true ∧
       ptePpn0 0x200000C7 = 0#10 ∧ needsUpdate 0x200000C7 .store = false) ∧
    (let s : State := { machineState [(8, 7)] with cfg := { Config.platform with implicitReads := .sinceFence } }
     nextAnd (exec (.sw 6 0 8) s) (fun t => t.trap == none && t.ms.unfenced == [⟨8, some 7⟩]) = true ∧
       nextAnd (exec (.amoaddW 7 6 5 false false) (s.setX 5 8))
         (fun t => t.trap == none && t.ms.unfenced == [⟨8, some 7⟩]) = true) ∧
    nextAnd (exec (.sw 6 0 8) (machineState [(8, 7)])) (fun t => t.trap == none && t.ms.unfenced == []) = true := by
  decide

/-- R63's bound at its ends: a page that starts at page boundaries, and 8 bytes that start at any multiple of 4. -/
theorem witness_ReservationSetLiesInOnePage :
    { Config.platform with reservationSize := 4096, reservationAlign := 8192 }.reservationInPage = true ∧
    { Config.platform with reservationSize := 8, reservationAlign := 4 }.reservationInPage = false ∧
    4 ∣ 4092 ∧ Config.platform.wf = true := by decide

/-- Two exceptions with one code would be one. -/
theorem witness_ExceptionCodes : excCode (.pageFault .store) = excCode (.pageFault .store) := rfl

/-- Bare in S-mode; M-mode with MPRV clear under Sv32; M-mode with MPRV set and MPP = M. -/
theorem witness_SpecWalkNeedsActiveSatp :
    satpMode ({ machineState [] with priv := .supervisor } : State).satp = .bare ∧
    (let s : State := { machineState [] with satp := 0x80080001 }
     s.priv = .machine ∧ s.mstatus.mprv = false) ∧
    (let s : State := { machineState [] with satp := 0x80080001, mstatus := { Mstatus.reset with mprv := true, mpp := .machine } }
     s.priv = .machine ∧ s.mstatus.mpp = .machine) := by decide

/-- A supervisor state that meets the invariant, cache entry included. -/
def invariantState : State := { supervisorState .fault 0x004012B7 [] with
  ms := ⟨codePage 0x004012B7 [], [stale 0x20001047], [], []⟩ }

theorem witness_StepKeepsInvariant :
    invariantState.Inv ∧ nextAnd (step invariantState) (fun t => t.x 5 == 0x00401000) = true := by
  refine ⟨⟨by decide, by decide, by decide, by decide, by decide, ?_, fun _ => rfl, by decide⟩, by decide⟩
  intro t ht
  simp only [invariantState, List.mem_singleton] at ht
  subst ht
  decide

theorem witness_StepKeepsModeAndConfig : nextAnd (step runLui) (fun _ => true) = true := by decide

/-- H15: SFENCE.VMA in U-mode, and U-mode running `lui`. -/
theorem witness_UserModeCannotTouchControl :
    (let s : State := { machineState [(0, 0x12000073)] with priv := .user, ms := ⟨words [(0, 0x12000073)], fenceCache, [], []⟩ }
     s.priv = .user ∧ s.ms.draws = [] ∧ nextAnd (step s) (fun t => t.ms.atc == fenceCache) = true) ∧
    nextAnd (step { runLui with priv := .user }) (fun _ => true) = true := by decide

/-- H17's `csrrw x0, satp, x5` in S-mode with TVM set; H21 with TVM clear. -/
theorem witness_SupervisorControlIsLimited :
    (let s : State := { supervisorState .fault 0x18029073 [] with mstatus := { Mstatus.reset with tvm := true } }
     s.priv = .supervisor ∧ s.mstatus.tvm = true ∧ s.ms.draws = [] ∧
       nextAnd (step s) (fun t => t.trap.isSome && t.satp == 0x80080001) = true) ∧
    (let s := supervisorState .fault 0x10029373 []
     s.priv = .supervisor ∧ nextAnd (step s) (fun _ => true) = true) := by decide

end Sys2Proof.Tests
end

/-! # What an implicit read sees of the hart's own stores -/

namespace Sys2Proof.Machine

/-! ## Accesses while no other agent acts -/

theorem popDraw_events_of_undisturbed {m : MemSys} (h : Undisturbed m) : (popDraw m).1.events = [] := by
  rcases popDraw_draw m with hd | hd
  · exact h _ hd
  · rw [hd]; rfl

theorem mem_draws_of_mem_popDraw {d : Draw} {m : MemSys} (h : d ∈ (popDraw m).2.draws) : d ∈ m.draws :=
  List.mem_of_mem_tail (by rwa [popDraw_draws] at h)

theorem popDraw_undisturbed {m : MemSys} (h : Undisturbed m) : Undisturbed (popDraw m).2 := fun d hd =>
  h d (mem_draws_of_mem_popDraw hd)

@[simp] theorem fillAtc_undisturbed {f : Bool} {t : AtcEntry} {m : MemSys} :
    Undisturbed (fillAtc f t m) ↔ Undisturbed m := by
  simp [Undisturbed]

/-- While no other agent acts an access takes its draw and does nothing else. -/
theorem accessPoint_of_undisturbed (e : Mmu) {m : MemSys} (h : Undisturbed m) :
    accessPoint (applyEvents e) m = ((popDraw m).1.choice, (popDraw m).2) := by
  simp [accessPoint, popDraw_events_of_undisturbed h, applyEvents]

/-! ## Walks that memory answers -/

/-- Memory answers, with its latest value, whatever step-2 read at level `i` the hart's next accesses make: no other agent
acts, the choice names no entry or none hits, and it can name no superseded value. -/
structure MemoryAnswers (e : Mmu) (va : Word) (i : Level) (m : MemSys) : Prop where
  undisturbed : Undisturbed m
  noHit       : ∀ d ∈ m.draws, d.choice.use = none ∨ ∀ t ∈ m.atc, hit t i va (satpAsid e.satp) = false
  latest      : ∀ d ∈ m.draws, e.cfg.implicitReads = .programOrder ∨ m.unfenced = [] ∨ d.choice.older = none

theorem chooseHit_eq_none {atc : List AtcEntry} {i : Level} {va : Word} {asid : Asid} {u : Option Nat}
    (h : u = none ∨ ∀ t ∈ atc, hit t i va asid = false) : chooseHit atc i va asid u = none := by
  cases hc : chooseHit atc i va asid u with
  | none => rfl
  | some t =>
    obtain ⟨hmem, hhit⟩ := chooseHit_some hc
    rcases h with rfl | h
    · simp [chooseHit] at hc
    · simp [h t hmem] at hhit

theorem implicitRead_eq_readWord {vis : Visibility} {c : Choice} {m : MemSys} (fresh : Bool) (addr : PhysAddr)
    (h : vis = .programOrder ∨ m.unfenced = [] ∨ c.older = none) :
    implicitRead vis c fresh addr m = readWord m.mem addr := by
  rcases implicitRead_cases vis c fresh addr m with hr | ⟨rfl, rfl, hmem⟩
  · exact hr
  · rcases h with h | h | h
    · simp at h
    · simp [h] at hmem
    · simp [implicitRead, chooseOlder, h]

/-- The choice of the next access lets memory answer. -/
theorem MemoryAnswers.chooseHit_popDraw {e : Mmu} {va : Word} {i : Level} {m : MemSys} (h : MemoryAnswers e va i m) :
    chooseHit (popDraw m).2.atc i va (satpAsid e.satp) (popDraw m).1.choice.use = none := by
  refine chooseHit_eq_none ?_
  rcases popDraw_draw m with hd | hd
  · simpa using h.noHit _ hd
  · exact .inl (by rw [hd]; rfl)

/-- The choice of the next access shows it the latest value. -/
theorem MemoryAnswers.implicitRead_popDraw {e : Mmu} {va : Word} {i : Level} {m : MemSys} (h : MemoryAnswers e va i m)
    (fresh : Bool) (addr : PhysAddr) :
    implicitRead e.cfg.implicitReads (popDraw m).1.choice fresh addr (popDraw m).2 = readWord m.mem addr := by
  rw [implicitRead_eq_readWord, popDraw_mem]
  rcases popDraw_draw m with hd | hd
  · simpa using h.latest _ hd
  · exact .inr (.inr (by rw [hd]; rfl))

/-- A fill at level 1 puts nothing in the way of the level-0 read. -/
theorem MemoryAnswers.zero_after_fill {e : Mmu} {va : Word} {m : MemSys} (h : MemoryAnswers e va .zero m) (f g : Bool)
    (addr : PhysAddr) (pte : Word) :
    MemoryAnswers e va .zero (fillAtc f (entryOf va (satpAsid e.satp) .one g addr pte) (popDraw m).2) := by
  refine ⟨fillAtc_undisturbed.mpr (popDraw_undisturbed h.undisturbed), fun d hd => ?_, fun d hd => ?_⟩
  · refine (h.noHit d (mem_draws_of_mem_popDraw (by simpa using hd))).imp_right fun hno t ht => ?_
    rcases fillAtc_atc f (entryOf va (satpAsid e.satp) .one g addr pte) (popDraw m).2 with heq | heq
    · exact hno t (by simpa [heq] using ht)
    · rw [heq, popDraw_atc] at ht
      rcases List.mem_cons.mp ht with rfl | ht
      · simp [hit, entryOf]
      · exact hno t ht
  · simpa using h.latest d (mem_draws_of_mem_popDraw (by simpa using hd))

/-- Under `ProgramOrder` memory answers whatever older values are chosen, as long as no entry is. -/
theorem memoryAnswers_of_programOrder {e : Mmu} {m : MemSys} (va : Word) (i : Level)
    (hv : e.cfg.implicitReads = .programOrder) (hu : Undisturbed m) (huse : ∀ d ∈ m.draws, d.choice.use = none) :
    MemoryAnswers e va i m :=
  ⟨hu, fun d hd => .inl (huse d hd), fun _ _ => .inl hv⟩

/-! ## The closed form, pass by pass -/

/-- One pass of the closed form at level `i` in the table at `a`; `down` is what the table below answers. -/
def closedPass (e : Mmu) (acc : AccessType) (va : Word) (priv : Priv) (mem : Memory) (i : Level) (a : PhysAddr)
    (down : PhysAddr → Closed) : Closed :=
  if physCheck e.cfg (pteAddress a i va) .read .supervisor then
    match readWord mem (pteAddress a i va) with
    | none     => .unwritten (pteAddress a i va)
    | some pte =>
      match inspect e acc priv i pte with
      | .pageFault  => .raised (.pageFault acc)
      | .descend a' => down a'
      | .leaf       => closedLeaf e acc (finalPa i pte va) (pteAddress a i va) pte
  else .raised (.accessFault acc)

/-- The pass at level 0, where no pointer is followed. -/
def closedPassZero (e : Mmu) (acc : AccessType) (va : Word) (priv : Priv) (mem : Memory) (a : PhysAddr) : Closed :=
  closedPass e acc va priv mem .zero a fun _ => .raised (.pageFault acc)

/-- The offset in a megapage is the lower page number and the offset in its page (R70). -/
theorem place_megapageOffset (va : Word) :
    place 34 (va.extractLsb' 0 22) 0 = place 34 (vpn0 va) 12 ||| place 34 (pageOffset va) 0 := by
  refine BitVec.eq_of_getLsbD_eq fun k hk => ?_
  simp only [place, vpn0, pageOffset, BitVec.shiftLeft_zero, BitVec.getLsbD_setWidth, BitVec.getLsbD_extractLsb',
    BitVec.getLsbD_or, BitVec.getLsbD_shiftLeft]
  by_cases h : k < 12
  · have : k < 22 := by omega
    simp [h, hk, this]
  · have h1 : k - 12 < 10 ↔ k < 22 := by omega
    have h2 : k - 12 < 34 := by omega
    have h3 : 12 + (k - 12) = k := by omega
    simp [h, hk, h1, h2, h3]

/-- The address of step 8 in a megapage, written with the whole offset (R140). -/
theorem finalPa_one (pte va : Word) :
    finalPa .one pte va = place 34 (pte.extractLsb' 20 12) 22 ||| place 34 (va.extractLsb' 0 22) 0 := by
  rw [place_megapageOffset, ← BitVec.or_assoc]
  rfl

/-- Steps 3 and 4 at level 1 (R135, R136). -/
theorem inspect_one_of_pointer {e : Mmu} {acc : AccessType} {priv : Priv} {pte : Word} (h : pteClass pte = .pointer) :
    inspect e acc priv .one pte =
      if e.cfg.nonleafDauFault && (pteD pte || pteA pte || pteU pte) then .pageFault
      else .descend (tableBase (ptePpn pte)) := by
  simp [inspect, pointerReservedSet, h]

/-- A pointer at level 0 is refused (R136). -/
theorem inspect_zero_of_pointer {e : Mmu} {acc : AccessType} {priv : Priv} {pte : Word} (h : pteClass pte = .pointer) :
    inspect e acc priv .zero pte = .pageFault := by
  simp [inspect, h]

/-- Steps 5 and 6 at level 1 (R137, R138). -/
theorem inspect_one_of_leaf {e : Mmu} {acc : AccessType} {priv : Priv} {pte : Word} (h : pteClass pte = .leaf) :
    inspect e acc priv .one pte =
      if !permitted pte acc priv e.sum e.mxr then .pageFault
      else if ptePpn0 pte ≠ 0#10 then .pageFault else .leaf := by
  simp [inspect, h]

/-- Step 5 at level 0, where step 6 refuses nothing (R137, R138). -/
theorem inspect_zero_of_leaf {e : Mmu} {acc : AccessType} {priv : Priv} {pte : Word} (h : pteClass pte = .leaf) :
    inspect e acc priv .zero pte = if !permitted pte acc priv e.sum e.mxr then .pageFault else .leaf := by
  simp [inspect, h]

/-- What steps 3 to 6 pass, the converse of `inspect_leaf`. -/
theorem inspect_of_passingLeaf {e : Mmu} {acc : AccessType} {priv : Priv} {i : Level} {pte : Word}
    (h : passingLeaf e acc priv i pte) : inspect e acc priv i pte = .leaf := by
  obtain ⟨hclass, hperm, hmega⟩ := h
  cases i with
  | one => simp [inspect_one_of_leaf hclass, hperm, hmega rfl]
  | zero => simp [inspect_zero_of_leaf hclass, hperm]

/-- A PTE that is no pointer and no leaf is refused (R135). -/
theorem inspect_of_invalid {e : Mmu} {acc : AccessType} {priv : Priv} {i : Level} {pte : Word}
    (h : pteClass pte = .invalid ∨ pteClass pte = .reservedRW) : inspect e acc priv i pte = .pageFault := by
  rcases h with h | h <;> simp [inspect, h]

/-- The second half of R146's straight-line text is the pass at level 0. -/
theorem closedPassZero_eq (e : Mmu) (acc : AccessType) (va : Word) (priv : Priv) (mem : Memory) (a : PhysAddr) :
    closedPassZero e acc va priv mem a =
      if !physCheck e.cfg (pteAddress a .zero va) .read .supervisor then .raised (.accessFault acc)
      else match readWord mem (pteAddress a .zero va) with
      | none    => .unwritten (pteAddress a .zero va)
      | some p0 =>
        match pteClass p0 with
        | .invalid | .reservedRW | .pointer => .raised (.pageFault acc)
        | .leaf =>
          if !permitted p0 acc priv e.sum e.mxr then .raised (.pageFault acc)
          else closedLeaf e acc (finalPa .zero p0 va) (pteAddress a .zero va) p0 := by
  unfold closedPassZero closedPass
  cases physCheck e.cfg (pteAddress a .zero va) .read .supervisor with
  | false => rfl
  | true =>
    cases readWord mem (pteAddress a .zero va) with
    | none => rfl
    | some p0 =>
      cases hc : pteClass p0 with
      | invalid => simp [inspect_of_invalid, hc]
      | reservedRW => simp [inspect_of_invalid, hc]
      | pointer => simp [inspect_zero_of_pointer hc, hc]
      | leaf => cases hp : permitted p0 acc priv e.sum e.mxr <;> simp [inspect_zero_of_leaf hc, hp, hc]

/-- R146's straight-line text is two passes of the walk's own shape. -/
theorem closedForm_eq_closedPass {e : Mmu} {acc : AccessType} {va : Word} {priv : Priv} {mem : Memory}
    (ht : ¬ (satpMode e.satp = .bare ∨ priv = .machine)) :
    closedForm e acc va priv mem = closedPass e acc va priv mem .one (tableBase (satpPpn e.satp))
      (closedPassZero e acc va priv mem) := by
  have haddr : place 34 (satpPpn e.satp) 12 + (va.extractLsb' 22 10).setWidth 34 * 4#34 =
    pteAddress (tableBase (satpPpn e.satp)) .one va := rfl
  have hppn (pte : Word) : pte.extractLsb' 10 10 = ptePpn0 pte := rfl
  unfold closedForm closedPass
  rw [if_neg ht]
  simp only [haddr]
  cases physCheck e.cfg (pteAddress (tableBase (satpPpn e.satp)) .one va) .read .supervisor with
  | false => rfl
  | true =>
    cases readWord mem (pteAddress (tableBase (satpPpn e.satp)) .one va) with
    | none => rfl
    | some p1 =>
      cases hc : pteClass p1 with
      | invalid => simp [inspect_of_invalid, hc]
      | reservedRW => simp [inspect_of_invalid, hc]
      | leaf =>
        cases hp : permitted p1 acc priv e.sum e.mxr with
        | false => simp [inspect_one_of_leaf hc, hc, hp]
        | true =>
          by_cases hm : ptePpn0 p1 = 0#10 <;>
            simp [inspect_one_of_leaf hc, hc, hp, hm, hppn, finalPa_one]
      | pointer =>
        cases hd : e.cfg.nonleafDauFault && (pteD p1 || pteA p1 || pteU p1) with
        | true => simp [inspect_one_of_pointer hc, hc, hd]
        | false =>
          simp only [inspect_one_of_pointer hc, hc, hd, Bool.not_true, Bool.false_eq_true, if_true, if_false]
          exact (closedPassZero_eq e acc va priv mem _).symm

/-! ## A walk that memory answers is the closed form -/

/-- Memory after the PTE write of step 7, if there is one. -/
def memoryAfter (mem : Memory) : Option (PhysAddr × Word) → Memory
  | none        => mem
  | some (a, w) => writeWord mem a w

theorem agrees_ok {pa : PhysAddr} {w : Option (PhysAddr × Word)} {va : Word} {mem : Memory} {m : MemSys}
    (h : m.mem = memoryAfter mem w) : Agrees (.ok pa w) va mem (.ok pa m) := by
  cases w with
  | none => exact ⟨m, rfl, h⟩
  | some aw => exact ⟨m, rfl, h⟩

/-- A step-2 read that no entry answers and whose check passes gives the value implicit reads see (R134, R162). -/
theorem step2Read_of_implicitRead {e : Mmu} {spec : Bool} {c : Choice} {acc : AccessType} {va : Word} {i : Level}
    {a : PhysAddr} {gAbove : Bool} {m : MemSys} {pte : Word}
    (hhit : chooseHit m.atc i va (satpAsid e.satp) c.use = none)
    (hcheck : physCheck e.cfg (pteAddress a i va) .read .supervisor = true)
    (hread : implicitRead e.cfg.implicitReads c false (pteAddress a i va) m = some pte) :
    step2Read e spec c acc va i a gAbove false m = .ok ⟨pteAddress a i va, pte, gAbove || pteG pte⟩
      (fillAtc c.fill (entryOf va (satpAsid e.satp) i (gAbove || pteG pte) (pteAddress a i va) pte) m) := by
  simp [step2Read, hhit, hcheck, hread]

/-- A step-2 read that memory answers (R134, R48): the three things it can do. -/
theorem step2Read_of_memoryAnswers {e : Mmu} {va : Word} {i : Level} {m : MemSys} (h : MemoryAnswers e va i m)
    (acc : AccessType) (a : PhysAddr) (gAbove : Bool) :
    step2Read e false (popDraw m).1.choice acc va i a gAbove false (popDraw m).2 =
      if physCheck e.cfg (pteAddress a i va) .read .supervisor then
        (readWord m.mem (pteAddress a i va)).elim (.stuck (.unwrittenMemory (pteAddress a i va))) fun pte =>
          .ok ⟨pteAddress a i va, pte, gAbove || pteG pte⟩
            (fillAtc (popDraw m).1.choice.fill
              (entryOf va (satpAsid e.satp) i (gAbove || pteG pte) (pteAddress a i va) pte) (popDraw m).2)
      else .raised ⟨.accessFault acc, va⟩ (popDraw m).2 := by
  simp only [step2Read, Bool.false_eq_true, if_false, h.chooseHit_popDraw, h.implicitRead_popDraw]
  cases readWord m.mem (pteAddress a i va) <;> rfl

/-- The comparison of step 7 succeeds on the word that stands in memory, and A, or A and D, are set there (R139). -/
theorem compareAndSet_of_current {r : PteRead} {m : MemSys} (h : readWord m.mem r.addr = some r.pte) (e : Mmu)
    (c : Choice) (acc : AccessType) (va : Word) (i : Level) (gAbove : Bool) :
    compareAndSet e false c acc va i gAbove r m =
      .done (fillAtc c.fill
        (entryOf va (satpAsid e.satp) i (gAbove || pteG (setAD r.pte acc)) r.addr (setAD r.pte acc))
        { m with mem := writeWord m.mem r.addr (setAD r.pte acc) }) := by
  simp [compareAndSet, h]

/-- Step 7 on a value just read from memory, while no other agent acts, ends as the closed form does: it is done, with
the closed form's write, or it raises and changes nothing. -/
theorem step7_of_undisturbed {e : Mmu} {m : MemSys} {r : PteRead} (hu : Undisturbed m)
    (hr : readWord m.mem r.addr = some r.pte) (acc : AccessType) (va : Word) (i : Level) (gAbove : Bool)
    (pa : PhysAddr) :
    (∃ w m', closedLeaf e acc pa r.addr r.pte = .ok pa w ∧
      step7 e false (applyEvents e) acc va i gAbove r m = .done m' ∧ m'.mem = memoryAfter m.mem w) ∨
    (∃ k, closedLeaf e acc pa r.addr r.pte = .raised k ∧
      step7 e false (applyEvents e) acc va i gAbove r m = .raised k m) := by
  have hneed : (pteA r.pte && (decide (acc ≠ .store) || pteD r.pte)) = !needsUpdate r.pte acc := by
    simp [needsUpdate]
  unfold closedLeaf step7
  rw [hneed]
  cases needsUpdate r.pte acc with
  | false => exact .inl ⟨none, m, rfl, rfl, rfl⟩
  | true =>
    cases e.cfg.adScheme with
    | fault => exact .inr ⟨_, rfl, rfl⟩
    | update =>
      cases physCheck e.cfg r.addr .write .supervisor with
      | false => exact .inr ⟨_, rfl, rfl⟩
      | true =>
        have hcas := compareAndSet_of_current (m := (popDraw m).2) (by rwa [popDraw_mem]) e (popDraw m).1.choice acc va i
          gAbove
        simp only [Bool.not_true, Bool.false_eq_true, if_true, if_false, accessPoint_of_undisturbed e hu, hcas]
        exact .inl ⟨_, _, rfl, rfl, by simp [memoryAfter]⟩

/-- One pass of a walk that memory answers is one pass of the closed form, if the walk goes on below as `down` says. -/
theorem walk_agrees_closedPass {e : Mmu} {va : Word} {i : Level} {m : MemSys} (h : MemoryAnswers e va i m)
    (acc : AccessType) (priv : Priv) (n : Nat) (a : PhysAddr) (gAbove : Bool) {down : PhysAddr → Closed}
    (hdown : ∀ a' f g addr pte, i = .one → Agrees (down a') va m.mem
      (walk e false (applyEvents e) acc va priv n .zero a' g false
        (fillAtc f (entryOf va (satpAsid e.satp) .one g addr pte) (popDraw m).2))) :
    Agrees (closedPass e acc va priv m.mem i a down) va m.mem
      (walk e false (applyEvents e) acc va priv (n + 1) i a gAbove false m) := by
  simp only [walk, accessPoint_of_undisturbed e h.undisturbed, step2Read_of_memoryAnswers h]
  unfold closedPass
  split
  case isFalse => exact ⟨_, rfl, by simp⟩
  case isTrue =>
    cases hr : readWord m.mem (pteAddress a i va) with
    | none => rfl
    | some pte =>
      simp only [Option.elim_some, MRes.bind]
      cases hi : inspect e acc priv i pte with
      | pageFault => exact ⟨_, rfl, by simp⟩
      | descend a' =>
        obtain ⟨rfl, -, -⟩ := inspect_descend hi
        exact hdown _ _ _ _ _ rfl
      | leaf =>
        have hu (f : Bool) (t : AtcEntry) : Undisturbed (fillAtc f t (popDraw m).2) :=
          fillAtc_undisturbed.mpr (popDraw_undisturbed h.undisturbed)
        rcases step7_of_undisturbed (r := ⟨pteAddress a i va, pte, gAbove || pteG pte⟩) (hu _ _) (by simpa using hr) acc va i
          gAbove (finalPa i pte va) with ⟨w, m', hw, hs, hmem⟩ | ⟨k, hk, hs⟩
        · rw [hw, hs]
          exact agrees_ok (by simpa using hmem)
        · rw [hk, hs]
          exact ⟨_, rfl, by simp⟩

/-- A translation that memory answers is the closed form of R146. -/
theorem translate_agrees_closedForm {e : Mmu} {va : Word} {m : MemSys} (h : ∀ i, MemoryAnswers e va i m)
    (acc : AccessType) (priv : Priv) :
    Agrees (closedForm e acc va priv m.mem) va m.mem (translate e acc va priv m) := by
  by_cases ht : satpMode e.satp = .bare ∨ priv = .machine
  · rw [closedForm, translate, if_pos ht, if_pos ht]
    exact agrees_ok rfl
  · rw [closedForm_eq_closedPass ht, translate, if_neg ht]
    refine walk_agrees_closedPass (h .one) acc priv _ _ _ fun a' f g addr pte _ => ?_
    have hzero := walk_agrees_closedPass ((h .zero).zero_after_fill f g addr pte) acc priv m.draws.length a' g
      (down := fun _ => .raised (.pageFault acc)) (fun _ _ _ _ _ hi => by simp at hi)
    simpa [closedPassZero] using hzero

/-! ## A superseded value that answers a walk -/

/-- A choice that differs from a quiet one in the superseded value it names. -/
def Choice.nameOlder (k : Nat) : Choice := { Choice.quiet with older := some k }

/-- Each recorded value of a word is one some choice names. -/
theorem exists_implicitRead_superseded {m : MemSys} {addr : PhysAddr} {v : Option Word} (h : ⟨addr, v⟩ ∈ m.unfenced) :
    ∃ k, implicitRead .sinceFence (Choice.nameOlder k) false addr m = v := by
  have hfilter : (⟨addr, v⟩ : Superseded) ∈ m.unfenced.filter (fun w => decide (w.addr = addr)) := by simp [h]
  obtain ⟨k, hk⟩ := List.mem_iff_getElem?.mp hfilter
  exact ⟨k, by simp [implicitRead, chooseOlder, Choice.nameOlder, hk]⟩

/-- A pass that reads a passing leaf with A and D as needed is the last one, and changes nothing further. -/
theorem walk_of_leafRead {e : Mmu} {spec : Bool} {land : List Event → MemSys → MemSys} {acc : AccessType} {va : Word}
    {priv : Priv} {i : Level} {a : PhysAddr} {gAbove fresh : Bool} {m m' : MemSys} {r : PteRead}
    (hread : step2Read e spec (accessPoint land m).1 acc va i a gAbove fresh (accessPoint land m).2 = .ok r m')
    (hleaf : passingLeaf e acc priv i r.pte) (hneed : needsUpdate r.pte acc = false) (n : Nat) :
    walk e spec land acc va priv (n + 1) i a gAbove fresh m = .ok (finalPa i r.pte va) m' := by
  simp [walk, hread, MRes.bind, inspect_of_passingLeaf hleaf, step7, hneed]

/-- A superseded value of the root PTE that is a passing leaf with A and D as needed answers a walk whose choice names
it. -/
theorem exists_translate_superseded {e : Mmu} {acc : AccessType} {va : Word} {priv : Priv} {m : MemSys} {pte : Word}
    (hv : e.cfg.implicitReads = .sinceFence) (hmode : satpMode e.satp = .sv32) (hpriv : priv ≠ .machine)
    (hold : ⟨pteAddress (tableBase (satpPpn e.satp)) .one va, some pte⟩ ∈ m.unfenced)
    (hcheck : physCheck e.cfg (pteAddress (tableBase (satpPpn e.satp)) .one va) .read .supervisor = true)
    (hleaf : passingLeaf e acc priv .one pte) (hneed : needsUpdate pte acc = false) :
    ∃ ds, translate e acc va priv { m with draws := ds } = .ok (finalPa .one pte va) { m with draws := [] } := by
  obtain ⟨k, hk⟩ := exists_implicitRead_superseded (m := { m with draws := [] }) hold
  refine ⟨[⟨[], Choice.nameOlder k⟩], ?_⟩
  have ht : ¬ (satpMode e.satp = .bare ∨ priv = .machine) := by simp [hmode, hpriv]
  rw [translate, if_neg ht]
  exact walk_of_leafRead (step2Read_of_implicitRead rfl hcheck (by rw [hv]; exact hk)) hleaf hneed _

/-! ## The record of unfenced stores is the hart's own -/

theorem walk_unfenced {e : Mmu} {spec : Bool} {land : List Event → MemSys → MemSys} {acc : AccessType} {va : Word}
    {priv : Priv} (hland : ∀ evs m, (land evs m).unfenced = m.unfenced) (n : Nat) (i : Level) (a : PhysAddr)
    (gAbove fresh : Bool) (m : MemSys) :
    (walk e spec land acc va priv n i a gAbove fresh m).Leaves (fun m' => m'.unfenced = m.unfenced) :=
  walk_leaves (P := fun m' => m'.unfenced = m.unfenced) (fun m' hm => by simpa [hland] using hm)
    (fun m' f t hm _ => by simpa using hm) (fun m' addr pte new hm _ _ _ _ => hm) _ _ _ _ _ _ rfl

@[simp] theorem specWalk_unfenced (e : Mmu) (va : Word) (acc : AccessType) (priv : Priv) (cs : List Choice)
    (m : MemSys) : (specWalk e va acc priv cs m).unfenced = m.unfenced := by
  unfold specWalk
  split
  · have hw := walk_unfenced (e := e) (spec := true) (land := landNothing) (acc := acc) (va := va) (priv := priv)
      (fun _ _ => rfl) (walkBound { m with draws := cs.map (fun c => ⟨[], c⟩) }) .one (tableBase (satpPpn e.satp)) false
      false { m with draws := cs.map (fun c => ⟨[], c⟩) }
    unfold walkFromRoot
    split <;> simp_all [MRes.Leaves]
  · rfl

@[simp] theorem applyEvent_unfenced (e : Mmu) (ev : Event) (m : MemSys) :
    (applyEvent e ev m).unfenced = m.unfenced := by
  cases ev with
  | store pa b => rfl
  | evict k => rfl
  | specWalk va acc priv cs => exact specWalk_unfenced e va acc priv cs m

@[simp] theorem applyEvents_unfenced (e : Mmu) (evs : List Event) (m : MemSys) :
    (applyEvents e evs m).unfenced = m.unfenced := by
  unfold applyEvents
  induction evs generalizing m with
  | nil => rfl
  | cons ev evs ih => rw [List.foldl_cons, ih, applyEvent_unfenced]

@[simp] theorem atAccess_unfenced (e : Mmu) (m : MemSys) : (atAccess e m).2.unfenced = m.unfenced := by
  simp [atAccess, accessPoint]

/-- A translation records no store, whatever the other agents do. -/
theorem translate_unfenced (e : Mmu) (acc : AccessType) (va : Word) (priv : Priv) (m : MemSys) :
    (translate e acc va priv m).Leaves (fun m' => m'.unfenced = m.unfenced) := by
  unfold translate
  split
  · rfl
  · exact walk_unfenced (applyEvents_unfenced e) _ _ _ _ _ _

theorem resolve_unfenced {e : Mmu} {acc : AccessType} {va : Word} {priv : Priv} {m m' : MemSys} {pa : PhysAddr}
    (h : resolve e acc va priv m = .ok pa m') : m'.unfenced = m.unfenced := by
  obtain ⟨m1, ht, -, rfl⟩ := resolve_ok h
  have hl := translate_unfenced e acc va priv m
  rw [ht] at hl
  exact (atAccess_unfenced e m1).trans hl

/-! ## Stores that complete -/

theorem MRes.bind_eq_ok {α β : Type} {r : MRes α} {k : α → MemSys → MRes β} {b : β} {m' : MemSys}
    (h : r.bind k = .ok b m') : ∃ a m, r = .ok a m ∧ k a m = .ok b m' := by
  cases r with
  | ok a m => exact ⟨a, m, rfl, h⟩
  | raised x m => simp [MRes.bind] at h
  | stuck f => simp [MRes.bind] at h

/-- The memory system after the hart's own store of `v` at `pa`. -/
def storedWord (e : Mmu) (pa : PhysAddr) (v : Word) (m : MemSys) : MemSys :=
  { m with mem := writeWord m.mem pa v, unfenced := supersede e.cfg.implicitReads pa m }

theorem memWrite_ok {e : Mmu} {va : Word} {priv : Priv} {v : Word} {m m' : MemSys} {u : Unit}
    (h : memWrite e va priv v m = .ok u m') :
    ∃ pa m1, resolve e .store va priv m = .ok pa m1 ∧ m' = storedWord e pa v m1 := by
  obtain ⟨pa, m1, hr, hw⟩ := MRes.bind_eq_ok h
  injection hw with _ hm
  exact ⟨pa, m1, hr, hm.symm⟩

theorem readMem_ok {pa : PhysAddr} {m m' : MemSys} {v : Word} (h : readMem pa m = .ok v m') :
    readWord m.mem pa = some v ∧ m' = m := by
  unfold readMem at h
  split at h
  · rename_i hr
    injection h with hv hm
    exact ⟨hv ▸ hr, hm.symm⟩
  · simp at h

theorem memAmo_ok {e : Mmu} {va : Word} {priv : Priv} {f : Word → Word} {m m' : MemSys} {v : Word}
    (h : memAmo e va priv f m = .ok v m') :
    ∃ pa m1, resolve e .store va priv m = .ok pa m1 ∧ readWord m1.mem pa = some v ∧ m' = storedWord e pa (f v) m1 := by
  obtain ⟨pa, m1, hres, h1⟩ := MRes.bind_eq_ok h
  obtain ⟨w, m2, hread, h2⟩ := MRes.bind_eq_ok h1
  obtain ⟨hw, rfl⟩ := readMem_ok hread
  injection h2 with hv hm
  subst hv
  exact ⟨pa, m2, hres, hw, hm.symm⟩

/-- An instruction that raises by itself leaves a trap. -/
theorem raise_trap {s t : State} {k : ExcKind} {v : Word} (h : raise s k v = .next t) : t.trap ≠ none := by
  injection h with h
  simp [← h]

/-- An SW that completes has stored at the address `resolve` gives. -/
theorem exec_sw_completed {rs2 rs1 : RegIdx} {imm : BitVec 12} {s t : State} (h : exec (.sw rs2 rs1 imm) s = .next t)
    (ht : t.trap = none) :
    ∃ pa m, resolve s.mmu .store (effectiveAddr s rs1 imm) (effPriv s .store) s.ms = .ok pa m ∧
      t = State.advance { s with ms := storedWord s.mmu pa (s.x rs2) m } := by
  simp only [exec, execSw] at h
  split at h
  · rcases finish_cases h with ⟨u, m', hw, hk⟩ | ⟨x, m', -, rfl⟩
    · obtain ⟨pa, m, hres, rfl⟩ := memWrite_ok hw
      injection hk with hk
      exact ⟨pa, m, hres, hk.symm⟩
    · simp at ht
  · exact absurd ht (raise_trap h)

/-- An AMOADD.W that completes has stored the sum at the address `resolve` gives, where it read the old word. -/
theorem exec_amoaddW_completed {rd rs2 rs1 : RegIdx} {aq rl : Bool} {s t : State}
    (h : exec (.amoaddW rd rs2 rs1 aq rl) s = .next t) (ht : t.trap = none) :
    ∃ pa m v, resolve s.mmu .store (s.x rs1) (effPriv s .store) s.ms = .ok pa m ∧ readWord m.mem pa = some v ∧
      t = (State.setX { s with ms := storedWord s.mmu pa (v + s.x rs2) m } rd v).advance := by
  simp only [exec, execAmoaddW] at h
  split at h
  · rcases finish_cases h with ⟨v, m', hw, hk⟩ | ⟨x, m', -, rfl⟩
    · obtain ⟨pa, m, hres, hread, rfl⟩ := memAmo_ok hw
      injection hk with hk
      exact ⟨pa, m, v, hres, hread, hk.symm⟩
    · simp at ht
  · exact absurd ht (raise_trap h)

/-- What a store at the address `resolve` gives records (R57): nothing under `ProgramOrder`, the word it stores over under
`SinceFence`. -/
theorem storedWord_unfenced {e : Mmu} {acc : AccessType} {va : Word} {priv : Priv} {m0 m : MemSys} {pa : PhysAddr}
    (h : resolve e acc va priv m0 = .ok pa m) (v : Word) :
    (e.cfg.implicitReads = .programOrder → (storedWord e pa v m).unfenced = m0.unfenced) ∧
    (e.cfg.implicitReads = .sinceFence → (storedWord e pa v m).unfenced = ⟨pa, readWord m.mem pa⟩ :: m0.unfenced) := by
  constructor <;> intro hv <;> simp [storedWord, hv, resolve_unfenced h]

/-- Settles O46. Under `ProgramOrder` memory answers every read, so the translation is the closed form; under `SinceFence`
a choice names the recorded value; and a translation changes no record, so a store adds just its own. -/
theorem implicitReadVisibility : Obligations.ImplicitReadVisibility := by
  refine ⟨fun e acc va priv m hv hu huse => ?_, fun e acc va priv m pte hv hmode hpriv hold hcheck hclass hperm hppn
    hneed => ?_, fun rs2 rs1 imm s t h ht => ?_, fun rd rs2 rs1 aq rl s t h ht => ?_⟩
  · exact translate_agrees_closedForm (fun i => memoryAnswers_of_programOrder va i hv hu huse) acc priv
  · exact exists_translate_superseded hv hmode hpriv hold hcheck ⟨hclass, hperm, fun _ => hppn⟩ hneed
  · obtain ⟨pa, m, hres, rfl⟩ := exec_sw_completed h ht
    exact ⟨pa, m, hres, storedWord_unfenced hres _⟩
  · obtain ⟨pa, m, v, hres, -, rfl⟩ := exec_amoaddW_completed h ht
    exact ⟨pa, m, hres, storedWord_unfenced hres _⟩

end Sys2Proof.Machine

/-! # Physical memory (20_memory.md) -/

namespace Sys2Proof.Machine

/-! ## No translation in Bare mode or for M -/

/-- The translation that is none (R43, R132). -/
theorem translate_of_bare_or_machine {e : Mmu} {priv : Priv} (h : satpMode e.satp = .bare ∨ priv = .machine)
    (acc : AccessType) (va : Word) (m : MemSys) : translate e acc va priv m = .ok (va.setWidth 34) m :=
  if_pos h

/-- Settles O29: the physical address is the virtual one, zero-extended. -/
theorem noTranslationInBareOrMachine : Obligations.NoTranslationInBareOrMachine := by
  intro e acc va priv m h
  exact ⟨_, translate_of_bare_or_machine h acc va m, BitVec.toNat_setWidth_of_le (by decide)⟩

/-! ## Addresses above `PALEN` -/

/-- The check compares whole addresses with `PALEN` and truncates none (R42, D11). -/
theorem physCheck_of_palen_le {c : Config} {pa : PhysAddr} (h : 2 ^ c.palen ≤ pa.toNat) (k : PhysKind) (p : Priv) :
    physCheck c pa k p = false := by
  have hlen : ¬ pa.toNat + 4 ≤ 2 ^ c.palen := by omega
  simp [physCheck, hlen]

/-- A translated address that fails the final check raises, and what the translation left stays (R50, D30). -/
theorem resolve_of_failedCheck {e : Mmu} {acc : AccessType} {va : Word} {priv : Priv} {m m1 : MemSys} {pa : PhysAddr}
    (ht : translate e acc va priv m = .ok pa m1) (hcheck : physCheck e.cfg pa (physKind acc) priv = false) :
    resolve e acc va priv m = .raised ⟨.accessFault acc, va⟩ m1 := by
  simp [resolve, ht, MRes.bind, hcheck]

/-- A step-2 read that no entry answers and whose check fails raises, and changes nothing (R48). -/
theorem step2Read_of_failedCheck {e : Mmu} {c : Choice} {va : Word} {i : Level} {a : PhysAddr} {fresh : Bool}
    {m : MemSys} (hmemory : fresh = true ∨ chooseHit m.atc i va (satpAsid e.satp) c.use = none)
    (hcheck : physCheck e.cfg (pteAddress a i va) .read .supervisor = false) (spec : Bool) (acc : AccessType)
    (gAbove : Bool) :
    step2Read e spec c acc va i a gAbove fresh m = .raised ⟨.accessFault acc, va⟩ m := by
  have hnone : (if fresh then none else chooseHit m.atc i va (satpAsid e.satp) c.use) = none := by
    rcases hmemory with h | h <;> simp [h]
  simp [step2Read, hnone, hcheck]

/-- Settles O42: the check refuses the address, and an explicit access and a step-2 read raise where it does. -/
theorem addressAbovePalenIsRefused : Obligations.AddressAbovePalenIsRefused :=
  ⟨fun _ _ k p h => physCheck_of_palen_le h k p,
    fun _ _ _ _ _ _ _ ht h => resolve_of_failedCheck ht (physCheck_of_palen_le h _ _),
    fun _ spec _ acc _ _ _ g _ _ h hmemory =>
      step2Read_of_failedCheck hmemory (physCheck_of_palen_le h _ _) spec acc g⟩

/-! ## Reservation sets -/

/-- Every multiple of `a` leaves at least `gcd a 4096` bytes to the end of its page. -/
theorem mod_page_add_gcd_le {a base : Nat} (h : a ∣ base) : base % 4096 + Nat.gcd a 4096 ≤ 4096 := by
  have hlt : base % 4096 < 4096 := Nat.mod_lt base (by decide)
  have hmod : Nat.gcd a 4096 ∣ base % 4096 :=
    (Nat.dvd_mod_iff (Nat.gcd_dvd_right a 4096)).mpr ((Nat.gcd_dvd_left a 4096).trans h)
  have hle : Nat.gcd a 4096 ≤ 4096 - base % 4096 :=
    Nat.le_of_dvd (Nat.sub_pos_of_lt hlt) (Nat.dvd_sub (Nat.gcd_dvd_right a 4096) hmod)
  omega

/-- Some multiple of `a` leaves no more: the negative of one that is `gcd a 4096` modulo 4096. -/
theorem exists_mod_page_add_gcd_eq (a : Nat) : ∃ base, a ∣ base ∧ base % 4096 + Nat.gcd a 4096 = 4096 := by
  rcases (Nat.gcd_le_right a (n := 4096) (by decide)).lt_or_eq with hlt | heq
  · obtain ⟨k, -, hk⟩ := Nat.exists_mul_mod_eq_gcd hlt
    have hpos : 0 < Nat.gcd a 4096 := Nat.gcd_pos_of_pos_right a (by decide)
    exact ⟨4095 * (a * k), (dvd_mul_right a k).mul_left _, by omega⟩
  · exact ⟨0, dvd_zero a, by simpa using heq⟩

/-- Settles O53: the multiples of the alignment leave at least the greatest common divisor to the end of their page, and
one of them leaves no more. -/
theorem reservationSetLiesInOnePage : Obligations.ReservationSetLiesInOnePage := by
  intro c
  have hiff : c.reservationInPage = true ↔ c.reservationSize ≤ Nat.gcd c.reservationAlign 4096 := decide_eq_true_iff
  rw [hiff]
  constructor
  · intro hsize base hbase
    have := mod_page_add_gcd_le hbase
    omega
  · intro hpage
    obtain ⟨base, hbase, hlast⟩ := exists_mod_page_add_gcd_eq c.reservationAlign
    have := hpage base hbase
    omega

/-! ## Setting A in a word of memory -/

/-- Each byte of `mem'` is the byte `mem` has there, or that byte with A set. -/
def OnlyASet (mem mem' : Memory) : Prop := ∀ q, byteKeptOrA (readByte mem q) (readByte mem' q)

theorem OnlyASet.refl (mem : Memory) : OnlyASet mem mem := fun _ => .inl rfl

theorem byteKeptOrA_trans {x y z : Option Byte} (hxy : byteKeptOrA x y) (hyz : byteKeptOrA y z) : byteKeptOrA x z := by
  rcases hxy with rfl | ⟨b, rfl, rfl⟩
  · exact hyz
  · rcases hyz with rfl | ⟨b', hb', rfl⟩
    · exact .inr ⟨b, rfl, rfl⟩
    · obtain rfl : b ||| 0x40#8 = b' := by simpa using hb'
      exact .inr ⟨b, rfl, by rw [BitVec.or_assoc, BitVec.or_self]⟩

theorem OnlyASet.trans {m1 m2 m3 : Memory} (h12 : OnlyASet m1 m2) (h23 : OnlyASet m2 m3) : OnlyASet m1 m3 := fun q =>
  byteKeptOrA_trans (h12 q) (h23 q)

/-- A is bit 6 of a PTE, in its lowest byte (R73, R44). -/
theorem setA_wordOfBytes (b0 b1 b2 b3 : Byte) :
    setA (wordOfBytes b0 b1 b2 b3) = wordOfBytes (b0 ||| 0x40#8) b1 b2 b3 := by
  simp [setA, wordOfBytes, place, BitVec.setWidth_or, BitVec.or_assoc]

/-- Taking a word apart gives the bytes it was put together from (R44). -/
theorem byteOfWord_wordOfBytes (b0 b1 b2 b3 : Byte) :
    byteOfWord (wordOfBytes b0 b1 b2 b3) 0 = b0 ∧ byteOfWord (wordOfBytes b0 b1 b2 b3) 1 = b1 ∧
    byteOfWord (wordOfBytes b0 b1 b2 b3) 2 = b2 ∧ byteOfWord (wordOfBytes b0 b1 b2 b3) 3 = b3 := by
  refine ⟨?_, ?_, ?_, ?_⟩ <;> refine BitVec.eq_of_getLsbD_eq fun j hj => ?_ <;>
    interval_cases j <;> simp [byteOfWord, wordOfBytes, place]

/-- Writing a word back with A set sets A in its lowest byte and keeps every other byte. -/
theorem onlyASet_writeWord_setA {mem : Memory} {pa : PhysAddr} {pte : Word} (h : readWord mem pa = some pte) :
    OnlyASet mem (writeWord mem pa (setA pte)) := by
  obtain ⟨b0, b1, b2, b3, h0, h1, h2, h3, rfl⟩ := readWord_eq_some h
  obtain ⟨e0, e1, e2, e3⟩ := byteOfWord_wordOfBytes (b0 ||| 0x40#8) b1 b2 b3
  intro q
  simp only [writeWord, readByte_writeByte, setA_wordOfBytes, e0, e1, e2, e3]
  split
  · next hq => exact .inl (by rw [hq, h3])
  split
  · next hq => exact .inl (by rw [hq, h2])
  split
  · next hq => exact .inl (by rw [hq, h1])
  split
  · next hq => exact .inr ⟨b0, by rw [hq, h0], rfl⟩
  · exact .inl rfl

/-- For a fetch or a load, step 7 sets only A (R115, R117). -/
theorem setAD_of_ne_store {acc : AccessType} (h : acc ≠ .store) (pte : Word) : setAD pte acc = setA pte := by
  simp [setAD, setA, h]

/-! ## What a walk keeps, told from the word it writes -/

theorem MRes.Leaves.bind {α β : Type} {P : MemSys → Prop} {r : MRes α} {k : α → MemSys → MRes β} (hr : r.Leaves P)
    (hk : ∀ a m, P m → (k a m).Leaves P) : (r.bind k).Leaves P := by
  cases r with
  | ok a m => exact hk a m hr
  | raised x m => exact hr
  | stuck f => trivial

/-- The word step 7 writes (R139), or the speculative walk's (R168). -/
def writtenPte (spec : Bool) (acc : AccessType) (pte : Word) : Word := if spec then setA pte else setAD pte acc

/-- All but a store's own walk write only A (R115, R168). -/
theorem writtenPte_eq_setA {spec : Bool} {acc : AccessType} (h : spec = true ∨ acc ≠ .store) (pte : Word) :
    writtenPte spec acc pte = setA pte := by
  rcases h with rfl | h
  · rfl
  · cases spec
    · exact setAD_of_ne_store h pte
    · rfl

/-- Step 7 does one of three things: nothing, an exception that changes nothing, or, under `Update` and after its check,
the comparison at an access of its own. -/
theorem step7_cases (e : Mmu) (spec : Bool) (land : List Event → MemSys → MemSys) (acc : AccessType) (va : Word)
    (i : Level) (gAbove : Bool) (r : PteRead) (m : MemSys) :
    step7 e spec land acc va i gAbove r m = .done m ∨
    (∃ k, step7 e spec land acc va i gAbove r m = .raised k m) ∨
    (e.cfg.adScheme = .update ∧ physCheck e.cfg r.addr .write .supervisor = true ∧
      step7 e spec land acc va i gAbove r m =
        compareAndSet e spec (accessPoint land m).1 acc va i gAbove r (accessPoint land m).2) := by
  unfold step7
  cases needsUpdate r.pte acc with
  | false => exact .inl rfl
  | true =>
    cases e.cfg.adScheme with
    | fault => exact .inr (.inl ⟨_, rfl⟩)
    | update =>
      cases physCheck e.cfg r.addr .write .supervisor with
      | false => exact .inr (.inl ⟨_, rfl⟩)
      | true => exact .inr (.inr ⟨rfl, rfl, rfl⟩)

section
variable {P : MemSys → Prop} {e : Mmu} {spec : Bool} {land : List Event → MemSys → MemSys} {acc : AccessType} {va : Word}
  (hfill : ∀ m f t, P m → t.asid = satpAsid e.satp → P (fillAtc f t m))
  (hwrite : ∀ m addr pte, P m → readWord m.mem addr = some pte → physCheck e.cfg addr .write .supervisor = true →
    e.cfg.adScheme = .update → P { m with mem := writeWord m.mem addr (writtenPte spec acc pte) })

include hfill in
theorem step2Read_leaves (c : Choice) (i : Level) (a : PhysAddr) (gAbove fresh : Bool) {m : MemSys} (hm : P m) :
    (step2Read e spec c acc va i a gAbove fresh m).Leaves P := by
  cases hq : step2Read e spec c acc va i a gAbove fresh m with
  | ok r m' =>
    rcases step2Read_ok hq with ⟨-, -, -, -, rfl⟩ | ⟨-, -, -, -, rfl⟩
    · exact hm
    · exact hfill _ _ _ hm rfl
  | raised x m' =>
    obtain ⟨-, rfl⟩ := step2Read_raised hq
    exact hm
  | stuck f => trivial

include hfill hwrite in
/-- `compareAndSet_leaves` for the very word that is written. -/
theorem compareAndSet_leaves_writtenPte (c : Choice) (i : Level) (gAbove : Bool) {r : PteRead} {m : MemSys}
    (hs : e.cfg.adScheme = .update) (hcheck : physCheck e.cfg r.addr .write .supervisor = true) (hm : P m) :
    (compareAndSet e spec c acc va i gAbove r m).Leaves P := by
  unfold compareAndSet
  split
  · exact hm
  · cases hr : readWord m.mem r.addr with
    | none =>
      cases spec with
      | false => trivial
      | true => exact hm
    | some cur =>
      dsimp only
      split
      · next heq => exact hfill _ _ _ (hwrite _ _ _ hm (heq ▸ hr) hcheck hs) rfl
      · exact hm

variable (hland : ∀ m, P m → P (accessPoint land m).2)

include hfill hwrite hland in
theorem step7_leaves_writtenPte (i : Level) (gAbove : Bool) (r : PteRead) {m : MemSys} (hm : P m) :
    (step7 e spec land acc va i gAbove r m).Leaves P := by
  rcases step7_cases e spec land acc va i gAbove r m with h | ⟨k, h⟩ | ⟨hs, hcheck, h⟩
  · rwa [h]
  · rwa [h]
  · rw [h]
    exact compareAndSet_leaves_writtenPte hfill hwrite _ _ _ hs hcheck (hland m hm)

include hfill hwrite hland in
/-- `walk_leaves` for the very word that is written: it tells a speculative walk for a store, which sets only A, from the
store's own walk. -/
theorem walk_leaves_writtenPte (priv : Priv) (n : Nat) (i : Level) (a : PhysAddr) (gAbove fresh : Bool) {m : MemSys}
    (hm : P m) : (walk e spec land acc va priv n i a gAbove fresh m).Leaves P := by
  induction n generalizing i a gAbove fresh m with
  | zero => trivial
  | succ n ih =>
    refine (step2Read_leaves hfill _ i a gAbove fresh (hland m hm)).bind fun r m2 h2 => ?_
    cases inspect e acc priv i r.pte with
    | pageFault => exact h2
    | descend a' => exact ih _ _ _ _ h2
    | leaf =>
      have h7 := step7_leaves_writtenPte (va := va) hfill hwrite hland i gAbove r h2
      dsimp only
      cases hs : step7 e spec land acc va i gAbove r m2 with
      | done m3 => rw [hs] at h7; exact h7
      | raised k m3 => rw [hs] at h7; exact h7
      | retry m3 => rw [hs] at h7; exact ih _ _ _ _ h7
      | stuck f => trivial
end

/-! ## Only A is set while no other agent stores -/

/-- No other agent is still to store, and since memory was `mem` only A has been set in it. -/
structure OnlyASetSince (mem : Memory) (m : MemSys) : Prop where
  noStores : NoForeignStores m
  onlyA    : OnlyASet mem m.mem

theorem specWalk_draws (e : Mmu) (va : Word) (acc : AccessType) (priv : Priv) (cs : List Choice) (m : MemSys) :
    (specWalk e va acc priv cs m).draws = m.draws := by
  unfold specWalk
  split
  · split <;> rfl
  · rfl

/-- Taking a draw shortens the tape. -/
theorem popDraw_snd (m : MemSys) : (popDraw m).2 = { m with draws := m.draws.tail } := by
  obtain ⟨mem, atc, unfenced, draws⟩ := m
  cases draws <;> rfl

/-- A speculative walk keeps what a change of the tape, a fill and the setting of A keep. -/
theorem specWalk_leaves {P : MemSys → Prop} {e : Mmu}
    (hdraws : ∀ m ds, P m → P { m with draws := ds })
    (hfill : ∀ m f t, P m → t.asid = satpAsid e.satp → P (fillAtc f t m))
    (hwrite : ∀ m addr pte, P m → readWord m.mem addr = some pte → physCheck e.cfg addr .write .supervisor = true →
      e.cfg.adScheme = .update → P { m with mem := writeWord m.mem addr (setA pte) })
    (va : Word) (acc : AccessType) (priv : Priv) (cs : List Choice) {m : MemSys} (hm : P m) :
    P (specWalk e va acc priv cs m) := by
  have hland (m : MemSys) (h : P m) : P (accessPoint landNothing m).2 := by
    have hpop : (accessPoint landNothing m).2 = { m with draws := m.draws.tail } := popDraw_snd m
    exact hpop ▸ hdraws m _ h
  have hw : (walkFromRoot e true landNothing acc va priv { m with draws := cs.map (fun c => ⟨[], c⟩) }).Leaves P := by
    refine walk_leaves_writtenPte hfill (fun m addr pte h hr hcheck hs => ?_) hland priv _ _ _ _ _ (hdraws _ _ hm)
    rw [writtenPte_eq_setA (.inl rfl)]
    exact hwrite m addr pte h hr hcheck hs
  unfold specWalk
  split
  · split
    · next h => rw [h] at hw; exact hdraws _ _ hw
    · next h => rw [h] at hw; exact hdraws _ _ hw
    · exact hm
  · exact hm

namespace OnlyASetSince

variable {mem : Memory} {m : MemSys}

theorem of_mem_draws_eq {m' : MemSys} (h : OnlyASetSince mem m) (hmem : m'.mem = m.mem) (hdraws : m'.draws = m.draws) :
    OnlyASetSince mem m' :=
  ⟨fun d hd => h.noStores d (hdraws ▸ hd), hmem ▸ h.onlyA⟩

theorem fill (h : OnlyASetSince mem m) (f : Bool) (t : AtcEntry) : OnlyASetSince mem (fillAtc f t m) :=
  h.of_mem_draws_eq (fillAtc_mem f t m) (fillAtc_draws f t m)

theorem write_setA (h : OnlyASetSince mem m) {addr : PhysAddr} {pte : Word} (hr : readWord m.mem addr = some pte) :
    OnlyASetSince mem { m with mem := writeWord m.mem addr (setA pte) } :=
  ⟨h.noStores, h.onlyA.trans (onlyASet_writeWord_setA hr)⟩

theorem afterSpecWalk (h : OnlyASetSince mem m) (e : Mmu) (va : Word) (acc : AccessType) (priv : Priv)
    (cs : List Choice) : OnlyASetSince mem (specWalk e va acc priv cs m) where
  noStores d hd := h.noStores d (specWalk_draws e va acc priv cs m ▸ hd)
  onlyA := specWalk_leaves (P := fun m => OnlyASet mem m.mem) (fun _ _ hm => hm) (fun m f t hm _ => by simpa using hm)
    (fun _ _ _ hm hr _ _ => hm.trans (onlyASet_writeWord_setA hr)) va acc priv cs h.onlyA

/-- Events without a store keep it: evictions, and speculative walks (R168). -/
theorem afterEvents (h : OnlyASetSince mem m) (e : Mmu) {evs : List Event}
    (hevs : ∀ ev ∈ evs, ∀ pa b, ev ≠ Event.store pa b) : OnlyASetSince mem (applyEvents e evs m) := by
  induction evs generalizing m with
  | nil => exact h
  | cons ev evs ih =>
    have hrest : ∀ ev' ∈ evs, ∀ pa b, ev' ≠ Event.store pa b := fun ev' hev' => hevs ev' (List.mem_cons_of_mem _ hev')
    cases ev with
    | store pa b => exact absurd rfl (hevs _ List.mem_cons_self pa b)
    | evict k => exact ih (h.of_mem_draws_eq rfl rfl) hrest
    | specWalk va acc priv cs => exact ih (h.afterSpecWalk e va acc priv cs) hrest

/-- One access of the hart: its draw holds no store. -/
theorem afterAccess (h : OnlyASetSince mem m) (e : Mmu) : OnlyASetSince mem (atAccess e m).2 := by
  have hpop : OnlyASetSince mem (popDraw m).2 :=
    ⟨fun d hd => h.noStores d (mem_draws_of_mem_popDraw hd), (popDraw_mem m).symm ▸ h.onlyA⟩
  have hevents : ∀ ev ∈ (popDraw m).1.events, ∀ pa b, ev ≠ Event.store pa b := by
    rcases popDraw_draw m with hd | hd
    · exact h.noStores _ hd
    · rw [hd]
      exact fun ev hev => absurd hev List.not_mem_nil
  exact hpop.afterEvents e hevents

/-- A translation for a fetch or a load sets only A. -/
theorem translate_leaves (h : OnlyASetSince mem m) (e : Mmu) {acc : AccessType} (hacc : acc ≠ .store) (va : Word)
    (priv : Priv) : (translate e acc va priv m).Leaves (OnlyASetSince mem) := by
  unfold translate
  split
  · exact h
  · refine walk_leaves_writtenPte (fun m f t hm _ => hm.fill f t) (fun m addr pte hm hr _ _ => ?_)
      (fun m hm => hm.afterAccess e) _ _ _ _ _ _ h
    rw [writtenPte_eq_setA (.inr hacc)]
    exact hm.write_setA hr

/-- A load or fetch, from its translation to its read of memory, sets only A. -/
theorem explicitRead_leaves (h : OnlyASetSince mem m) (e : Mmu) {acc : AccessType} (hacc : acc ≠ .store) (va : Word)
    (priv : Priv) : ((resolve e acc va priv m).bind readMem).Leaves (OnlyASetSince mem) := by
  refine MRes.Leaves.bind ((h.translate_leaves e hacc va priv).bind fun pa m1 h1 => ?_) fun pa m1 h1 => ?_
  · split
    · exact h1.afterAccess e
    · exact h1
  · unfold readMem
    split
    · exact h1
    · trivial

end OnlyASetSince

/-! ## Instructions that leave the memory system alone -/

theorem raise_ms {s t : State} {k : ExcKind} {v : Word} (h : raise s k v = .next t) : t.ms = s.ms := by
  injection h with h
  rw [← h, takeTrap_ms]

theorem writeResult_ms {s t : State} {rd : RegIdx} {v : Word} (h : writeResult s rd v = .next t) : t.ms = s.ms := by
  injection h with h
  rw [← h, State.advance_ms, State.setX_ms]

theorem execBne_ms {rs1 rs2 : RegIdx} {offset : BitVec 13} {s t : State} (h : execBne rs1 rs2 offset s = .next t) :
    t.ms = s.ms := by
  unfold execBne at h
  split at h
  · split at h
    · injection h with h
      rw [← h]
    · exact raise_ms h
  · injection h with h
    rw [← h, State.advance_ms]

theorem csrInstr_ms {i : Instr} {rd : RegIdx} {n : CsrIdx} {new : Word → Option Word} {s t : State}
    (h : csrInstr i rd n new s = .next t) : t.ms = s.ms := by
  unfold csrInstr at h
  split at h
  · exact raise_ms h
  · next c _ =>
    injection h with h
    rw [← h, State.advance_ms, State.setX_ms]
    split
    · exact csrWrite_ms s c _
    · rfl

/-! ## Only SW and AMOADD.W write memory or set D -/

/-- What a memory operation leaves and the rest of the instruction keeps, the instruction leaves. -/
theorem finish_leaves {α : Type} {P : MemSys → Prop} {s t : State} {r : MRes α}
    {k : α → State → Host.Outcome State Fault Refusal} (h : finish s r k = .next t) (hr : r.Leaves P)
    (hk : ∀ a s', P s'.ms → k a s' = .next t → P t.ms) : P t.ms := by
  rcases finish_cases h with ⟨a, m, rfl, hnext⟩ | ⟨x, m, rfl, rfl⟩
  · exact hk a { s with ms := m } hr hnext
  · exact hr

theorem execLw_onlyASetSince {mem : Memory} {rd rs1 : RegIdx} {imm : BitVec 12} {s t : State}
    (hs : OnlyASetSince mem s.ms) (h : execLw rd rs1 imm s = .next t) : OnlyASetSince mem t.ms := by
  simp only [execLw] at h
  split at h
  · refine finish_leaves h (hs.explicitRead_leaves _ (by simp) _ _) fun v s' hs' hnext => ?_
    injection hnext with hnext
    rwa [← hnext, State.advance_ms, State.setX_ms]
  · rwa [raise_ms h]

theorem execSfenceVma_onlyASetSince {mem : Memory} {rs1 rs2 : RegIdx} {s t : State} (hs : OnlyASetSince mem s.ms)
    (h : execSfenceVma rs1 rs2 s = .next t) : OnlyASetSince mem t.ms := by
  unfold execSfenceVma at h
  split at h
  · injection h with h
    rw [← h]
    exact (hs.afterAccess s.mmu).of_mem_draws_eq rfl rfl
  · rwa [raise_ms h]

/-- An instruction that is no store sets only A: it leaves the memory system alone, or it is LW or SFENCE.VMA. -/
theorem exec_onlyASetSince {mem : Memory} {i : Instr} {s t : State} (hsw : ∀ rs2 rs1 imm, i ≠ .sw rs2 rs1 imm)
    (hamo : ∀ rd rs2 rs1 aq rl, i ≠ .amoaddW rd rs2 rs1 aq rl) (hs : OnlyASetSince mem s.ms)
    (h : exec i s = .next t) : OnlyASetSince mem t.ms := by
  cases i with
  | lui rd imm => rwa [writeResult_ms h]
  | addi rd rs1 imm => rwa [writeResult_ms h]
  | add rd rs1 rs2 => rwa [writeResult_ms h]
  | bne rs1 rs2 offset => rwa [execBne_ms h]
  | lw rd rs1 imm => exact execLw_onlyASetSince hs h
  | sw rs2 rs1 imm => exact absurd rfl (hsw rs2 rs1 imm)
  | amoaddW rd rs2 rs1 aq rl => exact absurd rfl (hamo rd rs2 rs1 aq rl)
  | csrrw rd csr rs1 =>
    unfold exec execCsrrw at h
    rwa [csrInstr_ms h]
  | csrrs rd csr rs1 =>
    unfold exec execCsrrs at h
    rwa [csrInstr_ms h]
  | csrrc rd csr rs1 =>
    unfold exec execCsrrc at h
    rwa [csrInstr_ms h]
  | sfenceVma rs1 rs2 => exact execSfenceVma_onlyASetSince hs h

/-- A step that fetches and decodes an instruction executes it in the memory system the fetch leaves (R191). -/
theorem step_of_fetch_decode {s t : State} {w : Word} {m : MemSys} {i : Instr} (hfetch : fetch s = .ok w m)
    (hdecode : decodeWord w = .ok i) (h : step s = .next t) : exec i { s with ms := m } = .next t := by
  unfold step at h
  split at h
  · simp at h
  · split at h
    · simpa [hfetch, runWord, hdecode] using h
    · simp at h

/-- Settles O19. The fetch sets only A, and so does the instruction, since neither its accesses nor the speculative walks
between them set D. -/
theorem onlyStoresWriteMemoryOrSetD : Obligations.OnlyStoresWriteMemoryOrSetD := by
  intro s t w m i _ hfetch hdecode hsw hamo hforeign hstep
  have hstart : OnlyASetSince s.ms.mem s.ms := ⟨hforeign, OnlyASet.refl _⟩
  have hfetched : (fetch s).Leaves (OnlyASetSince s.ms.mem) := hstart.explicitRead_leaves _ (by simp) _ _
  rw [hfetch] at hfetched
  exact (exec_onlyASetSince (s := { s with ms := m }) hsw hamo hfetched (step_of_fetch_decode hfetch hdecode hstep)).onlyA

end Sys2Proof.Machine

/-! # The encoding of instructions (30_encoding.md) -/

namespace Sys2Proof

/-! ## Fields and concatenations (R5) -/

theorem getLsbD_place {k : Nat} (n : Nat) (v : BitVec k) (lo j : Nat) :
    (place n v lo).getLsbD j = (decide (j < n) && (decide (lo ≤ j) && v.getLsbD (j - lo))) := by
  by_cases hn : j < n <;> by_cases hlo : lo ≤ j <;> simp [place, hn, hlo]

@[simp] theorem getElem_place {k n : Nat} (v : BitVec k) (lo j : Nat) (h : j < n) :
    (place n v lo)[j] = (decide (lo ≤ j) && v.getLsbD (j - lo)) := by
  rw [← BitVec.getLsbD_eq_getElem, getLsbD_place]
  simp [h]

/-- A field read at or above the place of a value is a field of that value. -/
@[simp] theorem extractLsb'_place {k n lo s : Nat} (v : BitVec k) (len : Nat) (hlo : lo ≤ s) (hn : s + len ≤ n) :
    (place n v lo).extractLsb' s len = v.extractLsb' (s - lo) len := by
  refine BitVec.eq_of_getLsbD_eq fun i hi => ?_
  have hpos : s + i - lo = s - lo + i := by omega
  simp only [BitVec.getLsbD_extractLsb', getLsbD_place, hpos]
  simp [show s + i < n by omega, show lo ≤ s + i by omega]

/-- A field read below the place of a value is 0. -/
@[simp] theorem extractLsb'_place_of_le {k n lo s : Nat} (v : BitVec k) (len : Nat) (h : s + len ≤ lo) :
    (place n v lo).extractLsb' s len = 0 := by
  refine BitVec.eq_of_getLsbD_eq fun i hi => ?_
  simp [getLsbD_place, show ¬ lo ≤ s + i by omega]

/-- A field read above all bits of a value is 0. -/
@[simp] theorem extractLsb'_eq_zero_of_le {k s : Nat} (v : BitVec k) (len : Nat) (h : k ≤ s) :
    v.extractLsb' s len = 0 := by
  refine BitVec.eq_of_getLsbD_eq fun i hi => ?_
  simp [BitVec.getLsbD_of_ge v (s + i) (by omega)]

@[simp] theorem extractLsb'_extractLsb' {n s k a len : Nat} (v : BitVec n) (h : a + len ≤ k) :
    (v.extractLsb' s k).extractLsb' a len = v.extractLsb' (s + a) len := by
  refine BitVec.eq_of_getLsbD_eq fun i hi => ?_
  simp [hi, Nat.add_assoc, show a + i < k by omega]

theorem ofBool_getLsbD {n : Nat} (v : BitVec n) (i : Nat) : BitVec.ofBool (v.getLsbD i) = v.extractLsb' i 1 := by
  refine BitVec.eq_of_getLsbD_eq fun j hj => ?_
  obtain rfl : j = 0 := by omega
  simp

theorem place_extractLsb'_self {n : Nat} (w : BitVec n) : place n (w.extractLsb' 0 n) 0 = w := by
  simp [place]

/-- Adjacent fields of one value join to the field that spans them. -/
theorem place_or_place {m : Nat} (n : Nat) (v : BitVec m) (s k j lo : Nat) :
    place n (v.extractLsb' (s + k) j) (lo + k) ||| place n (v.extractLsb' s k) lo =
      place n (v.extractLsb' s (k + j)) lo := by
  refine BitVec.eq_of_getLsbD_eq fun i hi => ?_
  simp only [BitVec.getLsbD_or, getLsbD_place, BitVec.getLsbD_extractLsb', hi]
  by_cases hlow : lo + k ≤ i
  · have hpos : s + k + (i - (lo + k)) = s + (i - lo) := by omega
    have hspan : (i - (lo + k) < j) ↔ (i - lo < k + j) := by omega
    simp [hlow, hpos, hspan, show lo ≤ i by omega, show ¬ i - lo < k by omega]
  · by_cases hin : lo ≤ i
    · simp [hlow, hin, show i - lo < k by omega, show i - lo < k + j by omega]
    · simp [hlow, hin]

/-! ## The formats (R78): every word is put together from its fields -/

theorem formatU_fields (w : Word) :
    place 32 (immUField w) 12 ||| place 32 (rdField w) 7 ||| place 32 (opcodeField w) 0 = w :=
  calc
    _ = place 32 (w.extractLsb' 7 25) 7 ||| place 32 (opcodeField w) 0 := by rw [← place_or_place 32 w 7 5 20 7]; rfl
    _ = place 32 (w.extractLsb' 0 32) 0 := place_or_place 32 w 0 7 25 0
    _ = w := place_extractLsb'_self w

theorem formatI_fields (w : Word) : place 32 (immIField w) 20 ||| place 32 (rdField w) 7 |||
    rs1Word (rs1Field w) (funct3Field w) (opcodeField w) = w := by
  have himm : place 32 (immUField w) 12 =
      place 32 (immIField w) 20 ||| place 32 (rs1Field w) 15 ||| place 32 (funct3Field w) 12 := by
    rw [immUField, ← place_or_place 32 w 12 3 17 12, ← place_or_place 32 w 15 5 12 15]; rfl
  calc
    _ = place 32 (immIField w) 20 ||| place 32 (rs1Field w) 15 ||| place 32 (funct3Field w) 12 |||
          place 32 (rdField w) 7 ||| place 32 (opcodeField w) 0 := by
      unfold rs1Word
      generalize place 32 (immIField w) 20 = i, place 32 (rs1Field w) 15 = r, place 32 (funct3Field w) 12 = f,
        place 32 (rdField w) 7 = d, place 32 (opcodeField w) 0 = o
      ac_rfl
    _ = w := by rw [← himm, formatU_fields]

theorem formatR_fields (w : Word) : place 32 (funct7Field w) 25 ||| place 32 (rs2Field w) 20 |||
    place 32 (rdField w) 7 ||| rs1Word (rs1Field w) (funct3Field w) (opcodeField w) = w := by
  have himm : place 32 (funct7Field w) 25 ||| place 32 (rs2Field w) 20 = place 32 (immIField w) 20 :=
    place_or_place 32 w 20 5 7 20
  rw [himm, formatI_fields]

theorem formatS_fields (w : Word) : place 32 ((immSField w).extractLsb' 5 7) 25 ||| place 32 (rs2Field w) 20 |||
    place 32 ((immSField w).extractLsb' 0 5) 7 ||| rs1Word (rs1Field w) (funct3Field w) (opcodeField w) = w := by
  have hhi : (immSField w).extractLsb' 5 7 = funct7Field w := by
    simp [immSField, funct7Field, BitVec.extractLsb'_or]
  have hlo : (immSField w).extractLsb' 0 5 = rdField w := by
    simp [immSField, rdField, BitVec.extractLsb'_or]
  rw [hhi, hlo, formatR_fields]

theorem formatB_fields (w : Word) : place 32 ((immBField w).extractLsb' 12 1) 31 |||
    place 32 ((immBField w).extractLsb' 5 6) 25 ||| place 32 (rs2Field w) 20 |||
    place 32 ((immBField w).extractLsb' 1 4) 8 ||| place 32 ((immBField w).extractLsb' 11 1) 7 |||
    rs1Word (rs1Field w) (funct3Field w) (opcodeField w) = w := by
  have hhi : place 32 ((immBField w).extractLsb' 12 1) 31 ||| place 32 ((immBField w).extractLsb' 5 6) 25 =
      place 32 (funct7Field w) 25 := by
    rw [funct7Field, ← place_or_place 32 w 25 6 1 25]
    simp [immBField, BitVec.extractLsb'_or]
  have hlo : place 32 ((immBField w).extractLsb' 1 4) 8 ||| place 32 ((immBField w).extractLsb' 11 1) 7 =
      place 32 (rdField w) 7 := by
    rw [rdField, ← place_or_place 32 w 7 1 4 7]
    simp [immBField, BitVec.extractLsb'_or]
  rw [hhi, BitVec.or_assoc (place 32 (funct7Field w) 25 ||| _), hlo, formatR_fields]

theorem formatAmo_fields (w : Word) : place 32 (funct5Field w) 27 ||| place 32 (BitVec.ofBool (aqField w)) 26 |||
    place 32 (BitVec.ofBool (rlField w)) 25 ||| place 32 (rs2Field w) 20 ||| place 32 (rdField w) 7 |||
    rs1Word (rs1Field w) (funct3Field w) (opcodeField w) = w := by
  have hhi : place 32 (funct5Field w) 27 ||| place 32 (BitVec.ofBool (aqField w)) 26 |||
      place 32 (BitVec.ofBool (rlField w)) 25 = place 32 (funct7Field w) 25 := by
    rw [funct7Field, ← place_or_place 32 w 25 1 6 25, ← place_or_place 32 w 26 1 5 26, aqField, rlField, ofBool_getLsbD,
      ofBool_getLsbD]
    rfl
  rw [hhi, formatR_fields]

/-! ## The immediates that a format splits -/

theorem immS_of_parts (imm : BitVec 12) :
    place 12 (imm.extractLsb' 5 7) 5 ||| place 12 (imm.extractLsb' 0 5) 0 = imm :=
  (place_or_place 12 imm 0 5 7 0).trans (place_extractLsb'_self imm)

/-- Bit 0 of a branch offset is not encoded (R79). -/
theorem immB_of_parts {off : BitVec 13} (h : offsetEven off = true) :
    place 13 (off.extractLsb' 12 1) 12 ||| place 13 (off.extractLsb' 11 1) 11 ||| place 13 (off.extractLsb' 5 6) 5 |||
      place 13 (off.extractLsb' 1 4) 1 = off := by
  have hzero : place 13 (off.extractLsb' 0 1) 0 = 0 := by
    rw [← ofBool_getLsbD, show off.getLsbD 0 = false by simpa [offsetEven] using h]; rfl
  calc
    _ = place 13 (off.extractLsb' 1 12) 1 ||| place 13 (off.extractLsb' 0 1) 0 := by
      rw [hzero, ← place_or_place 13 off 1 4 8 1, ← place_or_place 13 off 5 6 2 5, ← place_or_place 13 off 11 1 1 11]
      simp
    _ = place 13 (off.extractLsb' 0 13) 0 := place_or_place 13 off 0 1 12 0
    _ = off := place_extractLsb'_self off

/-! ## The words of an instruction -/

/-- `w` bears the fixed fields of the instruction's row (R80, R81) and its operands (R78, R79). -/
def HasFieldsOf (w : Word) : Instr → Prop
  | .lui rd imm => opcodeField w = 0b0110111#7 ∧ rdField w = rd ∧ immUField w = imm
  | .addi rd rs1 imm =>
    (opcodeField w = 0b0010011#7 ∧ funct3Field w = 0b000#3) ∧ rdField w = rd ∧ rs1Field w = rs1 ∧ immIField w = imm
  | .add rd rs1 rs2 =>
    (opcodeField w = 0b0110011#7 ∧ funct3Field w = 0b000#3 ∧ funct7Field w = 0b0000000#7) ∧
      rdField w = rd ∧ rs1Field w = rs1 ∧ rs2Field w = rs2
  | .bne rs1 rs2 off =>
    (opcodeField w = 0b1100011#7 ∧ funct3Field w = 0b001#3) ∧ rs1Field w = rs1 ∧ rs2Field w = rs2 ∧ immBField w = off
  | .lw rd rs1 imm =>
    (opcodeField w = 0b0000011#7 ∧ funct3Field w = 0b010#3) ∧ rdField w = rd ∧ rs1Field w = rs1 ∧ immIField w = imm
  | .sw rs2 rs1 imm =>
    (opcodeField w = 0b0100011#7 ∧ funct3Field w = 0b010#3) ∧ rs2Field w = rs2 ∧ rs1Field w = rs1 ∧ immSField w = imm
  | .amoaddW rd rs2 rs1 aq rl =>
    (opcodeField w = 0b0101111#7 ∧ funct3Field w = 0b010#3 ∧ funct5Field w = 0b00000#5) ∧
      rdField w = rd ∧ rs2Field w = rs2 ∧ rs1Field w = rs1 ∧ aqField w = aq ∧ rlField w = rl
  | .csrrw rd csr rs1 =>
    (opcodeField w = 0b1110011#7 ∧ funct3Field w = 0b001#3) ∧ rdField w = rd ∧ csrField w = csr ∧ rs1Field w = rs1
  | .csrrs rd csr rs1 =>
    (opcodeField w = 0b1110011#7 ∧ funct3Field w = 0b010#3) ∧ rdField w = rd ∧ csrField w = csr ∧ rs1Field w = rs1
  | .csrrc rd csr rs1 =>
    (opcodeField w = 0b1110011#7 ∧ funct3Field w = 0b011#3) ∧ rdField w = rd ∧ csrField w = csr ∧ rs1Field w = rs1
  | .sfenceVma rs1 rs2 =>
    (opcodeField w = 0b1110011#7 ∧ funct3Field w = 0b000#3 ∧ funct7Field w = 0b0001001#7 ∧ rdField w = 0b00000#5) ∧
      rs1Field w = rs1 ∧ rs2Field w = rs2

/-- The encoder puts each operand where its field is read: a field is a part of the operand placed there
(`extractLsb'_place`), and every other part of the concatenation is 0 in it. -/
theorem hasFieldsOf_encode {i : Instr} (h : i.wf = true) : HasFieldsOf (encode i) i := by
  cases i <;>
    simp [HasFieldsOf, encode, rs1Word, opcodeField, rdField, funct3Field, rs1Field, rs2Field, funct7Field, funct5Field,
      immIField, csrField, immUField, immSField, immBField, aqField, rlField, BitVec.extractLsb'_or,
      BitVec.extractLsb'_eq_self]
  case bne rs1 rs2 off => exact immB_of_parts h
  case sw rs2 rs1 imm => exact immS_of_parts imm

theorem wf_of_hasFieldsOf {w : Word} {i : Instr} (h : HasFieldsOf w i) : i.wf = true := by
  cases i with
  | bne rs1 rs2 off =>
    obtain ⟨-, -, -, rfl⟩ := h
    simp [Instr.wf, offsetEven, immBField]
  | _ => rfl

/-- The fields of an instruction fill its word. -/
theorem encode_eq_of_hasFieldsOf {w : Word} {i : Instr} (h : HasFieldsOf w i) : encode i = w := by
  cases i with
  | lui rd imm =>
    obtain ⟨hop, rfl, rfl⟩ := h
    rw [encode, ← hop, formatU_fields]
  | addi rd rs1 imm | lw rd rs1 imm =>
    obtain ⟨⟨hop, hf3⟩, rfl, rfl, rfl⟩ := h
    rw [encode, ← hop, ← hf3, formatI_fields]
  | add rd rs1 rs2 =>
    obtain ⟨⟨hop, hf3, hf7⟩, rfl, rfl, rfl⟩ := h
    rw [encode, ← hop, ← hf3, ← hf7, formatR_fields]
  | bne rs1 rs2 off =>
    obtain ⟨⟨hop, hf3⟩, rfl, rfl, rfl⟩ := h
    rw [encode, ← hop, ← hf3, formatB_fields]
  | sw rs2 rs1 imm =>
    obtain ⟨⟨hop, hf3⟩, rfl, rfl, rfl⟩ := h
    rw [encode, ← hop, ← hf3, formatS_fields]
  | amoaddW rd rs2 rs1 aq rl =>
    obtain ⟨⟨hop, hf3, hf5⟩, rfl, rfl, rfl, rfl, rfl⟩ := h
    rw [encode, ← hop, ← hf3, ← hf5, formatAmo_fields]
  | csrrw rd csr rs1 | csrrs rd csr rs1 | csrrc rd csr rs1 =>
    obtain ⟨⟨hop, hf3⟩, rfl, rfl, rfl⟩ := h
    rw [encode, ← hop, ← hf3]
    exact formatI_fields w
  | sfenceVma rs1 rs2 =>
    obtain ⟨⟨hop, hf3, hf7, hrd⟩, rfl, rfl⟩ := h
    rw [encode, ← hop, ← hf3, ← hf7, ← hrd, formatR_fields]

/-! ## The decoder -/

/-- The fixed fields of a row fail the tests of every row before it. -/
theorem decodeWord_of_hasFieldsOf {w : Word} {i : Instr} (h : HasFieldsOf w i) : decodeWord w = .ok i := by
  cases i <;> simp only [HasFieldsOf] at h <;> simp [decodeWord, decodeSystem, h]

/-- `decodeWord_cases` for the words with opcode 1110011. -/
theorem decodeSystem_cases {w : Word} (hop : opcodeField w = 0b1110011#7) :
    (∃ i, decodeSystem w = .ok i ∧ HasFieldsOf w i) ∨ decodeSystem w = .error (.noRow w) := by
  generalize hd : decodeSystem w = d
  unfold decodeSystem at hd
  split_ifs at hd with hcsrrw hcsrrs hcsrrc hsfence <;> subst hd
  · exact .inl ⟨_, rfl, ⟨hop, hcsrrw⟩, rfl, rfl, rfl⟩
  · exact .inl ⟨_, rfl, ⟨hop, hcsrrs⟩, rfl, rfl, rfl⟩
  · exact .inl ⟨_, rfl, ⟨hop, hcsrrc⟩, rfl, rfl, rfl⟩
  · exact .inl ⟨_, rfl, ⟨hop, hsfence⟩, rfl, rfl⟩
  · exact .inr rfl

/-- What the decoder answers: an instruction whose fields the word has, or the rejection of the word. -/
theorem decodeWord_cases (w : Word) :
    (∃ i, decodeWord w = .ok i ∧ HasFieldsOf w i) ∨ decodeWord w = .error (.noRow w) := by
  generalize hd : decodeWord w = d
  unfold decodeWord at hd
  split_ifs at hd with hlui haddi hadd hbne hlw hsw hamoadd hsystem <;> subst hd
  · exact .inl ⟨_, rfl, hlui, rfl, rfl⟩
  · exact .inl ⟨_, rfl, haddi, rfl, rfl, rfl⟩
  · exact .inl ⟨_, rfl, hadd, rfl, rfl, rfl⟩
  · exact .inl ⟨_, rfl, hbne, rfl, rfl, rfl⟩
  · exact .inl ⟨_, rfl, hlw, rfl, rfl, rfl⟩
  · exact .inl ⟨_, rfl, hsw, rfl, rfl, rfl⟩
  · exact .inl ⟨_, rfl, hamoadd, rfl, rfl, rfl, rfl, rfl⟩
  · exact decodeSystem_cases hsystem
  · exact .inr rfl

theorem decodeWord_eq_ok_iff {w : Word} {i : Instr} : decodeWord w = .ok i ↔ HasFieldsOf w i := by
  refine ⟨fun h => ?_, decodeWord_of_hasFieldsOf⟩
  rcases decodeWord_cases w with ⟨j, hj, hfields⟩ | herr
  · obtain rfl : j = i := by simpa [hj] using h
    exact hfields
  · simp [herr] at h

/-! ## Encoding and decoding are inverse -/

/-- The bytes of a word make up the word (R44). -/
theorem wordOfBytes_byteOfWord (w : Word) :
    wordOfBytes (byteOfWord w 0) (byteOfWord w 1) (byteOfWord w 2) (byteOfWord w 3) = w :=
  calc
    _ = place 32 (w.extractLsb' 0 32) 0 := by
      rw [← place_or_place 32 w 0 8 24 0, ← place_or_place 32 w 8 8 16 8, ← place_or_place 32 w 16 8 8 16]; rfl
    _ = w := place_extractLsb'_self w

/-- Settles O2. The encoder puts the fields where the decoder reads them, and the bytes of the word make it up. -/
theorem decodeOfEncodeIsInstruction : Obligations.DecodeOfEncodeIsInstruction := by
  intro i rest hwf
  have hword : decodeWord (encode i) = .ok i := decodeWord_eq_ok_iff.mpr (hasFieldsOf_encode hwf)
  refine ⟨hword, ?_⟩
  simp [encodeBytes, List.range_succ, decodeBytes, wordOfBytes_byteOfWord, hword]

/-- Settles O3. The decoded instruction's fields are the word's, and the fields of a format fill the word. -/
theorem encodeOfDecodeIsWord : Obligations.EncodeOfDecodeIsWord := fun _ _ h =>
  have hfields := decodeWord_eq_ok_iff.mp h
  ⟨wf_of_hasFieldsOf hfields, encode_eq_of_hasFieldsOf hfields⟩

/-! ## The opcode map (R80) -/

/-- A field that a row's mask keeps whole is the pattern's in every word of the row. -/
theorem extractLsb'_of_and_eq {w mask pattern : Word} {s len : Nat} (h : w &&& mask = pattern)
    (hmask : mask.extractLsb' s len = BitVec.allOnes len) : w.extractLsb' s len = pattern.extractLsb' s len := by
  rw [← h, BitVec.extractLsb'_and, hmask, BitVec.and_allOnes]

theorem exists_decodeWord_of_row {row : OpcodeRow} (hrow : row ∈ opcodeRows) {w : Word}
    (h : w &&& row.mask = row.pattern) : ∃ i, decodeWord w = .ok i ∧ mnemonicOf i = row.mnemonic := by
  suffices ∃ i, HasFieldsOf w i ∧ mnemonicOf i = row.mnemonic by simpa [decodeWord_eq_ok_iff] using this
  have field {s len : Nat} (hmask : row.mask.extractLsb' s len = BitVec.allOnes len) :=
    extractLsb'_of_and_eq h hmask
  simp only [opcodeRows, List.mem_cons, List.not_mem_nil, or_false] at hrow
  rcases hrow with rfl | rfl | rfl | rfl | rfl | rfl | rfl | rfl | rfl | rfl | rfl
  · exact ⟨.lui _ _, ⟨field rfl, rfl, rfl⟩, rfl⟩
  · exact ⟨.addi _ _ _, ⟨⟨field rfl, field rfl⟩, rfl, rfl, rfl⟩, rfl⟩
  · exact ⟨.add _ _ _, ⟨⟨field rfl, field rfl, field rfl⟩, rfl, rfl, rfl⟩, rfl⟩
  · exact ⟨.bne _ _ _, ⟨⟨field rfl, field rfl⟩, rfl, rfl, rfl⟩, rfl⟩
  · exact ⟨.lw _ _ _, ⟨⟨field rfl, field rfl⟩, rfl, rfl, rfl⟩, rfl⟩
  · exact ⟨.sw _ _ _, ⟨⟨field rfl, field rfl⟩, rfl, rfl, rfl⟩, rfl⟩
  · exact ⟨.amoaddW _ _ _ _ _, ⟨⟨field rfl, field rfl, field rfl⟩, rfl, rfl, rfl, rfl, rfl⟩, rfl⟩
  · exact ⟨.csrrw _ _ _, ⟨⟨field rfl, field rfl⟩, rfl, rfl, rfl⟩, rfl⟩
  · exact ⟨.csrrs _ _ _, ⟨⟨field rfl, field rfl⟩, rfl, rfl, rfl⟩, rfl⟩
  · exact ⟨.csrrc _ _ _, ⟨⟨field rfl, field rfl⟩, rfl, rfl, rfl⟩, rfl⟩
  · exact ⟨.sfenceVma _ _, ⟨⟨field rfl, field rfl, field rfl, field rfl⟩, rfl, rfl⟩, rfl⟩

theorem encode_matches_row (i : Instr) : Laws.EncodeRow.Statement i := by
  cases i with
  | lui rd imm => exact Laws.EncodeRow.lui rd imm
  | addi rd rs1 imm => exact Laws.EncodeRow.addi rd rs1 imm
  | add rd rs1 rs2 => exact Laws.EncodeRow.add rd rs1 rs2
  | bne rs1 rs2 offset => exact Laws.EncodeRow.bne rs1 rs2 offset
  | lw rd rs1 imm => exact Laws.EncodeRow.lw rd rs1 imm
  | sw rs2 rs1 imm => exact Laws.EncodeRow.sw rs2 rs1 imm
  | amoaddW rd rs2 rs1 aq rl => exact Laws.EncodeRow.amoaddW rd rs2 rs1 aq rl
  | csrrw rd csr rs1 => exact Laws.EncodeRow.csrrw rd csr rs1
  | csrrs rd csr rs1 => exact Laws.EncodeRow.csrrs rd csr rs1
  | csrrc rd csr rs1 => exact Laws.EncodeRow.csrrc rd csr rs1
  | sfenceVma rs1 rs2 => exact Laws.EncodeRow.sfenceVma rs1 rs2

theorem exists_row_of_decodeWord {w : Word} {i : Instr} (h : decodeWord w = .ok i) :
    ∃ row ∈ opcodeRows, row.mnemonic = mnemonicOf i ∧ w &&& row.mask = row.pattern := by
  have hrow := encode_matches_row i
  rwa [Laws.EncodeRow.Statement, encode_eq_of_hasFieldsOf (decodeWord_eq_ok_iff.mp h)] at hrow

theorem opcodeRow_eq_of_mnemonic_eq :
    ∀ row ∈ opcodeRows, ∀ other ∈ opcodeRows, other.mnemonic = row.mnemonic → other = row := by decide

/-- Rows whose patterns differ at a bit both masks keep share no word. -/
theorem not_both_of_pattern_ne {r q : OpcodeRow} (h : r.pattern &&& q.mask ≠ q.pattern &&& r.mask) (w : Word) :
    ¬ (w &&& r.mask = r.pattern ∧ w &&& q.mask = q.pattern) := by
  rintro ⟨hr, hq⟩
  rw [← hr, ← hq, BitVec.and_assoc, BitVec.and_assoc, BitVec.and_comm r.mask] at h
  exact h rfl

/-- Settles O1. A row fixes the fields the decoder asks for, and each decoded word is an encoding, which has its row. -/
theorem decodeFollowsOpcodeTable : Obligations.DecodeFollowsOpcodeTable := by
  refine ⟨fun row hrow w => ⟨exists_decodeWord_of_row hrow, ?_⟩, fun w hno => ?_,
    List.Pairwise.imp not_both_of_pattern_ne (by decide)⟩
  · rintro ⟨i, hdecode, hname⟩
    obtain ⟨other, hother, hmn, hmatch⟩ := exists_row_of_decodeWord hdecode
    obtain rfl := opcodeRow_eq_of_mnemonic_eq row hrow other hother (hmn.trans hname)
    exact hmatch
  · rcases decodeWord_cases w with ⟨i, hdecode, -⟩ | herror
    · obtain ⟨row, hrow, -, hmatch⟩ := exists_row_of_decodeWord hdecode
      exact absurd hmatch (hno row hrow)
    · exact herror

end Sys2Proof

/-! # Addressing and protection (40_addressing_and_protection.md) -/

namespace Sys2Proof.Machine

/-! ## RSW (R113) -/

/-- A PTE with RSW cleared, every other bit as it was. -/
def clearRsw (pte : Word) : Word := pte &&& 0xFFFFFCFF#32

@[simp] theorem pteV_clearRsw (pte : Word) : pteV (clearRsw pte) = pteV pte := by simp [pteV, clearRsw]
@[simp] theorem pteR_clearRsw (pte : Word) : pteR (clearRsw pte) = pteR pte := by simp [pteR, clearRsw]
@[simp] theorem pteW_clearRsw (pte : Word) : pteW (clearRsw pte) = pteW pte := by simp [pteW, clearRsw]
@[simp] theorem pteX_clearRsw (pte : Word) : pteX (clearRsw pte) = pteX pte := by simp [pteX, clearRsw]
@[simp] theorem pteU_clearRsw (pte : Word) : pteU (clearRsw pte) = pteU pte := by simp [pteU, clearRsw]
@[simp] theorem pteG_clearRsw (pte : Word) : pteG (clearRsw pte) = pteG pte := by simp [pteG, clearRsw]
@[simp] theorem pteA_clearRsw (pte : Word) : pteA (clearRsw pte) = pteA pte := by simp [pteA, clearRsw]
@[simp] theorem pteD_clearRsw (pte : Word) : pteD (clearRsw pte) = pteD pte := by simp [pteD, clearRsw]

/-- A field that the mask keeps whole holds no bit of RSW. -/
theorem extractLsb'_clearRsw {lo len : Nat} (hmask : (0xFFFFFCFF#32).extractLsb' lo len = BitVec.allOnes len)
    (pte : Word) : (clearRsw pte).extractLsb' lo len = pte.extractLsb' lo len := by
  rw [clearRsw, BitVec.extractLsb'_and, hmask, BitVec.and_allOnes]

@[simp] theorem ptePpn_clearRsw (pte : Word) : ptePpn (clearRsw pte) = ptePpn pte :=
  extractLsb'_clearRsw (by decide) pte
@[simp] theorem ptePpn1_clearRsw (pte : Word) : ptePpn1 (clearRsw pte) = ptePpn1 pte :=
  extractLsb'_clearRsw (by decide) pte
@[simp] theorem ptePpn0_clearRsw (pte : Word) : ptePpn0 (clearRsw pte) = ptePpn0 pte :=
  extractLsb'_clearRsw (by decide) pte

@[simp] theorem pteClass_clearRsw (pte : Word) : pteClass (clearRsw pte) = pteClass pte := by simp [pteClass]

@[simp] theorem permitted_clearRsw (pte : Word) (acc : AccessType) (priv : Priv) (sum mxr : Bool) :
    permitted (clearRsw pte) acc priv sum mxr = permitted pte acc priv sum mxr := by
  simp [permitted, uOk, rwxOk]

@[simp] theorem needsUpdate_clearRsw (pte : Word) (acc : AccessType) :
    needsUpdate (clearRsw pte) acc = needsUpdate pte acc := by
  simp [needsUpdate]

@[simp] theorem inspect_clearRsw (e : Mmu) (acc : AccessType) (priv : Priv) (i : Level) (pte : Word) :
    inspect e acc priv i (clearRsw pte) = inspect e acc priv i pte := by
  simp [inspect, pointerReservedSet]

@[simp] theorem finalPa_clearRsw (i : Level) (pte va : Word) : finalPa i (clearRsw pte) va = finalPa i pte va := by
  cases i <;> simp [finalPa]

/-- Settles O40: whatever a translation takes from a PTE it takes from that PTE with RSW cleared, and the bits that step
7 and a speculative walk set are not those of RSW. -/
theorem rswIsIgnoredAndKept : Obligations.RswIsIgnoredAndKept := by
  constructor
  · intro e acc priv i va pte pte' heq
    have hclear : clearRsw pte = clearRsw pte' := heq
    rw [← inspect_clearRsw, ← finalPa_clearRsw, ← needsUpdate_clearRsw, ← pteG_clearRsw, hclear]
    exact ⟨inspect_clearRsw e acc priv i pte', finalPa_clearRsw i pte' va, needsUpdate_clearRsw pte' acc,
      pteG_clearRsw pte'⟩
  · intro acc pte
    have hA : (0x40#32).extractLsb' 8 2 = 0#2 := by decide
    have hAD : (if acc = .store then 0x80#32 else 0#32).extractLsb' 8 2 = 0#2 := by split <;> decide
    simp [setAD, setA, BitVec.extractLsb'_or, hA, hAD]

/-! ## Leaves that do not permit the access -/

/-- A leaf that does not permit the access is refused by step 5 (R137). -/
theorem inspect_of_leaf_not_permitted {e : Mmu} {acc : AccessType} {priv : Priv} {pte : Word}
    (hclass : pteClass pte = .leaf) (hperm : permitted pte acc priv e.sum e.mxr = false) (i : Level) :
    inspect e acc priv i pte = .pageFault := by
  cases i with
  | one => simp [inspect_one_of_leaf hclass, hperm]
  | zero => simp [inspect_zero_of_leaf hclass, hperm]

section
variable {e : Mmu} {spec : Bool} {land : List Event → MemSys → MemSys} {acc : AccessType} {va : Word} {priv : Priv}
  {i : Level} {a : PhysAddr} {gAbove fresh : Bool} {m m' : MemSys} {r : PteRead}

/-- A pass that reads a PTE steps 3 to 6 refuse is the last one: it page-faults, and changes nothing further. -/
theorem walk_of_refusedRead
    (hread : step2Read e spec (accessPoint land m).1 acc va i a gAbove fresh (accessPoint land m).2 = .ok r m')
    (hrefused : inspect e acc priv i r.pte = .pageFault) (n : Nat) :
    walk e spec land acc va priv (n + 1) i a gAbove fresh m = .raised ⟨.pageFault acc, va⟩ m' := by
  simp [walk, hread, MRes.bind, hrefused]

/-- A pass that reads a leaf which does not permit the access page-faults, wherever the leaf comes from (R137). -/
theorem walk_of_leafRead_not_permitted
    (hread : step2Read e spec (accessPoint land m).1 acc va i a gAbove fresh (accessPoint land m).2 = .ok r m')
    (hclass : pteClass r.pte = .leaf) (hperm : permitted r.pte acc priv e.sum e.mxr = false) (n : Nat) :
    walk e spec land acc va priv (n + 1) i a gAbove fresh m = .raised ⟨.pageFault acc, va⟩ m' :=
  walk_of_refusedRead hread (inspect_of_leaf_not_permitted hclass hperm i) n

end

/-- A pointer is valid and grants nothing (R75). -/
theorem pteClass_eq_pointer_iff {pte : Word} :
    pteClass pte = .pointer ↔ pteV pte = true ∧ pteR pte = false ∧ pteW pte = false ∧ pteX pte = false := by
  unfold pteClass
  cases pteV pte <;> cases pteR pte <;> cases pteW pte <;> cases pteX pte <;> decide

/-- A leaf that cannot be read cannot be written: W without R is reserved (R75, R104). -/
theorem pteW_of_leaf_unreadable {pte : Word} (hclass : pteClass pte = .leaf) (hr : pteR pte = false) :
    pteW pte = false := by
  cases hw : pteW pte with
  | false => rfl
  | true => cases hv : pteV pte <;> simp [pteClass, hv, hr, hw] at hclass

/-! ## What an access raises -/

/-- An exception that an access of type `acc` to `va` raises by its translation or its final check (R230, D22). -/
def Exn.OfAccess (x : Exn) (acc : AccessType) (va : Word) : Prop :=
  (x.kind = .pageFault acc ∨ x.kind = .accessFault acc) ∧ x.tval = va

/-- What a result raises, if it raises, has the property. -/
def MRes.Raises {α : Type} (Q : Exn → Prop) : MRes α → Prop
  | .raised x _ => Q x
  | .ok _ _     => True
  | .stuck _    => True

theorem MRes.Raises.bind {α β : Type} {Q : Exn → Prop} {r : MRes α} {k : α → MemSys → MRes β} (hr : r.Raises Q)
    (hk : ∀ a m, (k a m).Raises Q) : (r.bind k).Raises Q := by
  cases r with
  | ok a m => exact hk a m
  | raised x m => exact hr
  | stuck f => trivial

/-- The comparison of step 7 raises nothing, and where it fails it changes nothing (R139). -/
theorem compareAndSet_cases (e : Mmu) (spec : Bool) (c : Choice) (acc : AccessType) (va : Word) (i : Level)
    (gAbove : Bool) (r : PteRead) (m : MemSys) :
    (∃ m', compareAndSet e spec c acc va i gAbove r m = .done m') ∨
    compareAndSet e spec c acc va i gAbove r m = .retry m ∨
    (∃ f, compareAndSet e spec c acc va i gAbove r m = .stuck f) := by
  unfold compareAndSet
  split
  · exact .inl ⟨m, rfl⟩
  · cases readWord m.mem r.addr with
    | none =>
      cases spec with
      | false => exact .inr (.inr ⟨_, rfl⟩)
      | true => exact .inl ⟨m, rfl⟩
    | some cur =>
      dsimp only
      split
      · exact .inl ⟨_, rfl⟩
      · exact .inr (.inl rfl)

/-- Step 7 raises a page fault or an access fault of the access's type, and changes nothing then (R116, R139). -/
theorem step7_raised {e : Mmu} {spec : Bool} {land : List Event → MemSys → MemSys} {acc : AccessType} {va : Word}
    {i : Level} {gAbove : Bool} {r : PteRead} {m m' : MemSys} {k : ExcKind}
    (h : step7 e spec land acc va i gAbove r m = .raised k m') :
    (k = .pageFault acc ∨ k = .accessFault acc) ∧ m' = m := by
  unfold step7 at h
  split at h
  · simp at h
  · split at h
    · injection h with hk hm
      exact ⟨.inl hk.symm, hm.symm⟩
    · split at h
      · injection h with hk hm
        exact ⟨.inr hk.symm, hm.symm⟩
      · rcases compareAndSet_cases e spec (accessPoint land m).1 acc va i gAbove r (accessPoint land m).2 with
          ⟨m1, hc⟩ | hc | ⟨f, hc⟩ <;> simp [hc] at h

theorem walk_raises (e : Mmu) (spec : Bool) (land : List Event → MemSys → MemSys) (acc : AccessType) (va : Word)
    (priv : Priv) (n : Nat) (i : Level) (a : PhysAddr) (gAbove fresh : Bool) (m : MemSys) :
    (walk e spec land acc va priv n i a gAbove fresh m).Raises (·.OfAccess acc va) := by
  induction n generalizing i a gAbove fresh m with
  | zero => trivial
  | succ n ih =>
    have hread : (step2Read e spec (accessPoint land m).1 acc va i a gAbove fresh (accessPoint land m).2).Raises
        (·.OfAccess acc va) := by
      cases hq : step2Read e spec (accessPoint land m).1 acc va i a gAbove fresh (accessPoint land m).2 with
      | ok r m2 => trivial
      | raised x m2 =>
        obtain ⟨rfl, -⟩ := step2Read_raised hq
        exact ⟨.inr rfl, rfl⟩
      | stuck f => trivial
    refine hread.bind fun r m2 => ?_
    cases inspect e acc priv i r.pte with
    | pageFault => exact ⟨.inl rfl, rfl⟩
    | descend a' => exact ih _ _ _ _ _
    | leaf =>
      dsimp only
      cases hs : step7 e spec land acc va i gAbove r m2 with
      | done m3 => trivial
      | raised k m3 => exact ⟨(step7_raised hs).1, rfl⟩
      | retry m3 => exact ih _ _ _ _ _
      | stuck f => trivial

theorem translate_raises (e : Mmu) (acc : AccessType) (va : Word) (priv : Priv) (m : MemSys) :
    (translate e acc va priv m).Raises (·.OfAccess acc va) := by
  unfold translate
  split
  · trivial
  · exact walk_raises e false _ acc va priv _ _ _ _ _ m

/-- An explicit access raises exceptions of its own type and address only, by its translation or by its final check. -/
theorem resolve_raises (e : Mmu) (acc : AccessType) (va : Word) (priv : Priv) (m : MemSys) :
    (resolve e acc va priv m).Raises (·.OfAccess acc va) := by
  refine (translate_raises e acc va priv m).bind fun pa m1 => ?_
  split
  · trivial
  · exact ⟨.inr rfl, rfl⟩

/-- An AMO raises as the one store translation it makes: its read and write raise nothing (R104, R200). -/
theorem memAmo_raises (e : Mmu) (va : Word) (priv : Priv) (f : Word → Word) (m : MemSys) :
    (memAmo e va priv f m).Raises (·.OfAccess .store va) := by
  refine (resolve_raises e .store va priv m).bind fun pa m1 => ?_
  unfold readMem
  split <;> trivial

/-- An AMOADD.W that traps does so by its alignment check or by its store translation (R60, R200, R234). -/
theorem exec_amoaddW_trapped {rd rs2 rs1 : RegIdx} {aq rl : Bool} {s t : State} {r : TrapRecord} (hs : s.trap = none)
    (h : exec (.amoaddW rd rs2 rs1 aq rl) s = .next t) (ht : t.trap = some r) :
    r.kind = .storeAddressMisaligned ∨ r.kind = .pageFault .store ∨ r.kind = .accessFault .store := by
  simp only [exec, execAmoaddW] at h
  split at h
  · have hraises := memAmo_raises s.mmu (s.x rs1) (effPriv s .store) (fun w => w + s.x rs2) s.ms
    rcases finish_cases h with ⟨v, m', -, hk⟩ | ⟨x, m', hx, rfl⟩
    · injection hk with hk
      simp [← hk, hs] at ht
    · rw [hx] at hraises
      obtain ⟨hkind, -⟩ := hraises
      rw [takeTrap_trap, Option.some.injEq] at ht
      exact .inr (ht ▸ hkind)
  · injection h with h
    rw [← h, takeTrap_trap, Option.some.injEq] at ht
    exact .inl (ht ▸ rfl)

/-- Settles O17. An AMO is translated as a store; and a leaf that cannot be read cannot be written either, so it refuses
the store translation, whatever MXR is. -/
theorem amoRaisesStoreKindsOnly : Obligations.AmoRaisesStoreKindsOnly := by
  refine ⟨fun rd rs2 rs1 aq rl s t r hs h ht => exec_amoaddW_trapped hs h ht,
    fun e land va priv n i a gAbove fresh m m' r hread hclass hr => ?_⟩
  have hperm : permitted r.pte .store priv e.sum e.mxr = false := by
    simp [permitted, rwxOk, pteW_of_leaf_unreadable hclass hr]
  exact walk_of_leafRead_not_permitted hread hclass hperm n

/-! ## The faulting scheme writes no memory -/

section
variable {e : Mmu} (hs : e.cfg.adScheme = .fault)

include hs in
/-- Under the faulting scheme a speculative walk sets no A (R116, R168). -/
theorem specWalk_mem_of_fault (va : Word) (acc : AccessType) (priv : Priv) (cs : List Choice) (m : MemSys) :
    (specWalk e va acc priv cs m).mem = m.mem :=
  specWalk_leaves (P := fun m' => m'.mem = m.mem) (fun _ _ hm => hm) (fun m f t hm _ => by simpa using hm)
    (fun _ _ _ _ _ _ hupdate => by simp [hs] at hupdate) va acc priv cs rfl

include hs in
theorem applyEvents_mem_of_fault {evs : List Event} (hevs : ∀ ev ∈ evs, ∀ pa b, ev ≠ Event.store pa b) (m : MemSys) :
    (applyEvents e evs m).mem = m.mem := by
  induction evs generalizing m with
  | nil => rfl
  | cons ev evs ih =>
    obtain ⟨hev, hrest⟩ := List.forall_mem_cons.mp hevs
    have hone : (applyEvent e ev m).mem = m.mem := by
      cases ev with
      | store pa b => exact absurd rfl (hev pa b)
      | evict k => rfl
      | specWalk va acc priv cs => exact specWalk_mem_of_fault hs va acc priv cs m
    exact (ih hrest _).trans hone

end

theorem popDraw_events_of_noForeignStores {m : MemSys} (h : NoForeignStores m) :
    ∀ ev ∈ (popDraw m).1.events, ∀ pa b, ev ≠ Event.store pa b := by
  rcases popDraw_draw m with hd | hd
  · exact h _ hd
  · simp [hd, Draw.quiet]

theorem atAccess_noForeignStores {m : MemSys} (h : NoForeignStores m) (e : Mmu) : NoForeignStores (atAccess e m).2 :=
  (OnlyASetSince.afterAccess ⟨h, OnlyASet.refl m.mem⟩ e).noStores

/-- Under the faulting scheme a translation writes nothing, and neither do the agents that land in it. -/
theorem translate_mem_of_fault {e : Mmu} (hs : e.cfg.adScheme = .fault) (acc : AccessType) (va : Word) (priv : Priv)
    {m : MemSys} (h : NoForeignStores m) :
    (translate e acc va priv m).Leaves (fun m' => NoForeignStores m' ∧ m'.mem = m.mem) := by
  unfold translate
  split
  · exact ⟨h, rfl⟩
  · refine walk_leaves_writtenPte (fun m1 f t h1 _ => ?_) (fun _ _ _ _ _ _ hupdate => by simp [hs] at hupdate)
      (fun m1 ⟨hquiet, hmem⟩ => ⟨atAccess_noForeignStores hquiet e, ?_⟩) _ _ _ _ _ _ ⟨h, rfl⟩
    · simpa [NoForeignStores] using h1
    · have hevents := applyEvents_mem_of_fault hs (popDraw_events_of_noForeignStores hquiet) (popDraw m1).2
      exact hevents.trans ((popDraw_mem m1).trans hmem)

/-- Settles O36: the only write of a walk, speculative ones included, is that of step 7, and the faulting scheme never
comes to it. -/
theorem faultSchemeNeverWritesMemory : Obligations.FaultSchemeNeverWritesMemory := by
  intro e acc va priv m m' hs h
  have hkept := translate_mem_of_fault hs acc va priv h
  refine ⟨fun x heq => ?_, fun pa heq => ?_⟩ <;> rw [heq] at hkept <;> exact hkept.2

/-! ## What a walk reads while no other agent acts -/

/-- Steps 3 to 6 go down only through a pointer that step 3 does not refuse (R135). -/
theorem not_refusedByStep3_of_descend {e : Mmu} {acc : AccessType} {priv : Priv} {i : Level} {pte : Word}
    {a : PhysAddr} (h : inspect e acc priv i pte = .descend a) : ¬ refusedByStep3 e pte := by
  obtain ⟨rfl, hclass, -⟩ := inspect_descend h
  rw [inspect_one_of_pointer hclass] at h
  obtain ⟨hv, hr, hw, hx⟩ := pteClass_eq_pointer_iff.mp hclass
  simp only [refusedByStep3, hv, hr, hw, hx]
  split at h
  · simp at h
  · next hdau => simpa [or_assoc] using hdau

theorem wordSeen_implicitRead (e : Mmu) (c : Choice) (fresh : Bool) (addr : PhysAddr) (m : MemSys) :
    wordSeen e m addr (implicitRead e.cfg.implicitReads c fresh addr m) := by
  rcases implicitRead_cases e.cfg.implicitReads c fresh addr m with h | ⟨hv, -, hmem⟩
  · exact .inl h.symm
  · exact .inr ⟨hv, hmem⟩

/-- What a walk for `va` that began in `m0` has come to when it makes a pass at level `i`, while no other agent acts:
memory and the unfenced stores are as they were, some reads brought it to this table, and an entry put into the cache
since then is one that no later read of this walk takes from there: its level is above, or the pass is a re-read. -/
structure WalkAt (e : Mmu) (spec : Bool) (m0 : MemSys) (va : Word) (i : Level) (a : PhysAddr) (gAbove fresh : Bool)
    (m : MemSys) : Prop where
  mem         : m.mem = m0.mem
  unfenced    : m.unfenced = m0.unfenced
  undisturbed : Undisturbed m
  visit       : mayVisit e spec m0 va i a gAbove
  entries     : ∀ t ∈ m.atc, t ∈ m0.atc ∨ (t.level = i ∧ fresh = true) ∨ (t.level = .one ∧ i = .zero)

/-- A step-2 read that answers adds at most an entry of its own level, and changes nothing else (R162). -/
theorem step2Read_ok_frame {e : Mmu} {spec : Bool} {c : Choice} {acc : AccessType} {va : Word} {i : Level}
    {a : PhysAddr} {gAbove fresh : Bool} {m m' : MemSys} {r : PteRead}
    (h : step2Read e spec c acc va i a gAbove fresh m = .ok r m') :
    m'.mem = m.mem ∧ m'.unfenced = m.unfenced ∧ m'.draws = m.draws ∧ ∀ t ∈ m'.atc, t ∈ m.atc ∨ t.level = i := by
  rcases step2Read_ok h with ⟨t, -, -, -, rfl⟩ | ⟨-, -, -, -, rfl⟩
  · exact ⟨rfl, rfl, rfl, fun t ht => .inl ht⟩
  · refine ⟨fillAtc_mem _ _ _, fillAtc_unfenced _ _ _, fillAtc_draws _ _ _, fun t ht => ?_⟩
    rcases fillAtc_atc c.fill (entryOf va (satpAsid e.satp) i r.global r.addr r.pte) m with heq | heq
    · exact .inl (heq ▸ ht)
    · rw [heq] at ht
      exact (List.mem_cons.mp ht).symm.imp_right fun ht => by rw [ht]; rfl

/-- Step 7 returns to step 2 only from a failed comparison, with the draw of its access taken. -/
theorem step7_retry {e : Mmu} {spec : Bool} {land : List Event → MemSys → MemSys} {acc : AccessType} {va : Word}
    {i : Level} {gAbove : Bool} {r : PteRead} {m m' : MemSys}
    (h : step7 e spec land acc va i gAbove r m = .retry m') : m' = (accessPoint land m).2 := by
  rcases step7_cases e spec land acc va i gAbove r m with h' | ⟨k, h'⟩ | ⟨-, -, h'⟩
  · simp [h'] at h
  · simp [h'] at h
  · rcases compareAndSet_cases e spec (accessPoint land m).1 acc va i gAbove r (accessPoint land m).2 with
      ⟨m1, hc⟩ | hc | ⟨f, hc⟩
    · simp [h', hc] at h
    · simpa [h', hc] using h.symm
    · simp [h', hc] at h

/-- An entry hits at its own level only (R163). -/
theorem level_of_hit {t : AtcEntry} {i : Level} {va : Word} {asid : Asid} (h : hit t i va asid = true) :
    t.level = i := by
  simp only [hit, Bool.and_eq_true, decide_eq_true_eq] at h
  obtain ⟨⟨⟨hlevel, -⟩, -⟩, -⟩ := h
  exact hlevel

namespace WalkAt

variable {e : Mmu} {spec : Bool} {m0 : MemSys} {va : Word} {i : Level} {a : PhysAddr} {gAbove fresh : Bool} {m : MemSys}

/-- A walk comes to its first pass with nothing done. -/
theorem root (h : Undisturbed m0) : WalkAt e spec m0 va .one (tableBase (satpPpn e.satp)) false false m0 :=
  ⟨rfl, rfl, h, ⟨rfl, rfl⟩, fun _ ht => .inl ht⟩

/-- An access of the walk takes its draw, and no event lands. -/
theorem afterAccess (h : WalkAt e spec m0 va i a gAbove fresh m) {land : List Event → MemSys → MemSys}
    (hland : ∀ m, land [] m = m) : WalkAt e spec m0 va i a gAbove fresh (accessPoint land m).2 := by
  have hpop : (accessPoint land m).2 = (popDraw m).2 := by
    simp [accessPoint, popDraw_events_of_undisturbed h.undisturbed, hland]
  rw [hpop]
  exact ⟨(popDraw_mem m).trans h.mem, (popDraw_unfenced m).trans h.unfenced, popDraw_undisturbed h.undisturbed,
    h.visit, fun t ht => h.entries t (popDraw_atc m ▸ ht)⟩

/-- What answers a pass is what may answer it in the state the walk began in. -/
theorem mayAnswer_of_read (h : WalkAt e spec m0 va i a gAbove fresh m) {c : Choice} {acc : AccessType} {m' : MemSys}
    {r : PteRead} (hread : step2Read e spec c acc va i a gAbove fresh m = .ok r m') :
    mayAnswer e spec m0 va i a gAbove r := by
  rcases step2Read_ok hread with ⟨t, hfresh, hchosen, hr, -⟩ | ⟨haddr, hcheck, hglobal, hvalue, -⟩
  · obtain ⟨ht, hhit⟩ := chooseHit_some hchosen
    rcases h.entries t ht with h0 | ⟨-, htrue⟩ | ⟨hone, hzero⟩
    · exact .inl ⟨t, h0, hhit, hr⟩
    · simp [hfresh] at htrue
    · simp [level_of_hit hhit, hzero] at hone
  · have hseen : wordSeen e m0 r.addr (implicitRead e.cfg.implicitReads c fresh r.addr m) := by
      simpa [wordSeen, h.mem, h.unfenced] using wordSeen_implicitRead e c fresh r.addr m
    refine .inr ⟨haddr, hglobal, hcheck, ?_⟩
    rcases hvalue with hsome | ⟨hnone, hspec⟩
    · exact .inl (hsome ▸ hseen)
    · exact .inr ⟨hspec, hnone ▸ hseen⟩

/-- After the read of a pass the walk is ready for a re-read at the same level. -/
theorem afterRead (h : WalkAt e spec m0 va i a gAbove fresh m) {c : Choice} {acc : AccessType} {m' : MemSys}
    {r : PteRead} (hread : step2Read e spec c acc va i a gAbove fresh m = .ok r m') :
    WalkAt e spec m0 va i a gAbove true m' := by
  obtain ⟨hmem, hunfenced, hdraws, hatc⟩ := step2Read_ok_frame hread
  refine ⟨hmem.trans h.mem, hunfenced.trans h.unfenced, fun d hd => h.undisturbed d (hdraws ▸ hd), h.visit,
    fun t ht => ?_⟩
  rcases hatc t ht with ht | hlevel
  · exact (h.entries t ht).imp_right (.imp_left fun hi => ⟨hi.1, rfl⟩)
  · exact .inr (.inl ⟨hlevel, rfl⟩)

/-- The pass below a pointer. -/
theorem descend (h : WalkAt e spec m0 va i a gAbove fresh m) {c : Choice} {acc : AccessType} {priv : Priv}
    {m' : MemSys} {r : PteRead} {a' : PhysAddr} (hread : step2Read e spec c acc va i a gAbove fresh m = .ok r m')
    (hdown : inspect e acc priv i r.pte = .descend a') : WalkAt e spec m0 va .zero a' r.global false m' := by
  obtain ⟨rfl, hclass, rfl⟩ := inspect_descend hdown
  obtain ⟨rfl, rfl⟩ := h.visit
  have h2 := h.afterRead hread
  exact { h2 with
    visit := ⟨r, h.mayAnswer_of_read hread, hclass, not_refusedByStep3_of_descend hdown, rfl, rfl⟩
    entries := fun t ht => (h2.entries t ht).imp_right fun hnew => .inr ⟨hnew.elim And.left And.left, rfl⟩ }

/-- The last pass of a walk that answers an address: it read a leaf that may answer it in the state the walk began in
and passes steps 3 to 6, and step 7 was done, in memory as it was then. -/
theorem walk_ok {land : List Event → MemSys → MemSys} (hland : ∀ m, land [] m = m) {acc : AccessType} {priv : Priv}
    {n : Nat} {pa : PhysAddr} {m' : MemSys} (h : WalkAt e spec m0 va i a gAbove fresh m)
    (hok : walk e spec land acc va priv n i a gAbove fresh m = .ok pa m') :
    ∃ i a gAbove r m2, WalkAt e spec m0 va i a gAbove true m2 ∧ mayAnswer e spec m0 va i a gAbove r ∧
      passingLeaf e acc priv i r.pte ∧ step7 e spec land acc va i gAbove r m2 = .done m' ∧
      pa = finalPa i r.pte va := by
  induction n generalizing i a gAbove fresh m with
  | zero => simp [walk] at hok
  | succ n ih =>
    have h1 := h.afterAccess hland
    obtain ⟨r, m2, hread, hrest⟩ := MRes.bind_eq_ok hok
    have h2 := h1.afterRead hread
    cases hi : inspect e acc priv i r.pte with
    | pageFault => simp [hi] at hrest
    | descend a' => exact ih (h1.descend hread hi) (by simpa [hi] using hrest)
    | leaf =>
      cases hs : step7 e spec land acc va i gAbove r m2 with
      | done m3 =>
        simp only [hi, hs] at hrest
        injection hrest with hpa hm
        exact ⟨i, a, gAbove, r, m2, h2, h1.mayAnswer_of_read hread, inspect_leaf hi, hm ▸ hs, hpa.symm⟩
      | raised k m3 => simp [hi, hs] at hrest
      | retry m3 =>
        obtain rfl := step7_retry hs
        exact ih (h2.afterAccess hland) (by simpa [hi, hs] using hrest)
      | stuck f => simp [hi, hs] at hrest

end WalkAt

/-- A translation that answers an address, with no other agent acting, went through a leaf the walk may read that passes
steps 3 to 6, and the address is that leaf's (R140). -/
theorem translate_ok_through_leaf {e : Mmu} {acc : AccessType} {va : Word} {priv : Priv} {m m' : MemSys}
    {pa : PhysAddr} (hmode : satpMode e.satp = .sv32) (hpriv : priv ≠ .machine) (h : Undisturbed m)
    (hok : translate e acc va priv m = .ok pa m') :
    ∃ i r, mayRead e false m va i r ∧ passingLeaf e acc priv i r.pte ∧ pa = finalPa i r.pte va := by
  have ht : ¬ (satpMode e.satp = .bare ∨ priv = .machine) := by simp [hmode, hpriv]
  rw [translate, if_neg ht] at hok
  obtain ⟨i, a, gAbove, r, m2, hat, hanswer, hleaf, -, hpa⟩ := (WalkAt.root h).walk_ok (fun _ => rfl) hok
  exact ⟨i, r, ⟨a, gAbove, hat.visit, hanswer⟩, hleaf, hpa⟩

/-! ## The U bit (R105 to R107) -/

theorem uOk_user (pte : Word) (acc : AccessType) (sum : Bool) : uOk pte acc .user sum = pteU pte := rfl

theorem uOk_supervisor_iff {pte : Word} {acc : AccessType} {sum : Bool} :
    uOk pte acc .supervisor sum = true ↔ (pteU pte = true → acc ≠ .fetch ∧ sum = true) := by
  cases hu : pteU pte <;> cases acc <;> simp [uOk, hu]

theorem permitted_iff {pte : Word} {acc : AccessType} {priv : Priv} {sum mxr : Bool} :
    permitted pte acc priv sum mxr = true ↔ uOk pte acc priv sum = true ∧ rwxOk pte acc mxr = true := by
  simp [permitted]

/-- Where U refuses, nothing else is asked. -/
theorem permitted_of_not_uOk {pte : Word} {acc : AccessType} {priv : Priv} {sum : Bool}
    (h : uOk pte acc priv sum = false) (mxr : Bool) : permitted pte acc priv sum mxr = false := by
  simp [permitted, h]

/-- Where U does not refuse, R, W, X and MXR decide. -/
theorem permitted_of_uOk {pte : Word} {acc : AccessType} {priv : Priv} {sum : Bool}
    (h : uOk pte acc priv sum = true) (mxr : Bool) : permitted pte acc priv sum mxr = rwxOk pte acc mxr := by
  simp [permitted, h]

/-- Settles O39. Step 5 asks the U bit first: a leaf at which a walk ends passed that test, and a leaf that fails it
ends the walk with a page fault. -/
theorem userBitGuardsPages : Obligations.UserBitGuardsPages := by
  refine ⟨fun e acc va m m' pa hmode h => ⟨fun hok => ?_, fun hok => ?_⟩,
    fun e spec land acc va n i a gAbove fresh m m' r hread hclass => ⟨fun hu => ?_, fun hu hno => ?_⟩,
    fun pte acc sum mxr => ⟨fun hu => ?_, fun hu => ?_⟩⟩
  · obtain ⟨i, r, hread, ⟨hclass, hperm, -⟩, hpa⟩ := translate_ok_through_leaf hmode (by decide) h hok
    exact ⟨i, r, hread, hclass, hpa, (permitted_iff.mp hperm).1⟩
  · obtain ⟨i, r, hread, ⟨hclass, hperm, -⟩, hpa⟩ := translate_ok_through_leaf hmode (by decide) h hok
    exact ⟨i, r, hread, hclass, hpa, uOk_supervisor_iff.mp (permitted_iff.mp hperm).1⟩
  · exact walk_of_leafRead_not_permitted hread hclass (permitted_of_not_uOk (by rwa [uOk_user]) _) n
  · refine walk_of_leafRead_not_permitted hread hclass (permitted_of_not_uOk ?_ _) n
    rw [Bool.eq_false_iff, Ne, uOk_supervisor_iff]
    intro hok
    obtain ⟨hacc, hsum⟩ := hok hu
    rcases hno with hfetch | hclear
    · exact hacc hfetch
    · simp [hclear] at hsum
  · exact permitted_of_uOk (by rwa [uOk_user]) mxr
  · refine permitted_of_uOk (uOk_supervisor_iff.mpr fun htrue => ?_) mxr
    rcases hu with hfalse | hok
    · simp [hfalse] at htrue
    · exact hok

end Sys2Proof.Machine

/-! # The translation algorithm (41_translation_algorithm.md) -/

namespace Sys2Proof.Machine

/-! ## The cache-free machine (R145, R146) -/

theorem CacheFree.memoryAnswers {m : MemSys} (h : CacheFree m) (e : Mmu) (va : Word) (i : Level) :
    MemoryAnswers e va i m := by
  obtain ⟨hquiet, hchoice⟩ := h
  exact ⟨hquiet, fun d hd => .inl (hchoice d hd).1, fun d hd => .inr (.inr (hchoice d hd).2)⟩

/-- Settles O30: in the cache-free machine memory answers at both levels, with its latest value. -/
theorem cacheFreeTranslateIsClosedForm : Obligations.CacheFreeTranslateIsClosedForm := fun e acc va priv _ h =>
  translate_agrees_closedForm (fun i => h.memoryAnswers e va i) acc priv

/-! ## Steps 3 and 6 (R135, R138) -/

/-- What step 3 refuses, told by the classes of R75. -/
theorem refusedByStep3_iff {e : Mmu} {pte : Word} :
    refusedByStep3 e pte ↔ pteClass pte = .invalid ∨ pteClass pte = .reservedRW ∨
      (pteClass pte = .pointer ∧ (e.cfg.nonleafDauFault && (pteD pte || pteA pte || pteU pte)) = true) := by
  unfold refusedByStep3 pteClass
  cases pteV pte <;> cases pteR pte <;> cases pteW pte <;> cases pteX pte <;> simp [or_assoc]

/-- Step 3 refuses at both levels (R135). -/
theorem inspect_of_refusedByStep3 {e : Mmu} {pte : Word} (h : refusedByStep3 e pte) (acc : AccessType) (priv : Priv)
    (i : Level) : inspect e acc priv i pte = .pageFault := by
  rcases refusedByStep3_iff.mp h with hclass | hclass | ⟨hclass, hdau⟩
  · exact inspect_of_invalid (.inl hclass)
  · exact inspect_of_invalid (.inr hclass)
  · cases i with
    | one => rw [inspect_one_of_pointer hclass, if_pos hdau]
    | zero => exact inspect_zero_of_pointer hclass

/-- A PTE that step 3 lets pass is a pointer if it grants neither R nor X, and a leaf if it grants one of them. -/
theorem pteClass_of_not_refusedByStep3 {e : Mmu} {pte : Word} (h : ¬ refusedByStep3 e pte) :
    pteClass pte = if pteR pte || pteX pte then .leaf else .pointer := by
  obtain ⟨hv, hrw, -⟩ : pteV pte ≠ false ∧ ¬ (pteR pte = false ∧ pteW pte = true) ∧ _ := by
    simpa only [refusedByStep3, not_or] using h
  unfold pteClass
  cases hr : pteR pte <;> cases hw : pteW pte <;> cases pteX pte <;> simp_all

/-- A misaligned megapage is refused, whether or not it permits the access (R137, R138). -/
theorem inspect_of_misalignedMegapage {e : Mmu} {pte : Word} (hclass : pteClass pte = .leaf)
    (hppn : ptePpn0 pte ≠ 0#10) (acc : AccessType) (priv : Priv) : inspect e acc priv .one pte = .pageFault := by
  rw [inspect_one_of_leaf hclass, if_pos hppn, ite_self]

/-- At level 0 step 6 refuses nothing (R138, R147). -/
theorem inspect_zero_of_permitted {e : Mmu} {acc : AccessType} {priv : Priv} {pte : Word}
    (hclass : pteClass pte = .leaf) (hperm : permitted pte acc priv e.sum e.mxr = true) :
    inspect e acc priv .zero pte = .leaf :=
  inspect_of_passingLeaf ⟨hclass, hperm, nofun⟩

/-- Settles O37. The PTEs step 3 refuses are those of three classes, which are refused at both levels; every other PTE is
a pointer that passes, or a leaf. -/
theorem reservedPtesPageFault : Obligations.ReservedPtesPageFault := by
  refine ⟨fun e spec land acc va priv n i a gAbove fresh m m' r hread hrefused =>
      walk_of_refusedRead hread (inspect_of_refusedByStep3 hrefused acc priv i) n,
    fun e acc priv pte h => ⟨fun ⟨hr, hx⟩ => ?_, fun hrx hperm => ?_⟩⟩
  · have hclass : pteClass pte = .pointer := by simp [pteClass_of_not_refusedByStep3 h, hr, hx]
    rw [inspect_one_of_pointer hclass, if_neg fun hdau => h (refusedByStep3_iff.mpr (.inr (.inr ⟨hclass, hdau⟩)))]
  · have hclass : pteClass pte = .leaf := by simp [pteClass_of_not_refusedByStep3 h, hrx]
    exact inspect_zero_of_permitted hclass hperm

/-- Settles O38: step 6 asks level 1 only. -/
theorem misalignedMegapagePageFaults : Obligations.MisalignedMegapagePageFaults :=
  ⟨fun _ _ _ acc _ priv n _ _ _ _ _ _ hread hclass hppn =>
      walk_of_refusedRead hread (inspect_of_misalignedMegapage hclass hppn acc priv) n,
    fun _ _ _ _ hclass hperm => inspect_zero_of_permitted hclass hperm⟩

/-! ## Exceptions of an access (R130) -/

/-- Settles O34: neither the translation nor the final check raises anything else. -/
theorem accessRaisesOwnKind : Obligations.AccessRaisesOwnKind := by
  intro e acc va priv m m' x h
  have hraises := resolve_raises e acc va priv m
  rw [h] at hraises
  exact hraises

/-! ## What step 7 writes (R139) -/

/-- A comparison made for an access is done only on the word that stands in memory, and writes A, or A and D, there. -/
theorem compareAndSet_done {e : Mmu} {c : Choice} {acc : AccessType} {va : Word} {i : Level} {gAbove : Bool}
    {r : PteRead} {m m' : MemSys} (h : compareAndSet e false c acc va i gAbove r m = .done m') :
    readWord m.mem r.addr = some r.pte ∧ m'.mem = writeWord m.mem r.addr (setAD r.pte acc) := by
  cases hr : readWord m.mem r.addr with
  | none => simp [compareAndSet, hr] at h
  | some cur =>
    by_cases heq : cur = r.pte
    · subst heq
      rw [compareAndSet_of_current hr] at h
      injection h with h
      exact ⟨rfl, by rw [← h, fillAtc_mem]⟩
    · simp [compareAndSet, hr, heq] at h

/-- How memory `mem'` after step 7 on the leaf `r` comes from memory `mem` before it: nothing is written where A and D
are as needed; else the scheme updates, the leaf's word stands in memory, and it is written back with A, or A and D,
set. -/
def LeafUpdated (e : Mmu) (acc : AccessType) (r : PteRead) (mem mem' : Memory) : Prop :=
  (needsUpdate r.pte acc = false ∧ mem' = mem) ∨
  (needsUpdate r.pte acc = true ∧ e.cfg.adScheme = .update ∧ readWord mem r.addr = some r.pte ∧
    mem' = writeWord mem r.addr (setAD r.pte acc))

/-- Step 7 done for an access, where its own access point leaves memory as it is. -/
theorem step7_done {e : Mmu} {land : List Event → MemSys → MemSys} {acc : AccessType} {va : Word} {i : Level}
    {gAbove : Bool} {r : PteRead} {m m' : MemSys} (hland : (accessPoint land m).2.mem = m.mem)
    (h : step7 e false land acc va i gAbove r m = .done m') : LeafUpdated e acc r m.mem m'.mem := by
  unfold step7 at h
  cases hneed : needsUpdate r.pte acc with
  | false =>
    simp only [hneed, Bool.not_false, if_true] at h
    injection h with h
    exact .inl ⟨hneed, by rw [h]⟩
  | true =>
    cases hs : e.cfg.adScheme with
    | fault => simp [hneed, hs] at h
    | update =>
      cases hcheck : physCheck e.cfg r.addr .write .supervisor with
      | false => simp [hneed, hs, hcheck] at h
      | true =>
        obtain ⟨hr, hw⟩ := compareAndSet_done (by simpa [hneed, hs, hcheck] using h)
        exact .inr ⟨hneed, hs, hland ▸ hr, hland ▸ hw⟩

/-! ## Translations while no other agent acts -/

/-- A walk that raises has read, at most: memory is as it was when the walk began (R144). -/
theorem WalkAt.mem_of_walk_raised {e : Mmu} {spec : Bool} {m0 : MemSys} {va : Word} {i : Level} {a : PhysAddr}
    {gAbove fresh : Bool} {m : MemSys} {land : List Event → MemSys → MemSys} (hland : ∀ m, land [] m = m)
    {acc : AccessType} {priv : Priv} {n : Nat} {x : Exn} {m' : MemSys} (h : WalkAt e spec m0 va i a gAbove fresh m)
    (hraised : walk e spec land acc va priv n i a gAbove fresh m = .raised x m') : m'.mem = m0.mem := by
  induction n generalizing i a gAbove fresh m with
  | zero => simp [walk] at hraised
  | succ n ih =>
    have h1 := h.afterAccess hland
    simp only [walk] at hraised
    cases hread : step2Read e spec (accessPoint land m).1 acc va i a gAbove fresh (accessPoint land m).2 with
    | stuck f => simp [hread, MRes.bind] at hraised
    | raised y m2 =>
      obtain ⟨-, rfl⟩ := step2Read_raised hread
      simp only [hread, MRes.bind] at hraised
      injection hraised with _ hm
      exact hm ▸ h1.mem
    | ok r m2 =>
      have h2 := h1.afterRead hread
      simp only [hread, MRes.bind] at hraised
      cases hi : inspect e acc priv i r.pte with
      | pageFault =>
        simp only [hi] at hraised
        injection hraised with _ hm
        exact hm ▸ h2.mem
      | descend a' => exact ih (h1.descend hread hi) (by simpa [hi] using hraised)
      | leaf =>
        cases hs : step7 e spec land acc va i gAbove r m2 with
        | done m3 => simp [hi, hs] at hraised
        | raised k m3 =>
          obtain ⟨-, rfl⟩ := step7_raised hs
          simp only [hi, hs] at hraised
          injection hraised with _ hm
          exact hm ▸ h2.mem
        | retry m3 =>
          obtain rfl := step7_retry hs
          exact ih (h2.afterAccess hland) (by simpa [hi, hs] using hraised)
        | stuck f => simp [hi, hs] at hraised

theorem mem_of_translate_raised {e : Mmu} {acc : AccessType} {va : Word} {priv : Priv} {m m' : MemSys} {x : Exn}
    (h : Undisturbed m) (hraised : translate e acc va priv m = .raised x m') : m'.mem = m.mem := by
  unfold translate at hraised
  split at hraised
  · simp at hraised
  · exact (WalkAt.root h).mem_of_walk_raised (fun _ => rfl) hraised

/-- `translate_ok_through_leaf` with what became of memory: step 7 was done on that very leaf (R139, R144). -/
theorem translate_ok_updates_leaf {e : Mmu} {acc : AccessType} {va : Word} {priv : Priv} {m m' : MemSys}
    {pa : PhysAddr} (hmode : satpMode e.satp = .sv32) (hpriv : priv ≠ .machine) (h : Undisturbed m)
    (hok : translate e acc va priv m = .ok pa m') :
    ∃ i r, mayRead e false m va i r ∧ passingLeaf e acc priv i r.pte ∧ pa = finalPa i r.pte va ∧
      LeafUpdated e acc r m.mem m'.mem := by
  have ht : ¬ (satpMode e.satp = .bare ∨ priv = .machine) := by simp [hmode, hpriv]
  rw [translate, if_neg ht] at hok
  obtain ⟨i, a, gAbove, r, m2, hat, hanswer, hleaf, hdone, hpa⟩ := (WalkAt.root h).walk_ok (fun _ => rfl) hok
  have hquiet : (accessPoint (applyEvents e) m2).2.mem = m2.mem :=
    (hat.afterAccess fun _ => rfl).mem.trans hat.mem.symm
  exact ⟨i, r, ⟨a, gAbove, hat.visit, hanswer⟩, hleaf, hpa, hat.mem ▸ step7_done hquiet hdone⟩

/-- Settles O33. The leaf at which the walk ended passed steps 3 to 6, and step 7 set A or D only where the scheme
updates; a leaf that does not permit the access ends the walk with a page fault. -/
theorem translateOkThroughPermittedLeaf : Obligations.TranslateOkThroughPermittedLeaf := by
  refine ⟨fun e acc va priv m m' pa hmode hpriv h hok => ?_,
    fun e spec land acc va priv n i a gAbove fresh m m' r hread hclass hperm =>
      walk_of_leafRead_not_permitted hread hclass hperm n⟩
  obtain ⟨i, r, hread, ⟨hclass, hperm, hmega⟩, hpa, hupdated⟩ := translate_ok_updates_leaf hmode hpriv h hok
  refine ⟨i, r, hread, hclass, hperm, hmega, hpa, fun hneed => ?_⟩
  rcases hupdated with ⟨hnone, -⟩ | ⟨-, hs, -⟩
  · simp [hneed] at hnone
  · exact hs

/-! ## The byte that step 7 changes (R114, R139) -/

/-- A, or A and D for a store, at their places in the lowest byte of a PTE (R73). -/
def adByte (acc : AccessType) : Byte := if acc = .store then 0xC0#8 else 0x40#8

theorem setAD_wordOfBytes (b0 b1 b2 b3 : Byte) (acc : AccessType) :
    setAD (wordOfBytes b0 b1 b2 b3) acc = wordOfBytes (b0 ||| adByte acc) b1 b2 b3 := by
  by_cases h : acc = .store
  · simp [setAD, adByte, h, wordOfBytes, place, BitVec.setWidth_or, BitVec.or_assoc]
  · rw [setAD_of_ne_store h, setA_wordOfBytes, adByte, if_neg h]

/-- Writing a word over one that differs from it in the lowest byte changes just that byte. -/
theorem readByte_writeWord_of_lowByte {mem : Memory} {pa : PhysAddr} {b1 b2 b3 : Byte}
    (h1 : readByte mem (pa + 1#34) = some b1) (h2 : readByte mem (pa + 2#34) = some b2)
    (h3 : readByte mem (pa + 3#34) = some b3) (b : Byte) (q : PhysAddr) :
    readByte (writeWord mem pa (wordOfBytes b b1 b2 b3)) q = if q = pa then some b else readByte mem q := by
  obtain ⟨e0, e1, e2, e3⟩ := byteOfWord_wordOfBytes b b1 b2 b3
  simp only [writeWord, readByte_writeByte, e0, e1, e2, e3]
  split
  · next hq => simp [hq, h3]
  split
  · next hq => simp [hq, h2]
  split
  · next hq => simp [hq, h1]
  · rfl

/-- Writing a PTE back with A, or A and D, set changes just the byte at its address. -/
theorem readByte_writeWord_setAD {mem : Memory} {pa : PhysAddr} {pte : Word} (h : readWord mem pa = some pte)
    (acc : AccessType) :
    ∃ b, readByte mem pa = some b ∧ ∀ q, readByte (writeWord mem pa (setAD pte acc)) q =
      if q = pa then some (b ||| adByte acc) else readByte mem q := by
  obtain ⟨b0, b1, b2, b3, h0, h1, h2, h3, rfl⟩ := readWord_eq_some h
  exact ⟨b0, h0, fun q => by rw [setAD_wordOfBytes, readByte_writeWord_of_lowByte h1 h2 h3]⟩

/-- Settles O35. A walk that raises has written nothing; one that succeeds has written at most the leaf it ended at, which
stood in memory, and so just that leaf's lowest byte. -/
theorem translateMemoryFrame : Obligations.TranslateMemoryFrame := by
  intro e acc va priv m m' h
  refine ⟨fun x => mem_of_translate_raised h, fun pa hok => ⟨fun hnone => ?_, fun hmode hpriv => ?_⟩⟩
  · rw [translate_of_bare_or_machine hnone] at hok
    injection hok with _ hm
    rw [hm]
  · obtain ⟨i, r, hread, ⟨hclass, -, -⟩, hpa, hupdated⟩ := translate_ok_updates_leaf hmode hpriv h hok
    refine ⟨i, r, hread, hclass, hpa, fun hneed => ?_, fun hneed => ?_⟩
    · rcases hupdated with ⟨-, hmem⟩ | ⟨htrue, -⟩
      · exact hmem
      · simp [hneed] at htrue
    · rcases hupdated with ⟨hfalse, -⟩ | ⟨-, hs, hr, hmem⟩
      · simp [hneed] at hfalse
      · exact ⟨hs, hr, hmem ▸ readByte_writeWord_setAD hr acc⟩

/-! ## A walk for an access never runs out of passes (R142) -/

@[simp] theorem applyEvent_draws (e : Mmu) (ev : Event) (m : MemSys) : (applyEvent e ev m).draws = m.draws := by
  cases ev with
  | store pa b => rfl
  | evict k => rfl
  | specWalk va acc priv cs => exact specWalk_draws e va acc priv cs m

@[simp] theorem applyEvents_draws (e : Mmu) (evs : List Event) (m : MemSys) :
    (applyEvents e evs m).draws = m.draws := by
  unfold applyEvents
  induction evs generalizing m with
  | nil => rfl
  | cons ev evs ih => rw [List.foldl_cons, ih, applyEvent_draws]

theorem accessPoint_applyEvents (e : Mmu) (m : MemSys) : accessPoint (applyEvents e) m = atAccess e m := rfl

/-- An access uses up one draw, if one is left. -/
@[simp] theorem atAccess_draws (e : Mmu) (m : MemSys) : (atAccess e m).2.draws = m.draws.tail := by
  simp [atAccess, accessPoint, popDraw_draws]

theorem step2Read_stuck {e : Mmu} {spec : Bool} {c : Choice} {acc : AccessType} {va : Word} {i : Level} {a : PhysAddr}
    {gAbove fresh : Bool} {m : MemSys} {f : Fault} (h : step2Read e spec c acc va i a gAbove fresh m = .stuck f) :
    f = .unwrittenMemory (pteAddress a i va) := by
  unfold step2Read at h
  split at h
  · simp at h
  · dsimp only at h
    split at h
    · split at h
      · simp at h
      · simp at h
      · injection h with h
        exact h.symm
    · simp at h

theorem step7_stuck {e : Mmu} {spec : Bool} {land : List Event → MemSys → MemSys} {acc : AccessType} {va : Word}
    {i : Level} {gAbove : Bool} {r : PteRead} {m : MemSys} {f : Fault}
    (h : step7 e spec land acc va i gAbove r m = .stuck f) : f = .unwrittenMemory r.addr := by
  rcases step7_cases e spec land acc va i gAbove r m with h' | ⟨k, h'⟩ | ⟨-, -, h'⟩
  · simp [h'] at h
  · simp [h'] at h
  · rw [h'] at h
    unfold compareAndSet at h
    split at h
    · simp at h
    · split at h
      · split at h
        · simp at h
        · injection h with h
          exact h.symm
      · dsimp only at h
        split at h <;> simp at h

/-- Past the end of the tape a pass reads the word that stands in memory. -/
theorem readWord_of_read_without_draws {e : Mmu} {acc : AccessType} {va : Word} {i : Level} {a : PhysAddr}
    {gAbove fresh : Bool} {m m' : MemSys} {r : PteRead} (hdraws : m.draws = [])
    (hread : step2Read e false (atAccess e m).1 acc va i a gAbove fresh (atAccess e m).2 = .ok r m') :
    readWord m'.mem r.addr = some r.pte ∧ m'.draws = [] := by
  have hquiet : atAccess e m = (Choice.quiet, m) := by
    simp [atAccess, accessPoint, popDraw, hdraws, Draw.quiet, applyEvents]
  rw [hquiet] at hread
  obtain ⟨hmem, -, hd, -⟩ := step2Read_ok_frame hread
  refine ⟨?_, hd.trans hdraws⟩
  rcases step2Read_ok hread with ⟨t, -, hchosen, -⟩ | ⟨-, -, -, hvalue, -⟩
  · simp [chooseHit, Choice.quiet] at hchosen
  · rw [implicitRead_eq_readWord _ _ (.inr (.inr rfl))] at hvalue
    simpa [hmem] using hvalue

/-- A pass that returns to step 2 has used up a draw: past the end of the tape the comparison cannot fail. -/
theorem draws_ne_nil_of_retry {e : Mmu} {acc : AccessType} {va : Word} {i : Level} {a : PhysAddr}
    {gAbove fresh : Bool} {m m2 m3 : MemSys} {r : PteRead}
    (hread : step2Read e false (atAccess e m).1 acc va i a gAbove fresh (atAccess e m).2 = .ok r m2)
    (hretry : step7 e false (applyEvents e) acc va i gAbove r m2 = .retry m3) : m.draws ≠ [] := by
  intro hdraws
  obtain ⟨hr, hd⟩ := readWord_of_read_without_draws hdraws hread
  have hundisturbed : Undisturbed m2 := by simp [Undisturbed, hd]
  rcases step7_of_undisturbed (e := e) hundisturbed hr acc va i gAbove 0#34 with ⟨_, _, -, h, -⟩ | ⟨_, -, h⟩ <;>
    simp [h] at hretry

/-- The passes a walk that is at this level makes with no retry: one for each level still to visit. -/
def Level.passes : Level → Nat
  | .one  => 2
  | .zero => 1

theorem walk_ne_exhausted {e : Mmu} {acc : AccessType} {va : Word} {priv : Priv} {n : Nat} {i : Level} {a : PhysAddr}
    {gAbove fresh : Bool} {m : MemSys} (hn : m.draws.length + i.passes ≤ n) :
    walk e false (applyEvents e) acc va priv n i a gAbove fresh m ≠ .stuck .walkRetriesExhausted := by
  induction n generalizing i a gAbove fresh m with
  | zero => cases i <;> simp [Level.passes] at hn
  | succ n ih =>
    simp only [walk, accessPoint_applyEvents]
    cases hread : step2Read e false (atAccess e m).1 acc va i a gAbove fresh (atAccess e m).2 with
    | stuck f => simp [MRes.bind, step2Read_stuck hread]
    | raised x m2 => simp [MRes.bind]
    | ok r m2 =>
      obtain ⟨-, -, hdraws, -⟩ := step2Read_ok_frame hread
      rw [atAccess_draws] at hdraws
      simp only [MRes.bind]
      cases hi : inspect e acc priv i r.pte with
      | pageFault => simp
      | descend a' =>
        obtain ⟨rfl, -, -⟩ := inspect_descend hi
        refine ih ?_
        simp only [hdraws, List.length_tail, Level.passes] at hn ⊢
        omega
      | leaf =>
        cases hs : step7 e false (applyEvents e) acc va i gAbove r m2 with
        | done m3 => simp
        | raised k m3 => simp
        | stuck f => simp [step7_stuck hs]
        | retry m3 =>
          have hpos := List.length_pos_iff.mpr (draws_ne_nil_of_retry hread hs)
          obtain rfl := step7_retry hs
          refine ih ?_
          simp only [accessPoint_applyEvents, atAccess_draws, hdraws, List.length_tail]
          omega

theorem translate_ne_exhausted (e : Mmu) (acc : AccessType) (va : Word) (priv : Priv) (m : MemSys) :
    translate e acc va priv m ≠ .stuck .walkRetriesExhausted := by
  unfold translate
  split
  · simp
  · exact walk_ne_exhausted (Nat.le_refl _)

/-! ## No instruction answers that a walk ran out of passes -/

theorem MRes.bind_ne_stuck {α β : Type} {f : Fault} {r : MRes α} {k : α → MemSys → MRes β} (hr : r ≠ .stuck f)
    (hk : ∀ a m, k a m ≠ .stuck f) : r.bind k ≠ .stuck f := by
  cases r with
  | ok a m => exact hk a m
  | raised x m => simp [MRes.bind]
  | stuck g => simpa [MRes.bind] using hr

theorem finish_ne_fault {α : Type} {f : Fault} {s : State} {r : MRes α}
    {k : α → State → Host.Outcome State Fault Refusal} (hr : r ≠ .stuck f) (hk : ∀ a s', k a s' ≠ .fault f) :
    finish s r k ≠ .fault f := by
  cases r with
  | ok a m => exact hk a _
  | raised x m => simp
  | stuck g => simpa using hr

theorem resolve_ne_exhausted (e : Mmu) (acc : AccessType) (va : Word) (priv : Priv) (m : MemSys) :
    resolve e acc va priv m ≠ .stuck .walkRetriesExhausted := by
  refine MRes.bind_ne_stuck (translate_ne_exhausted e acc va priv m) fun pa m1 => ?_
  split <;> simp

theorem readMem_ne_exhausted (pa : PhysAddr) (m : MemSys) : readMem pa m ≠ .stuck .walkRetriesExhausted := by
  unfold readMem
  split <;> simp

/-- A load or fetch, from its translation to its read of memory. -/
theorem explicitRead_ne_exhausted (e : Mmu) (acc : AccessType) (va : Word) (priv : Priv) (m : MemSys) :
    (resolve e acc va priv m).bind readMem ≠ .stuck .walkRetriesExhausted :=
  MRes.bind_ne_stuck (resolve_ne_exhausted e acc va priv m) readMem_ne_exhausted

theorem csrInstr_ne_fault (i : Instr) (rd : RegIdx) (n : CsrIdx) (new : Word → Option Word) (s : State) (f : Fault) :
    csrInstr i rd n new s ≠ .fault f := by
  unfold csrInstr
  split <;> simp [raise]

/-- Only LW, SW and AMOADD.W translate, and the walks they make end. -/
theorem exec_ne_exhausted (i : Instr) (s : State) : exec i s ≠ .fault .walkRetriesExhausted := by
  cases i with
  | lui rd imm => simp [exec, execLui, writeResult]
  | addi rd rs1 imm => simp [exec, execAddi, writeResult]
  | add rd rs1 rs2 => simp [exec, execAdd, writeResult]
  | bne rs1 rs2 offset =>
    simp only [exec, execBne, raise]
    split
    · split <;> simp
    · simp
  | lw rd rs1 imm =>
    simp only [exec, execLw]
    split
    · exact finish_ne_fault (explicitRead_ne_exhausted _ _ _ _ _) (by simp)
    · simp [raise]
  | sw rs2 rs1 imm =>
    simp only [exec, execSw]
    split
    · exact finish_ne_fault (MRes.bind_ne_stuck (resolve_ne_exhausted _ _ _ _ _) (by simp [writeMem])) (by simp)
    · simp [raise]
  | amoaddW rd rs2 rs1 aq rl =>
    simp only [exec, execAmoaddW]
    split
    · refine finish_ne_fault (MRes.bind_ne_stuck (resolve_ne_exhausted _ _ _ _ _) fun pa m => ?_) (by simp)
      exact MRes.bind_ne_stuck (readMem_ne_exhausted pa m) (by simp [writeMem, MRes.bind])
    · simp [raise]
  | csrrw rd csr rs1 =>
    unfold exec execCsrrw
    exact csrInstr_ne_fault _ _ _ _ _ _
  | csrrs rd csr rs1 =>
    unfold exec execCsrrs
    exact csrInstr_ne_fault _ _ _ _ _ _
  | csrrc rd csr rs1 =>
    unfold exec execCsrrc
    exact csrInstr_ne_fault _ _ _ _ _ _
  | sfenceVma rs1 rs2 =>
    simp only [exec, execSfenceVma, raise]
    split <;> simp

/-- Settles O58. A pass that is followed by another goes down a level or has used up a draw, so the walks of the fetch and
of the instruction end within their bound. -/
theorem walksTerminate : Obligations.WalksTerminate := by
  intro s
  unfold step
  split
  · simp
  · split
    · refine finish_ne_fault (explicitRead_ne_exhausted _ _ _ _ _) fun w s' => ?_
      unfold runWord
      split
      · exact exec_ne_exhausted _ _
      · simp
    · simp

end Sys2Proof.Machine

/-! # The address-translation cache and SFENCE.VMA (42_translation_cache_and_sfence.md) -/

namespace Sys2Proof.Machine

/-! ## The bits A and D in a PTE (R73, R114) -/

/-- A alone is what step 7 sets for a load (R115). -/
theorem setA_eq_setAD_load (pte : Word) : setA pte = setAD pte .load := (setAD_of_ne_store (by decide) pte).symm

@[simp] theorem pteV_setAD (pte : Word) (acc : AccessType) : pteV (setAD pte acc) = pteV pte := by
  cases acc <;> simp [pteV, setAD]
@[simp] theorem pteR_setAD (pte : Word) (acc : AccessType) : pteR (setAD pte acc) = pteR pte := by
  cases acc <;> simp [pteR, setAD]
@[simp] theorem pteW_setAD (pte : Word) (acc : AccessType) : pteW (setAD pte acc) = pteW pte := by
  cases acc <;> simp [pteW, setAD]
@[simp] theorem pteX_setAD (pte : Word) (acc : AccessType) : pteX (setAD pte acc) = pteX pte := by
  cases acc <;> simp [pteX, setAD]
@[simp] theorem pteU_setAD (pte : Word) (acc : AccessType) : pteU (setAD pte acc) = pteU pte := by
  cases acc <;> simp [pteU, setAD]
@[simp] theorem pteG_setAD (pte : Word) (acc : AccessType) : pteG (setAD pte acc) = pteG pte := by
  cases acc <;> simp [pteG, setAD]
@[simp] theorem pteA_setAD (pte : Word) (acc : AccessType) : pteA (setAD pte acc) = true := by
  cases acc <;> simp [pteA, setAD]
@[simp] theorem pteD_setAD (pte : Word) (acc : AccessType) :
    pteD (setAD pte acc) = (pteD pte || decide (acc = .store)) := by
  cases acc <;> simp [pteD, setAD]

/-- A and D lie below the fields from bit 10 on. -/
theorem extractLsb'_setAD {lo : Nat} (h : 10 ≤ lo) (len : Nat) (pte : Word) (acc : AccessType) :
    (setAD pte acc).extractLsb' lo len = pte.extractLsb' lo len := by
  have hhigh (v : Word) (hv : v.toNat < 2 ^ 10) (k : Nat) : v.getLsbD (lo + k) = false :=
    Nat.testBit_lt_two_pow (hv.trans_le (Nat.pow_le_pow_right (by decide) (by omega)))
  refine BitVec.eq_of_getLsbD_eq fun k hk => ?_
  have hA := hhigh 0x40#32 (by decide) k
  have hD := hhigh (if acc = .store then 0x80#32 else 0#32) (by cases acc <;> decide) k
  simp [setAD, hk, hA, hD]

@[simp] theorem ptePpn_setAD (pte : Word) (acc : AccessType) : ptePpn (setAD pte acc) = ptePpn pte :=
  extractLsb'_setAD (by decide) _ pte acc
@[simp] theorem ptePpn1_setAD (pte : Word) (acc : AccessType) : ptePpn1 (setAD pte acc) = ptePpn1 pte :=
  extractLsb'_setAD (by decide) _ pte acc
@[simp] theorem ptePpn0_setAD (pte : Word) (acc : AccessType) : ptePpn0 (setAD pte acc) = ptePpn0 pte :=
  extractLsb'_setAD (by decide) _ pte acc
@[simp] theorem pteClass_setAD (pte : Word) (acc : AccessType) : pteClass (setAD pte acc) = pteClass pte := by
  simp [pteClass]
@[simp] theorem permitted_setAD (pte : Word) (acc' acc : AccessType) (priv : Priv) (sum mxr : Bool) :
    permitted (setAD pte acc') acc priv sum mxr = permitted pte acc priv sum mxr := by
  cases priv <;> cases acc <;> simp [permitted, uOk, rwxOk]
@[simp] theorem finalPa_setAD (i : Level) (pte va : Word) (acc : AccessType) :
    finalPa i (setAD pte acc) va = finalPa i pte va := by
  cases i <;> simp [finalPa]

@[simp] theorem pteG_writtenPte (spec : Bool) (acc : AccessType) (pte : Word) :
    pteG (writtenPte spec acc pte) = pteG pte := by
  cases spec <;> simp [writtenPte, setA_eq_setAD_load]

/-! ## All that a walk does while no other agent acts: fills, and one write -/

/-- A comparison that is done did nothing, which only a speculative walk's may (R168), or wrote the PTE over itself with
A, or A and D, set, and may have cached what it wrote (R139, R179). -/
theorem compareAndSet_done_cases {e : Mmu} {spec : Bool} {c : Choice} {acc : AccessType} {va : Word} {i : Level}
    {gAbove : Bool} {r : PteRead} {m m' : MemSys} (h : compareAndSet e spec c acc va i gAbove r m = .done m') :
    m' = m ∨ (readWord m.mem r.addr = some r.pte ∧
      m' = fillAtc c.fill
        (entryOf va (satpAsid e.satp) i (gAbove || pteG r.pte) r.addr (writtenPte spec acc r.pte))
        { m with mem := writeWord m.mem r.addr (writtenPte spec acc r.pte) }) := by
  unfold compareAndSet at h
  split at h
  · injection h with h
    exact .inl h.symm
  · split at h
    · split at h
      · injection h with h
        exact .inl h.symm
      · simp at h
    · next cur hr =>
      dsimp only at h
      split at h
      · next heq =>
        injection h with h
        refine .inr ⟨heq ▸ hr, ?_⟩
        rw [← h, ← pteG_writtenPte spec acc r.pte]
        rfl
      · simp at h

/-- Step 7 that is done took its access's draw, if it came to the comparison, and did no more than that. -/
theorem step7_done_cases {e : Mmu} {spec : Bool} {land : List Event → MemSys → MemSys} {acc : AccessType} {va : Word}
    {i : Level} {gAbove : Bool} {r : PteRead} {m m' : MemSys}
    (h : step7 e spec land acc va i gAbove r m = .done m') :
    m' = m ∨ m' = (accessPoint land m).2 ∨
    (e.cfg.adScheme = .update ∧ physCheck e.cfg r.addr .write .supervisor = true ∧
      readWord (accessPoint land m).2.mem r.addr = some r.pte ∧ ∃ f,
      m' = fillAtc f (entryOf va (satpAsid e.satp) i (gAbove || pteG r.pte) r.addr (writtenPte spec acc r.pte))
        { (accessPoint land m).2 with
          mem := writeWord (accessPoint land m).2.mem r.addr (writtenPte spec acc r.pte) }) := by
  rcases step7_cases e spec land acc va i gAbove r m with h' | ⟨k, h'⟩ | ⟨hs, hcheck, h'⟩
  · rw [h'] at h
    injection h with h
    exact .inl h.symm
  · simp [h'] at h
  · rw [h'] at h
    rcases compareAndSet_done_cases h with hm | ⟨hr, hm⟩
    · exact .inr (.inl hm)
    · exact .inr (.inr ⟨hs, hcheck, hr, _, hm⟩)

/-- A step-2 read changes nothing, or puts into the cache what memory may answer it (R162). -/
theorem WalkAt.read_cases {e : Mmu} {spec : Bool} {m0 : MemSys} {va : Word} {i : Level} {a : PhysAddr}
    {gAbove fresh : Bool} {m m' : MemSys} {c : Choice} {acc : AccessType} {r : PteRead}
    (h : WalkAt e spec m0 va i a gAbove fresh m) (hread : step2Read e spec c acc va i a gAbove fresh m = .ok r m') :
    m' = m ∨ (memoryMayAnswer e spec m0 va i a gAbove r ∧
      m' = fillAtc c.fill (entryOf va (satpAsid e.satp) i (gAbove || pteG r.pte) r.addr r.pte) m) := by
  rcases step2Read_ok hread with ⟨t, -, -, -, hm⟩ | ⟨haddr, hcheck, hglobal, hvalue, hm⟩
  · exact .inl hm
  · have hseen : wordSeen e m0 r.addr (implicitRead e.cfg.implicitReads c fresh r.addr m) := by
      simpa [wordSeen, h.mem, h.unfenced] using wordSeen_implicitRead e c fresh r.addr m
    refine .inr ⟨⟨haddr, hglobal, hcheck, ?_⟩, hglobal ▸ hm⟩
    rcases hvalue with hsome | ⟨hnone, hspec⟩
    · exact .inl (hsome ▸ hseen)
    · exact .inr ⟨hspec, hnone ▸ hseen⟩

section
variable {P : MemSys → Prop} {e : Mmu} {spec : Bool} {land : List Event → MemSys → MemSys} {acc : AccessType}
  {va : Word} {priv : Priv} {m0 : MemSys} (hland : ∀ m, land [] m = m) (hdraws : ∀ m ds, P m → P { m with draws := ds })
  (hfill : ∀ i a gAbove r m f, mayVisit e spec m0 va i a gAbove → memoryMayAnswer e spec m0 va i a gAbove r →
    m.mem = m0.mem → P m →
    P (fillAtc f (entryOf va (satpAsid e.satp) i (gAbove || pteG r.pte) r.addr r.pte) m))
  (hwrite : ∀ i a gAbove r m f, mayVisit e spec m0 va i a gAbove → mayAnswer e spec m0 va i a gAbove r →
    passingLeaf e acc priv i r.pte → e.cfg.adScheme = .update → physCheck e.cfg r.addr .write .supervisor = true →
    m.mem = m0.mem → readWord m0.mem r.addr = some r.pte → P m →
    P (fillAtc f (entryOf va (satpAsid e.satp) i (gAbove || pteG r.pte) r.addr (writtenPte spec acc r.pte))
      { m with mem := writeWord m0.mem r.addr (writtenPte spec acc r.pte) }))

include hland hdraws in
theorem WalkAt.access_keeps {i : Level} {a : PhysAddr} {gAbove fresh : Bool} {m : MemSys}
    (h : WalkAt e spec m0 va i a gAbove fresh m) (hm : P m) : P (accessPoint land m).2 := by
  have hpop : (accessPoint land m).2 = { m with draws := m.draws.tail } := by
    simp [accessPoint, popDraw_events_of_undisturbed h.undisturbed, hland, popDraw_snd]
  exact hpop ▸ hdraws m _ hm

include hland hdraws hwrite in
theorem WalkAt.step7_keeps {i : Level} {a : PhysAddr} {gAbove : Bool} {m m' : MemSys} {r : PteRead}
    (h : WalkAt e spec m0 va i a gAbove true m) (hanswer : mayAnswer e spec m0 va i a gAbove r)
    (hleaf : passingLeaf e acc priv i r.pte) (hm : P m)
    (hdone : step7 e spec land acc va i gAbove r m = .done m') : P m' := by
  have h1 := h.afterAccess hland
  have hm1 := h.access_keeps hland hdraws hm
  rcases step7_done_cases hdone with rfl | rfl | ⟨hs, hcheck, hr, f, rfl⟩
  · exact hm
  · exact hm1
  · rw [h1.mem] at hr ⊢
    exact hwrite _ _ _ _ _ f h.visit hanswer hleaf hs hcheck h1.mem hr hm1

include hland hdraws hfill hwrite in
/-- The induction over a walk while no other agent acts, once: what the taking of draws, the caching of what memory may
answer the walk, and the write of step 7 over a leaf it may read keep, the walk keeps. -/
theorem WalkAt.walk_keeps {n : Nat} {i : Level} {a : PhysAddr} {gAbove fresh : Bool} {m : MemSys}
    (h : WalkAt e spec m0 va i a gAbove fresh m) (hm : P m) :
    (walk e spec land acc va priv n i a gAbove fresh m).Leaves P := by
  induction n generalizing i a gAbove fresh m with
  | zero => trivial
  | succ n ih =>
    have h1 := h.afterAccess hland
    have hm1 := h.access_keeps hland hdraws hm
    simp only [walk]
    cases hread : step2Read e spec (accessPoint land m).1 acc va i a gAbove fresh (accessPoint land m).2 with
    | stuck f => trivial
    | raised x m2 =>
      obtain ⟨-, rfl⟩ := step2Read_raised hread
      exact hm1
    | ok r m2 =>
      have h2 := h1.afterRead hread
      have hm2 : P m2 := by
        rcases h1.read_cases hread with rfl | ⟨hanswer, rfl⟩
        · exact hm1
        · exact hfill _ _ _ _ _ _ h.visit hanswer h1.mem hm1
      simp only [MRes.bind]
      cases hi : inspect e acc priv i r.pte with
      | pageFault => exact hm2
      | descend a' => exact ih (h1.descend hread hi) hm2
      | leaf =>
        dsimp only
        cases hs : step7 e spec land acc va i gAbove r m2 with
        | done m3 => exact h2.step7_keeps hland hdraws hwrite (h1.mayAnswer_of_read hread) (inspect_leaf hi) hm2 hs
        | raised k m3 =>
          obtain ⟨-, rfl⟩ := step7_raised hs
          exact hm2
        | retry m3 =>
          obtain rfl := step7_retry hs
          exact ih (h2.afterAccess hland) (h2.access_keeps hland hdraws hm2)
        | stuck f => trivial

end

/-- `WalkAt.walk_keeps` for a whole translation. -/
theorem translate_keeps {P : MemSys → Prop} {e : Mmu} {acc : AccessType} {va : Word} {priv : Priv} {m : MemSys}
    (hdraws : ∀ m ds, P m → P { m with draws := ds })
    (hfill : ∀ i a gAbove r m' f, mayVisit e false m va i a gAbove → memoryMayAnswer e false m va i a gAbove r →
      m'.mem = m.mem → P m' →
      P (fillAtc f (entryOf va (satpAsid e.satp) i (gAbove || pteG r.pte) r.addr r.pte) m'))
    (hwrite : ∀ i a gAbove r m' f, mayVisit e false m va i a gAbove → mayAnswer e false m va i a gAbove r →
      passingLeaf e acc priv i r.pte → e.cfg.adScheme = .update → physCheck e.cfg r.addr .write .supervisor = true →
      m'.mem = m.mem → readWord m.mem r.addr = some r.pte → P m' →
      P (fillAtc f (entryOf va (satpAsid e.satp) i (gAbove || pteG r.pte) r.addr (setAD r.pte acc))
        { m' with mem := writeWord m.mem r.addr (setAD r.pte acc) }))
    (h : Undisturbed m) (hm : P m) : (translate e acc va priv m).Leaves P := by
  unfold translate
  split
  · exact hm
  · exact (WalkAt.root h).walk_keeps (fun _ => rfl) hdraws hfill hwrite hm

/-- `WalkAt.walk_keeps` for a speculative walk, inside which nothing lands (R169). -/
theorem specWalk_keeps {P : MemSys → Prop} {e : Mmu} {acc : AccessType} {va : Word} {priv : Priv} {m : MemSys}
    (hdraws : ∀ m ds, P m → P { m with draws := ds })
    (hfill : ∀ i a gAbove r m' f, mayVisit e true m va i a gAbove → memoryMayAnswer e true m va i a gAbove r →
      m'.mem = m.mem → P m' →
      P (fillAtc f (entryOf va (satpAsid e.satp) i (gAbove || pteG r.pte) r.addr r.pte) m'))
    (hwrite : ∀ i a gAbove r m' f, mayVisit e true m va i a gAbove → mayAnswer e true m va i a gAbove r →
      passingLeaf e acc priv i r.pte → e.cfg.adScheme = .update → physCheck e.cfg r.addr .write .supervisor = true →
      m'.mem = m.mem → readWord m.mem r.addr = some r.pte → P m' →
      P (fillAtc f (entryOf va (satpAsid e.satp) i (gAbove || pteG r.pte) r.addr (setA r.pte))
        { m' with mem := writeWord m.mem r.addr (setA r.pte) }))
    (cs : List Choice) (hm : P m) : P (specWalk e va acc priv cs m) := by
  have hw : (walkFromRoot e true landNothing acc va priv { m with draws := cs.map (fun c => ⟨[], c⟩) }).Leaves P :=
    WalkAt.walk_keeps (m0 := { m with draws := cs.map (fun c => ⟨[], c⟩) }) (fun _ => rfl) hdraws hfill hwrite
      (WalkAt.root (by simp [Undisturbed])) (hdraws _ _ hm)
  unfold specWalk
  split
  · split
    · next h => rw [h] at hw; exact hdraws _ _ hw
    · next h => rw [h] at hw; exact hdraws _ _ hw
    · exact hm
  · exact hm

/-! ## When a speculative walk begins, and what it leaves (R167, R168) -/

theorem activeNow_eq_false_of_machine {s : State} (hm : s.priv = .machine)
    (h : s.mstatus.mprv = false ∨ s.mstatus.mpp = .machine) : activeNow s = false := by
  rcases h with h | h <;> simp [activeNow, hm, h]

/-- No speculative walk begins under Bare, nor while `satp` is not active (R167). -/
theorem specWalk_eq_self {e : Mmu} (h : satpMode e.satp = .bare ∨ e.active = false) (va : Word) (acc : AccessType)
    (priv : Priv) (cs : List Choice) (m : MemSys) : specWalk e va acc priv cs m = m := by
  rcases h with h | h <;> simp [specWalk, h]

/-- Settles O49: in each of the three cases MODE is Bare or `ActiveNow` is false. -/
theorem specWalkNeedsActiveSatp : Obligations.SpecWalkNeedsActiveSatp := by
  intro s va acc priv cs m h
  refine specWalk_eq_self ?_ va acc priv cs m
  rcases h with hbare | ⟨hm, hmprv⟩
  · exact .inl hbare
  · exact .inr (activeNow_eq_false_of_machine hm hmprv)

/-- A speculative walk leaves memory as it was, or sets A, under the updating scheme, in one word (R168). -/
theorem specWalk_mem_cases (e : Mmu) (va : Word) (acc : AccessType) (priv : Priv) (cs : List Choice) (m : MemSys) :
    (specWalk e va acc priv cs m).mem = m.mem ∨
    (e.cfg.adScheme = .update ∧ ∃ addr pte, readWord m.mem addr = some pte ∧
      (specWalk e va acc priv cs m).mem = writeWord m.mem addr (setA pte)) :=
  specWalk_keeps (P := fun m' => m'.mem = m.mem ∨ (e.cfg.adScheme = .update ∧ ∃ addr pte,
      readWord m.mem addr = some pte ∧ m'.mem = writeWord m.mem addr (setA pte)))
    (fun _ _ h => h) (fun _ _ _ _ _ _ _ _ hmem _ => .inl (by rw [fillAtc_mem, hmem]))
    (fun _ _ _ r _ _ _ _ _ hs _ _ hr _ => .inr ⟨hs, r.addr, r.pte, hr, by rw [fillAtc_mem]⟩) cs (.inl rfl)

theorem mem_fillAtc_of_mem {t : AtcEntry} {m : MemSys} (h : t ∈ m.atc) (f : Bool) (t' : AtcEntry) :
    t ∈ (fillAtc f t' m).atc := by
  rcases fillAtc_atc f t' m with heq | heq <;> rw [heq]
  · exact h
  · exact List.mem_cons_of_mem _ h

/-- A speculative walk removes no entry. -/
theorem specWalk_atc_subset {e : Mmu} {va : Word} {acc : AccessType} {priv : Priv} {cs : List Choice} {m : MemSys}
    {t : AtcEntry} (h : t ∈ m.atc) : t ∈ (specWalk e va acc priv cs m).atc :=
  specWalk_leaves (P := fun m' => t ∈ m'.atc) (fun _ _ hm => hm) (fun _ f t' hm _ => mem_fillAtc_of_mem hm f t')
    (fun _ _ _ hm _ _ _ => hm) va acc priv cs h

/-- Setting A in a word changes just its lowest byte. -/
theorem readByte_writeWord_setA {mem : Memory} {pa : PhysAddr} {pte : Word} (h : readWord mem pa = some pte) :
    ∃ b, readByte mem pa = some b ∧
      ∀ q, readByte (writeWord mem pa (setA pte)) q = if q = pa then some (b ||| 0x40#8) else readByte mem q := by
  rw [setA_eq_setAD_load]
  exact readByte_writeWord_setAD h .load

/-- Settles O47: the one write of a speculative walk sets A in the lowest byte of a word, and its fills remove
nothing. -/
theorem specWalkSetsOnlyA : Obligations.SpecWalkSetsOnlyA := by
  intro e va acc priv cs m
  refine and_assoc.mp ⟨?_, fun t ht => specWalk_atc_subset ht, specWalk_draws e va acc priv cs m⟩
  rcases specWalk_mem_cases e va acc priv cs m with hmem | ⟨hs, addr, pte, hr, hmem⟩
  · simp [hmem]
  · obtain ⟨b, hb, hafter⟩ := readByte_writeWord_setA hr
    have hchanged (q : PhysAddr) (hq : readByte (specWalk e va acc priv cs m).mem q ≠ readByte m.mem q) : q = addr := by
      by_contra hne
      exact hq (by rw [hmem, hafter, if_neg hne])
    refine ⟨fun q => ?_, fun q q' hq hq' => (hchanged q hq).trans (hchanged q' hq').symm⟩
    by_cases hq : q = addr
    · subst hq
      exact .inr ⟨hs, b, hb, by rw [hmem, hafter, if_pos rfl]⟩
    · exact .inl (by rw [hmem, hafter, if_neg hq])

/-! ## What a walk adds to the cache (R162, R179) -/

theorem mem_or_of_mem_fillAtc {t t' : AtcEntry} {f : Bool} {m : MemSys} (h : t ∈ (fillAtc f t' m).atc) :
    t ∈ m.atc ∨ t = t' := by
  rcases fillAtc_atc f t' m with heq | heq <;> rw [heq] at h
  · exact .inl h
  · exact (List.mem_cons.mp h).symm

/-- Every entry was in the cache of `m0`, or is one that a walk that began in `m0` may add. -/
def NewEntriesMayBeAdded (e : Mmu) (spec : Bool) (acc : AccessType) (m0 : MemSys) (va : Word) (m : MemSys) : Prop :=
  ∀ t ∈ m.atc, t ∈ m0.atc ∨ mayAdd e spec acc m0 va t

/-- A fill of an entry the walk may add. -/
theorem NewEntriesMayBeAdded.fill {e : Mmu} {spec : Bool} {acc : AccessType} {m0 : MemSys} {va : Word} {m : MemSys}
    (h : NewEntriesMayBeAdded e spec acc m0 va m) {t : AtcEntry} (ht : mayAdd e spec acc m0 va t) (f : Bool) :
    NewEntriesMayBeAdded e spec acc m0 va (fillAtc f t m) := fun t' ht' =>
  (mem_or_of_mem_fillAtc ht').elim (h t') fun heq => .inr (heq ▸ ht)

theorem translate_newEntries {e : Mmu} {acc : AccessType} {va : Word} {priv : Priv} {m : MemSys} (h : Undisturbed m) :
    (translate e acc va priv m).Leaves (NewEntriesMayBeAdded e false acc m va) :=
  translate_keeps (fun _ _ hm => hm)
    (fun i a gAbove r _ f hvisit hanswer _ hm => hm.fill ⟨i, a, gAbove, r, hvisit, .inl ⟨hanswer, rfl⟩⟩ f)
    (fun i a gAbove r m' f hvisit hanswer hleaf hs _ _ hr hm =>
      NewEntriesMayBeAdded.fill (m := { m' with mem := writeWord m.mem r.addr (setAD r.pte acc) }) hm
        ⟨i, a, gAbove, r, hvisit, .inr ⟨hanswer, hleaf.1, hs, hr, rfl⟩⟩ f)
    h (fun _ => .inl)

theorem specWalk_newEntries (e : Mmu) (va : Word) (acc : AccessType) (priv : Priv) (cs : List Choice) (m : MemSys) :
    NewEntriesMayBeAdded e true acc m va (specWalk e va acc priv cs m) :=
  specWalk_keeps (fun _ _ hm => hm)
    (fun i a gAbove r _ f hvisit hanswer _ hm => hm.fill ⟨i, a, gAbove, r, hvisit, .inl ⟨hanswer, rfl⟩⟩ f)
    (fun i a gAbove r m' f hvisit hanswer hleaf hs _ _ hr hm =>
      NewEntriesMayBeAdded.fill (m := { m' with mem := writeWord m.mem r.addr (setA r.pte) }) hm
        ⟨i, a, gAbove, r, hvisit, .inr ⟨hanswer, hleaf.1, hs, hr, rfl⟩⟩ f)
    cs (fun _ => .inl)

/-! ## Every answer a walk may get is one that some choice gives it (R162 to R164) -/

/-- A choice under which a read of memory sees a value it may see there. -/
theorem exists_implicitRead_of_wordSeen {e : Mmu} {m : MemSys} {addr : PhysAddr} {v : Option Word}
    (h : wordSeen e m addr v) :
    ∃ older, ∀ c : Choice, c.older = older → implicitRead e.cfg.implicitReads c false addr m = v := by
  rcases h with hnow | ⟨hvis, hold⟩
  · exact ⟨none, fun c hc => (implicitRead_eq_readWord false addr (.inr (.inr hc))).trans hnow⟩
  · obtain ⟨k, hk⟩ := exists_implicitRead_superseded hold
    refine ⟨some k, fun c hc => ?_⟩
    rw [hvis, ← hk]
    simp only [implicitRead, hc]
    rfl

/-- Memory may answer a step-2 read with each value it may answer, put into the cache or not, and no A set. -/
theorem exists_step2Read_of_memoryMayAnswer {e : Mmu} {spec : Bool} {m : MemSys} {va : Word} {i : Level} {a : PhysAddr}
    {gAbove : Bool} {r : PteRead} (h : memoryMayAnswer e spec m va i a gAbove r) (fill : Bool) :
    ∃ c : Choice, c.setA = false ∧ ∀ acc ds, step2Read e spec c acc va i a gAbove false { m with draws := ds } =
      .ok r (fillAtc fill (entryOf va (satpAsid e.satp) i (gAbove || pteG r.pte) r.addr r.pte)
        { m with draws := ds }) := by
  obtain ⟨addr, pte, global⟩ := r
  obtain ⟨haddr, hglobal, hcheck, hvalue⟩ := h
  dsimp only at haddr hglobal hcheck hvalue
  subst haddr hglobal
  rcases hvalue with hseen | ⟨rfl, hseen⟩
  · obtain ⟨older, hread⟩ := exists_implicitRead_of_wordSeen hseen
    refine ⟨⟨none, older, fill, false, 0#32⟩, rfl, fun acc ds => step2Read_of_implicitRead rfl hcheck ?_⟩
    exact hread _ rfl
  · obtain ⟨older, hread⟩ := exists_implicitRead_of_wordSeen hseen
    refine ⟨⟨none, older, fill, false, pte⟩, rfl, fun acc ds => ?_⟩
    have hnone : implicitRead e.cfg.implicitReads ⟨none, older, fill, false, pte⟩ false (pteAddress a i va)
      { m with draws := ds } = none := hread _ rfl
    simp [step2Read, chooseHit, hcheck, hnone]

/-- Each entry that hits is one some choice names. -/
theorem exists_chooseHit {atc : List AtcEntry} {i : Level} {va : Word} {asid : Asid} {t : AtcEntry} (ht : t ∈ atc)
    (hhit : hit t i va asid = true) : ∃ k, chooseHit atc i va asid (some k) = some t :=
  List.mem_iff_getElem?.mp (List.mem_filter.mpr ⟨ht, hhit⟩)

/-- A choice that names an entry, with nothing put into the cache and no A set. -/
def Choice.nameHit (k : Nat) : Choice := { Choice.quiet with use := some k }

/-- Each entry that hits may answer a step-2 read, which then changes nothing (R163). -/
theorem exists_step2Read_of_hit {m : MemSys} {i : Level} {va : Word} {e : Mmu} {t : AtcEntry} (ht : t ∈ m.atc)
    (hhit : hit t i va (satpAsid e.satp) = true) :
    ∃ k, ∀ spec acc a gAbove ds, step2Read e spec (Choice.nameHit k) acc va i a gAbove false { m with draws := ds } =
      .ok ⟨t.pteAddr, t.pte, t.global⟩ { m with draws := ds } := by
  obtain ⟨k, hk⟩ := exists_chooseHit ht hhit
  exact ⟨k, fun spec acc a gAbove ds => by simp [step2Read, Choice.nameHit, hk]⟩

/-- Settles O45. A walk caches only what it reads from memory and what step 7 wrote; and a choice names what a read sees
and whether the value is cached. -/
theorem newEntriesAreReadsWithTheirTag : Obligations.NewEntriesAreReadsWithTheirTag := by
  refine ⟨fun e acc va priv m m' h hends => ?_, fun e acc va priv cs m => specWalk_newEntries e va acc priv cs m,
    fun e spec acc va i a gAbove m r hanswer => ?_, fun e acc va i gAbove m r hr => ?_⟩
  · have hnew := translate_newEntries (e := e) (acc := acc) (va := va) (priv := priv) h
    rcases hends with ⟨pa, hok⟩ | ⟨x, hraised⟩
    · rwa [hok] at hnew
    · rwa [hraised] at hnew
  · obtain ⟨c, -, hread⟩ := exists_step2Read_of_memoryMayAnswer hanswer true
    exact ⟨c, hread acc m.draws⟩
  · refine ⟨{ Choice.quiet with fill := true }, ?_⟩
    rw [compareAndSet_of_current hr, pteG_setAD]
    rfl

/-! ## The ways a walk may take (T1, T3 and T7 of 95_test_vectors.md) -/

/-- Each answer a step-2 read may get is given under some choice, with nothing changed and no A set (R163). -/
theorem exists_step2Read_of_mayAnswer {e : Mmu} {spec : Bool} {m : MemSys} {va : Word} {i : Level} {a : PhysAddr}
    {gAbove : Bool} {r : PteRead} (h : mayAnswer e spec m va i a gAbove r) :
    ∃ c, ∀ acc ds, step2Read e spec c acc va i a gAbove false { m with draws := ds } =
      .ok r { m with draws := ds } := by
  rcases h with ⟨t, ht, hhit, rfl⟩ | hmemory
  · obtain ⟨k, hk⟩ := exists_step2Read_of_hit ht hhit
    exact ⟨Choice.nameHit k, fun acc ds => hk spec acc a gAbove ds⟩
  · obtain ⟨c, -, hread⟩ := exists_step2Read_of_memoryMayAnswer hmemory false
    exact ⟨c, hread⟩

/-- The draws of accesses before which nothing lands. -/
def quietDraws (cs : List Choice) : List Draw := cs.map fun c => ⟨[], c⟩

/-- Steps 3 and 4 pass a pointer that step 3 does not refuse (R135, R136). -/
theorem inspect_of_pointer_not_refused {e : Mmu} {pte : Word} (hclass : pteClass pte = .pointer)
    (h : ¬ refusedByStep3 e pte) (acc : AccessType) (priv : Priv) :
    inspect e acc priv .one pte = .descend (tableBase (ptePpn pte)) := by
  rw [inspect_one_of_pointer hclass, if_neg fun hdau => h (refusedByStep3_iff.mpr (.inr (.inr ⟨hclass, hdau⟩)))]

section
variable {e : Mmu} {spec : Bool} {land : List Event → MemSys → MemSys} {acc : AccessType} {va : Word} {priv : Priv}
  {i : Level} {a : PhysAddr} {gAbove fresh : Bool} {m m' : MemSys} {r : PteRead}

/-- A pass that reads a pointer which steps 3 and 4 pass goes on in the table below. -/
theorem walk_of_pointerRead {a' : PhysAddr}
    (hread : step2Read e spec (accessPoint land m).1 acc va i a gAbove fresh (accessPoint land m).2 = .ok r m')
    (hdown : inspect e acc priv i r.pte = .descend a') (n : Nat) :
    walk e spec land acc va priv (n + 1) i a gAbove fresh m =
      walk e spec land acc va priv n .zero a' r.global false m' := by
  simp [walk, hread, MRes.bind, hdown]

/-- A pass that reads a passing leaf at which step 7 is done is the last one (R140). -/
theorem walk_of_leafDone {m3 : MemSys}
    (hread : step2Read e spec (accessPoint land m).1 acc va i a gAbove fresh (accessPoint land m).2 = .ok r m')
    (hleaf : passingLeaf e acc priv i r.pte) (hdone : step7 e spec land acc va i gAbove r m' = .done m3) (n : Nat) :
    walk e spec land acc va priv (n + 1) i a gAbove fresh m = .ok (finalPa i r.pte va) m3 := by
  simp [walk, hread, MRes.bind, inspect_of_passingLeaf hleaf, hdone]

/-- A walk under named choices makes its next read under the first of them. -/
theorem step2Read_of_quietDraws (hland : ∀ m, land [] m = m) {c : Choice} {cs : List Choice}
    (hread : step2Read e spec c acc va i a gAbove false { m with draws := quietDraws cs } = .ok r m') :
    step2Read e spec (accessPoint land { m with draws := quietDraws (c :: cs) }).1 acc va i a gAbove false
      (accessPoint land { m with draws := quietDraws (c :: cs) }).2 = .ok r m' := by
  simpa [accessPoint, popDraw, quietDraws, hland] using hread

/-- Some choices bring a walk, with nothing changed, to every table it may visit. -/
theorem exists_walkFromRoot_to_visit (hvisit : mayVisit e spec m va i a gAbove) (hland : ∀ m, land [] m = m)
    (acc : AccessType) (priv : Priv) :
    ∃ cs, ∀ cs', walkFromRoot e spec land acc va priv { m with draws := quietDraws (cs ++ cs') } =
      walk e spec land acc va priv (cs'.length + 2) i a gAbove false { m with draws := quietDraws cs' } := by
  cases i with
  | one =>
    obtain ⟨rfl, rfl⟩ := hvisit
    exact ⟨[], fun cs' => by simp [walkFromRoot, walkBound, quietDraws]⟩
  | zero =>
    obtain ⟨r, hanswer, hclass, hstep3, rfl, rfl⟩ := hvisit
    obtain ⟨c, hread⟩ := exists_step2Read_of_mayAnswer hanswer
    refine ⟨[c], fun cs' => ?_⟩
    have hbound : walkBound { m with draws := quietDraws ([c] ++ cs') } = cs'.length + 2 + 1 := by
      simp [walkBound, quietDraws]
    rw [walkFromRoot, hbound]
    exact walk_of_pointerRead (step2Read_of_quietDraws hland (hread acc _))
      (inspect_of_pointer_not_refused hclass hstep3 acc priv) _

end

/-- Settles O44. A choice names each entry that hits; and draws that name a pointer and a leaf, each from where it may
be read, make a translation that ends at that leaf. -/
theorem everyHitMayAnswer : Obligations.EveryHitMayAnswer := by
  refine ⟨fun e spec acc va i a gAbove m t ht hhit => ?_, fun e acc va priv m i r hmode hpriv hread hleaf hneed => ?_⟩
  · obtain ⟨k, hk⟩ := exists_step2Read_of_hit ht hhit
    exact ⟨_, hk spec acc a gAbove m.draws⟩
  · obtain ⟨a, gAbove, hvisit, hanswer⟩ := hread
    obtain ⟨cs, hwalk⟩ := exists_walkFromRoot_to_visit (land := applyEvents e) hvisit (fun _ => rfl) acc priv
    obtain ⟨c, hc⟩ := exists_step2Read_of_mayAnswer hanswer
    refine ⟨quietDraws (cs ++ [c]), ?_⟩
    have ht : ¬ (satpMode e.satp = .bare ∨ priv = .machine) := by simp [hmode, hpriv]
    rw [translate, if_neg ht, hwalk]
    exact walk_of_leafRead (step2Read_of_quietDraws (fun _ => rfl) (hc acc (quietDraws []))) hleaf hneed _

/-! ## What a speculative walk may do (R167, R168, R170) -/

/-- What a speculative walk that is enabled and not stuck leaves is what its walk leaves. -/
theorem specWalk_of_walkFromRoot {P : MemSys → Prop} {e : Mmu} {va : Word} {acc : AccessType} {priv : Priv}
    {cs : List Choice} {m : MemSys} (hmode : satpMode e.satp = .sv32) (hactive : e.active = true)
    (hpriv : priv ≠ .machine) (hdraws : ∀ m ds, P m → P { m with draws := ds })
    (hw : (walkFromRoot e true landNothing acc va priv { m with draws := quietDraws cs }).Leaves P)
    (hne : ∀ f, walkFromRoot e true landNothing acc va priv { m with draws := quietDraws cs } ≠ .stuck f) :
    P (specWalk e va acc priv cs m) := by
  unfold quietDraws at hw hne
  rw [specWalk, if_pos (by simp [hmode, hactive, hpriv])]
  cases hq : walkFromRoot e true landNothing acc va priv { m with draws := cs.map fun c => ⟨[], c⟩ } with
  | ok pa m' => rw [hq] at hw; exact hdraws _ _ hw
  | raised x m' => rw [hq] at hw; exact hdraws _ _ hw
  | stuck f => exact absurd hq (hne f)

/-- A speculative walk's read never stops: an unwritten word is some value (R168; assumption log 5). -/
theorem step2Read_spec_ne_stuck (e : Mmu) (c : Choice) (acc : AccessType) (va : Word) (i : Level) (a : PhysAddr)
    (gAbove fresh : Bool) (m : MemSys) (f : Fault) : step2Read e true c acc va i a gAbove fresh m ≠ .stuck f := by
  unfold step2Read
  split
  · simp
  · dsimp only
    split
    · split <;> simp_all
    · simp

/-- A speculative walk that chooses to set no A is done at step 7, or raises. -/
theorem step7_spec_of_no_setA {e : Mmu} {acc : AccessType} {va : Word} {i : Level} {gAbove : Bool} {r : PteRead}
    {m : MemSys} (h : (accessPoint landNothing m).1.setA = false) :
    (∃ m', step7 e true landNothing acc va i gAbove r m = .done m') ∨
    (∃ k, step7 e true landNothing acc va i gAbove r m = .raised k m) := by
  rcases step7_cases e true landNothing acc va i gAbove r m with h' | h' | ⟨-, -, h'⟩
  · exact .inl ⟨_, h'⟩
  · exact .inr h'
  · exact .inl ⟨(accessPoint landNothing m).2, by simp [h', compareAndSet, h]⟩

/-- No choice still to come sets A. -/
def SetsNoA (m : MemSys) : Prop := ∀ d ∈ m.draws, d.choice.setA = false

theorem SetsNoA.accessPoint_setA {m : MemSys} (h : SetsNoA m) (land : List Event → MemSys → MemSys) :
    (accessPoint land m).1.setA = false := by
  have : (accessPoint land m).1 = (popDraw m).1.choice := rfl
  rcases popDraw_draw m with hd | hd
  · exact this ▸ h _ hd
  · rw [this, hd]; rfl

/-- A speculative walk that sets no A makes one pass for each level, and ends. -/
theorem walk_spec_ne_stuck_of_no_setA {e : Mmu} {acc : AccessType} {va : Word} {priv : Priv} {n : Nat} {i : Level}
    {a : PhysAddr} {gAbove fresh : Bool} {m : MemSys} (h : SetsNoA m) (hn : i.passes ≤ n) (f : Fault) :
    walk e true landNothing acc va priv n i a gAbove fresh m ≠ .stuck f := by
  induction n generalizing i a gAbove fresh m with
  | zero => cases i <;> simp [Level.passes] at hn
  | succ n ih =>
    have hpop : SetsNoA (accessPoint landNothing m).2 := fun d hd => h d (mem_draws_of_mem_popDraw hd)
    simp only [walk]
    cases hread : step2Read e true (accessPoint landNothing m).1 acc va i a gAbove fresh
      (accessPoint landNothing m).2 with
    | stuck g => exact absurd hread (step2Read_spec_ne_stuck _ _ _ _ _ _ _ _ _ _)
    | raised x m2 => simp [MRes.bind]
    | ok r m2 =>
      obtain ⟨-, -, hdraws, -⟩ := step2Read_ok_frame hread
      have h2 : SetsNoA m2 := fun d hd => hpop d (hdraws ▸ hd)
      simp only [MRes.bind]
      cases hi : inspect e acc priv i r.pte with
      | pageFault => simp
      | descend a' =>
        obtain ⟨rfl, -, -⟩ := inspect_descend hi
        exact ih h2 (by simpa [Level.passes] using hn)
      | leaf =>
        rcases step7_spec_of_no_setA (e := e) (acc := acc) (va := va) (i := i) (gAbove := gAbove) (r := r)
          (h2.accessPoint_setA landNothing) with ⟨m3, hs⟩ | ⟨k, hs⟩ <;> simp [hs]

/-- What a pass has read into the cache stays there to the end of the walk. -/
theorem walk_keeps_entries_of_read {e : Mmu} {spec : Bool} {acc : AccessType} {va : Word} {priv : Priv} {n : Nat}
    {i : Level} {a : PhysAddr} {gAbove fresh : Bool} {m m' : MemSys} {r : PteRead} {t : AtcEntry}
    (hread : step2Read e spec (accessPoint landNothing m).1 acc va i a gAbove fresh (accessPoint landNothing m).2 =
      .ok r m') (ht : t ∈ m'.atc) :
    (walk e spec landNothing acc va priv (n + 1) i a gAbove fresh m).Leaves (fun m => t ∈ m.atc) := by
  have hfill (m : MemSys) (f : Bool) (t' : AtcEntry) (hm : t ∈ m.atc) (_ : t'.asid = satpAsid e.satp) :
    t ∈ (fillAtc f t' m).atc := mem_fillAtc_of_mem hm f t'
  have hland (m : MemSys) (hm : t ∈ m.atc) : t ∈ (accessPoint landNothing m).2.atc := (popDraw_atc m).symm ▸ hm
  simp only [walk, hread, MRes.bind]
  cases inspect e acc priv i r.pte with
  | pageFault => exact ht
  | descend a' => exact walk_leaves_writtenPte hfill (fun _ _ _ hm _ _ _ => hm) hland _ _ _ _ _ _ ht
  | leaf =>
    have h7 := step7_leaves_writtenPte (spec := spec) (acc := acc) (va := va) hfill (fun _ _ _ hm _ _ _ => hm) hland i
      gAbove r ht
    dsimp only
    cases hs : step7 e spec landNothing acc va i gAbove r m' with
    | done m3 => rw [hs] at h7; exact h7
    | raised k m3 => rw [hs] at h7; exact h7
    | retry m3 =>
      rw [hs] at h7
      exact walk_leaves_writtenPte hfill (fun _ _ _ hm _ _ _ => hm) hland _ _ _ _ _ _ h7
    | stuck f => trivial

/-- A choice under which a speculative walk sets A. -/
def Choice.settingA : Choice := { Choice.quiet with setA := true }

/-- Step 7 of a speculative walk whose choice is to set A sets it in a word that still stands (R168). -/
theorem step7_spec_of_settingA {e : Mmu} {r : PteRead} {m : MemSys} (hs : e.cfg.adScheme = .update)
    (hA : pteA r.pte = false) (hr : readWord m.mem r.addr = some r.pte)
    (hcheck : physCheck e.cfg r.addr .write .supervisor = true) (acc : AccessType) (va : Word) (i : Level)
    (gAbove : Bool) :
    step7 e true landNothing acc va i gAbove r { m with draws := quietDraws [Choice.settingA] } =
      .done { m with draws := [], mem := writeWord m.mem r.addr (setA r.pte) } := by
  simp [step7, needsUpdate, hA, hs, hcheck, accessPoint, popDraw, quietDraws, landNothing, compareAndSet, hr,
    Choice.settingA, Choice.quiet, fillAtc]

/-- Settles O48. Choices bring a speculative walk to the read, where one more caches the value read, or two more read
the leaf and set A in it. -/
theorem specWalkMayFillAndSetA : Obligations.SpecWalkMayFillAndSetA := by
  intro e va acc priv m hmode hactive hpriv
  refine ⟨fun i a gAbove r hvisit hanswer => ?_, fun hs i r hmay hleaf hA hr hcheck => ?_⟩
  · obtain ⟨cs, hwalk⟩ := exists_walkFromRoot_to_visit (land := landNothing) hvisit (fun _ => rfl) acc priv
    obtain ⟨c, hsetA, hc⟩ := exists_step2Read_of_memoryMayAnswer hanswer true
    have hread := step2Read_of_quietDraws (land := landNothing) (fun _ => rfl) (hc acc (quietDraws []))
    have hnoA : SetsNoA { m with draws := quietDraws [c] } := by simpa [SetsNoA, quietDraws] using hsetA
    refine ⟨cs ++ [c], ?_⟩
    refine specWalk_of_walkFromRoot
      (P := fun m' => entryOf va (satpAsid e.satp) i (gAbove || pteG r.pte) r.addr r.pte ∈ m'.atc) hmode hactive hpriv
      (fun _ _ h => h) ?_ fun f => ?_ <;> rw [hwalk]
    · exact walk_keeps_entries_of_read hread List.mem_cons_self
    · exact walk_spec_ne_stuck_of_no_setA hnoA (by cases i <;> simp [Level.passes]) f
  · obtain ⟨a, gAbove, hvisit, hanswer⟩ := hmay
    obtain ⟨cs, hwalk⟩ := exists_walkFromRoot_to_visit (land := landNothing) hvisit (fun _ => rfl) acc priv
    obtain ⟨c, hc⟩ := exists_step2Read_of_mayAnswer hanswer
    have hread := step2Read_of_quietDraws (land := landNothing) (fun _ => rfl) (hc acc (quietDraws [Choice.settingA]))
    have hend := (hwalk [c, Choice.settingA]).trans
      (walk_of_leafDone hread hleaf (step7_spec_of_settingA hs hA hr hcheck acc va i gAbove) _)
    refine ⟨cs ++ [c, Choice.settingA], ?_⟩
    refine specWalk_of_walkFromRoot (P := fun m' => m'.mem = writeWord m.mem r.addr (setA r.pte)) hmode hactive hpriv
      (fun _ _ h => h) ?_ fun f => ?_ <;> rw [hend]
    · rfl
    · simp

/-! ## Entries of another address space (R163) -/

/-- An entry of the current address space, or a global one: one that can answer (R163). -/
def canAnswer (e : Mmu) (t : AtcEntry) : Bool := decide (t.asid = satpAsid e.satp) || t.global

/-- The memory system without the entries that cannot answer under the current ASID. -/
def dropForeign (e : Mmu) (m : MemSys) : MemSys := { m with atc := m.atc.filter (canAnswer e) }

/-- The result with the memory system it leaves changed. -/
def MRes.mapMem {α : Type} (f : MemSys → MemSys) : MRes α → MRes α
  | .ok a m     => .ok a (f m)
  | .raised x m => .raised x (f m)
  | .stuck g    => .stuck g

/-- The outcome of step 7 with the memory system it leaves changed. -/
def Step7.mapMem (f : MemSys → MemSys) : Step7 → Step7
  | .done m     => .done (f m)
  | .raised k m => .raised k (f m)
  | .retry m    => .retry (f m)
  | .stuck g    => .stuck g

/-- A change that keeps memory keeps the result. -/
theorem sameResult_mapMem {α : Type} {f : MemSys → MemSys} (hf : ∀ m, (f m).mem = m.mem) (r : MRes α) :
    SameResult r (r.mapMem f) := by
  cases r with
  | ok a m => exact ⟨rfl, (hf m).symm⟩
  | raised x m => exact ⟨rfl, (hf m).symm⟩
  | stuck g => exact rfl

theorem canAnswer_of_hit {e : Mmu} {t : AtcEntry} {i : Level} {va : Word} (h : hit t i va (satpAsid e.satp) = true) :
    canAnswer e t = true := by
  simp only [hit, Bool.and_eq_true] at h
  obtain ⟨⟨⟨-, hasid⟩, -⟩, -⟩ := h
  exact hasid

/-- The entries that hit, and their numbers, are the same without those that cannot answer. -/
theorem chooseHit_dropForeign (e : Mmu) (m : MemSys) (i : Level) (va : Word) (u : Option Nat) :
    chooseHit (dropForeign e m).atc i va (satpAsid e.satp) u = chooseHit m.atc i va (satpAsid e.satp) u := by
  have hfilter : (m.atc.filter (canAnswer e)).filter (fun t => hit t i va (satpAsid e.satp)) =
      m.atc.filter (fun t => hit t i va (satpAsid e.satp)) := by
    rw [List.filter_filter]
    refine List.filter_congr fun t _ => ?_
    cases hhit : hit t i va (satpAsid e.satp) with
    | false => rfl
    | true => simp [canAnswer_of_hit hhit]
  simp only [chooseHit, dropForeign, hfilter]

/-- What a walk puts into the cache can answer. -/
theorem fillAtc_dropForeign (e : Mmu) (f : Bool) (va : Word) (i : Level) (g : Bool) (addr : PhysAddr) (pte : Word)
    (m : MemSys) :
    fillAtc f (entryOf va (satpAsid e.satp) i g addr pte) (dropForeign e m) =
      dropForeign e (fillAtc f (entryOf va (satpAsid e.satp) i g addr pte) m) := by
  cases f <;> simp [fillAtc, dropForeign, canAnswer, entryOf]

theorem accessPoint_dropForeign {m : MemSys} (h : Undisturbed m) (e : Mmu) :
    accessPoint (applyEvents e) (dropForeign e m) =
      ((accessPoint (applyEvents e) m).1, dropForeign e (accessPoint (applyEvents e) m).2) := by
  have hdrop : Undisturbed (dropForeign e m) := h
  rw [accessPoint_of_undisturbed e h, accessPoint_of_undisturbed e hdrop]
  obtain ⟨mem, atc, unfenced, draws⟩ := m
  cases draws <;> rfl

theorem step2Read_dropForeign (e : Mmu) (c : Choice) (acc : AccessType) (va : Word) (i : Level) (a : PhysAddr)
    (gAbove fresh : Bool) (m : MemSys) :
    step2Read e false c acc va i a gAbove fresh (dropForeign e m) =
      (step2Read e false c acc va i a gAbove fresh m).mapMem (dropForeign e) := by
  have hread (addr : PhysAddr) : implicitRead e.cfg.implicitReads c fresh addr (dropForeign e m) =
    implicitRead e.cfg.implicitReads c fresh addr m := rfl
  simp only [step2Read, chooseHit_dropForeign, hread]
  cases (if fresh then none else chooseHit m.atc i va (satpAsid e.satp) c.use) with
  | some t => rfl
  | none =>
    cases physCheck e.cfg (pteAddress a i va) .read .supervisor with
    | false => rfl
    | true =>
      cases implicitRead e.cfg.implicitReads c fresh (pteAddress a i va) m with
      | none => rfl
      | some pte =>
        simp only [if_true, fillAtc_dropForeign]
        rfl

theorem compareAndSet_dropForeign (e : Mmu) (c : Choice) (acc : AccessType) (va : Word) (i : Level) (gAbove : Bool)
    (r : PteRead) (m : MemSys) :
    compareAndSet e false c acc va i gAbove r (dropForeign e m) =
      (compareAndSet e false c acc va i gAbove r m).mapMem (dropForeign e) := by
  have hmem : (dropForeign e m).mem = m.mem := rfl
  have hwrite (w : Memory) : { dropForeign e m with mem := w } = dropForeign e { m with mem := w } := rfl
  simp only [compareAndSet, hmem, hwrite, fillAtc_dropForeign, Bool.false_and, Bool.false_eq_true, if_false]
  cases readWord m.mem r.addr with
  | none => rfl
  | some cur => by_cases heq : cur = r.pte <;> simp [heq, Step7.mapMem]

theorem step7_dropForeign {m : MemSys} (h : Undisturbed m) (e : Mmu) (acc : AccessType) (va : Word) (i : Level)
    (gAbove : Bool) (r : PteRead) :
    step7 e false (applyEvents e) acc va i gAbove r (dropForeign e m) =
      (step7 e false (applyEvents e) acc va i gAbove r m).mapMem (dropForeign e) := by
  simp only [step7, accessPoint_dropForeign h, compareAndSet_dropForeign]
  cases needsUpdate r.pte acc with
  | false => rfl
  | true =>
    cases e.cfg.adScheme with
    | fault => rfl
    | update => cases physCheck e.cfg r.addr .write .supervisor <;> rfl

/-- While no other agent acts a walk takes the same way without the entries that cannot answer. -/
theorem walk_dropForeign {e : Mmu} {acc : AccessType} {va : Word} {priv : Priv} {n : Nat} {i : Level} {a : PhysAddr}
    {gAbove fresh : Bool} {m : MemSys} (h : Undisturbed m) :
    walk e false (applyEvents e) acc va priv n i a gAbove fresh (dropForeign e m) =
      (walk e false (applyEvents e) acc va priv n i a gAbove fresh m).mapMem (dropForeign e) := by
  induction n generalizing i a gAbove fresh m with
  | zero => rfl
  | succ n ih =>
    have haccess (m : MemSys) (h : Undisturbed m) : Undisturbed (accessPoint (applyEvents e) m).2 := by
      rw [accessPoint_of_undisturbed e h]
      exact popDraw_undisturbed h
    simp only [walk, accessPoint_dropForeign h, step2Read_dropForeign]
    cases hread : step2Read e false (accessPoint (applyEvents e) m).1 acc va i a gAbove fresh
      (accessPoint (applyEvents e) m).2 with
    | raised x m2 => rfl
    | stuck f => rfl
    | ok r m2 =>
      obtain ⟨-, -, hdraws, -⟩ := step2Read_ok_frame hread
      have h2 : Undisturbed m2 := fun d hd => haccess m h d (hdraws ▸ hd)
      simp only [MRes.mapMem, MRes.bind]
      cases inspect e acc priv i r.pte with
      | pageFault => rfl
      | descend a' => exact ih h2
      | leaf =>
        simp only [step7_dropForeign h2]
        cases hs : step7 e false (applyEvents e) acc va i gAbove r m2 with
        | done m3 => rfl
        | raised k m3 => rfl
        | retry m3 =>
          obtain rfl := step7_retry hs
          exact ih (haccess m2 h2)
        | stuck f => rfl

/-- Settles O43: the translation without the entries that cannot answer is the same one, with those entries dropped from
what it leaves. -/
theorem foreignAsidEntriesNeverAnswer : Obligations.ForeignAsidEntriesNeverAnswer := by
  intro e acc va priv m h
  have hdrop : translate e acc va priv (dropForeign e m) = (translate e acc va priv m).mapMem (dropForeign e) := by
    unfold translate
    split
    · rfl
    · exact walk_dropForeign h
  have hsame := sameResult_mapMem (fun _ => rfl) (translate e acc va priv m) (f := dropForeign e)
  rw [← hdrop] at hsame
  exact hsame

/-! ## PTEs in memory, and the write of one (R44, R134) -/

/-- Every PTE's address is a multiple of 4 (R134). -/
theorem pteAddress_mod_four (ppn : Ppn) (v : Vpn) : (tableBase ppn + v.setWidth 34 * 4#34).toNat % 4 = 0 := by
  have hbase : (tableBase ppn).toNat % 4 = 0 := by
    simp only [tableBase, place, BitVec.toNat_shiftLeft, BitVec.toNat_setWidth, Nat.shiftLeft_eq]
    omega
  simp only [BitVec.toNat_add, BitVec.toNat_mul, BitVec.toNat_ofNat]
  omega

/-- What the four bytes of a word read as, told from the bytes. -/
theorem readWord_eq_of_bytes {mem : Memory} {pa : PhysAddr} {b0 b1 b2 b3 : Byte} (h0 : readByte mem pa = some b0)
    (h1 : readByte mem (pa + 1#34) = some b1) (h2 : readByte mem (pa + 2#34) = some b2)
    (h3 : readByte mem (pa + 3#34) = some b3) : readWord mem pa = some (wordOfBytes b0 b1 b2 b3) := by
  simp [readWord, h0, h1, h2, h3]

/-- Setting A, or A and D, in a PTE changes no other PTE. -/
theorem readWord_writeWord_setAD {mem : Memory} {addr pa : PhysAddr} {pte : Word} (hr : readWord mem addr = some pte)
    (haddr : addr.toNat % 4 = 0) (hpa : pa.toNat % 4 = 0) (acc : AccessType) :
    readWord (writeWord mem addr (setAD pte acc)) pa =
      if pa = addr then some (setAD pte acc) else readWord mem pa := by
  obtain ⟨b0, b1, b2, b3, -, h1, h2, h3, rfl⟩ := readWord_eq_some hr
  have hbyte := readByte_writeWord_of_lowByte h1 h2 h3 (b0 ||| adByte acc)
  have hne1 : pa + 1#34 ≠ addr := by bv_omega
  have hne2 : pa + 2#34 ≠ addr := by bv_omega
  have hne3 : pa + 3#34 ≠ addr := by bv_omega
  rw [setAD_wordOfBytes]
  split
  · next heq =>
    subst heq
    exact readWord_eq_of_bytes (by rw [hbyte, if_pos rfl]) (by rw [hbyte, if_neg hne1, h1])
      (by rw [hbyte, if_neg hne2, h2]) (by rw [hbyte, if_neg hne3, h3])
  · next hne => simp only [readWord, hbyte, if_neg hne, if_neg hne1, if_neg hne2, if_neg hne3]

/-! ## A coherent cache and memory answer alike (R178) -/

/-- The table at level `i` that memory gives a walk for `va`: the root, or the one below the pointer that stands in
it. -/
def tableInMemory (e : Mmu) (mem : Memory) (va : Word) (i : Level) (a : PhysAddr) : Prop :=
  match i with
  | .one  => a = tableBase (satpPpn e.satp)
  | .zero => ∃ p1, readWord mem (pteAddress (tableBase (satpPpn e.satp)) .one va) = some p1 ∧ pteClass p1 = .pointer ∧
      a = tableBase (ptePpn p1)

theorem tableInMemory.addr_mod_four {e : Mmu} {mem : Memory} {va : Word} {i : Level} {a : PhysAddr}
    (h : tableInMemory e mem va i a) : (pteAddress a i va).toNat % 4 = 0 := by
  cases i with
  | one => exact h ▸ pteAddress_mod_four _ _
  | zero =>
    obtain ⟨p1, -, -, rfl⟩ := h
    exact pteAddress_mod_four _ _

/-- A current entry that hits stands where the walk reads (R134, R163). -/
theorem entryCurrent.pteAddr_eq {e : Mmu} {mem : Memory} {t : AtcEntry} {va : Word} {i : Level} {a : PhysAddr}
    {asid : Asid} (ht : entryCurrent e mem t) (hhit : hit t i va asid = true) (h : tableInMemory e mem va i a) :
    t.pteAddr = pteAddress a i va := by
  obtain ⟨hplace, -⟩ := ht
  simp only [hit, Bool.and_eq_true, Bool.or_eq_true, decide_eq_true_eq] at hhit
  obtain ⟨⟨⟨hlevel, -⟩, hvpn1⟩, hvpn0⟩ := hhit
  rw [hlevel, hvpn1] at hplace
  cases i with
  | one => exact h ▸ hplace
  | zero =>
    obtain ⟨p1, hr, -, haddr⟩ := hplace
    obtain ⟨p1', hr', -, rfl⟩ := h
    obtain rfl : p1 = p1' := Option.some.inj (hr.symm.trans hr')
    rw [haddr, hvpn0.resolve_left (by decide)]
    rfl

/-- An entry of what memory holds where a walk reads is current. -/
theorem entryCurrent_entryOf {e : Mmu} {mem : Memory} {va : Word} {i : Level} {a : PhysAddr} {pte w : Word}
    (h : tableInMemory e mem va i a) (hcheck : physCheck e.cfg (pteAddress a i va) .read .supervisor = true)
    (hr : readWord mem (pteAddress a i va) = some w) (hvalue : valueCurrent e (pteAddress a i va) pte w) (asid : Asid)
    (g : Bool) : entryCurrent e mem (entryOf va asid i g (pteAddress a i va) pte) := by
  refine ⟨?_, hcheck, w, hr, hvalue⟩
  cases i with
  | one => exact h ▸ rfl
  | zero =>
    obtain ⟨p1, hp1, hclass, rfl⟩ := h
    exact ⟨p1, hp1, hclass, rfl⟩

/-- No superseded value is seen where a walk reads. -/
theorem Coherent.readWord_of_wordSeen {e : Mmu} {m : MemSys} (hc : Coherent e m) {va : Word} {i : Level} {a : PhysAddr}
    (h : tableInMemory e m.mem va i a) {v : Option Word} (hseen : wordSeen e m (pteAddress a i va) v) :
    readWord m.mem (pteAddress a i va) = v := by
  rcases hseen with hnow | ⟨hvis, hold⟩
  · exact hnow
  · obtain ⟨hroot, hbelow⟩ := hc.2 hvis _ hold va
    cases i with
    | one => exact absurd (h ▸ rfl) hroot
    | zero =>
      obtain ⟨p1, hp1, hclass, rfl⟩ := h
      exact absurd rfl (hbelow p1 hp1 hclass)

/-- What answers a walk's read at `addr` is current there: the check passes, and the value is that of memory's word or
that value before A, or A and D, were set. -/
structure ReadCurrent (e : Mmu) (mem : Memory) (addr : PhysAddr) (r : PteRead) (w : Word) : Prop where
  check : physCheck e.cfg addr .read .supervisor = true
  word  : readWord mem addr = some w
  value : valueCurrent e addr r.pte w
  place : r.addr = addr

theorem Coherent.readCurrent {e : Mmu} {m : MemSys} (hc : Coherent e m) {va : Word} {i : Level} {a : PhysAddr}
    (h : tableInMemory e m.mem va i a) {gAbove : Bool} {r : PteRead} (hanswer : mayAnswer e false m va i a gAbove r) :
    ∃ w, ReadCurrent e m.mem (pteAddress a i va) r w := by
  rcases hanswer with ⟨t, ht, hhit, rfl⟩ | ⟨haddr, -, hcheck, hvalue⟩
  · have hcur := hc.1 t ht (by simpa [canAnswer] using canAnswer_of_hit hhit)
    have haddr := hcur.pteAddr_eq hhit h
    obtain ⟨-, hcheck, w, hw, hval⟩ := hcur
    rw [haddr] at hcheck hw hval
    exact ⟨w, hcheck, hw, hval, haddr⟩
  · rw [haddr] at hcheck hvalue
    exact ⟨r.pte, hcheck, hc.readWord_of_wordSeen h (hvalue.resolve_right (by simp)), .inl rfl, haddr⟩

/-- Under a coherent cache a pointer is the one that stands in memory. -/
theorem valueCurrent.eq_of_pointer {e : Mmu} {addr : PhysAddr} {pte w : Word} (h : valueCurrent e addr pte w)
    (hclass : pteClass pte = .pointer) : pte = w :=
  h.resolve_right fun ⟨_, hleaf, _⟩ => by simp [hclass] at hleaf

/-- Under a coherent cache a walk comes to the tables memory gives it only. -/
theorem Coherent.tableInMemory_of_mayVisit {e : Mmu} {m : MemSys} (hc : Coherent e m) {va : Word} {i : Level}
    {a : PhysAddr} {gAbove : Bool} (h : mayVisit e false m va i a gAbove) : tableInMemory e m.mem va i a := by
  cases i with
  | one => exact h.1
  | zero =>
    obtain ⟨r, hanswer, hclass, -, rfl, -⟩ := h
    obtain ⟨w, hcur⟩ := hc.readCurrent (i := .one) rfl hanswer
    exact ⟨r.pte, hcur.value.eq_of_pointer hclass ▸ hcur.word, hclass, rfl⟩

/-- A stale value of a coherent cache is a leaf in whose word A, or A and D, have been set since. -/
theorem valueCurrent_cases {e : Mmu} {addr : PhysAddr} {pte w : Word} (h : valueCurrent e addr pte w) :
    pte = w ∨ (e.cfg.adScheme = .update ∧ pteClass pte = .leaf ∧ (∃ acc, w = setAD pte acc) ∧
      physCheck e.cfg addr .write .supervisor = true) := by
  refine h.imp_right fun ⟨hs, hclass, hw, hcheck⟩ => ⟨hs, hclass, ?_, hcheck⟩
  rcases hw with hw | hw
  · exact ⟨.load, hw.trans (setA_eq_setAD_load pte)⟩
  · exact ⟨.store, hw⟩

/-- Setting A, or A and D, in a leaf changes nothing that steps 3 to 6 look at. -/
theorem inspect_setAD_of_leaf {e : Mmu} {pte : Word} (h : pteClass pte = .leaf) (acc' acc : AccessType) (priv : Priv)
    (i : Level) : inspect e acc priv i (setAD pte acc') = inspect e acc priv i pte := by
  simp [inspect, h]

theorem valueCurrent.inspect_eq {e : Mmu} {addr : PhysAddr} {pte w : Word} (h : valueCurrent e addr pte w)
    (acc : AccessType) (priv : Priv) (i : Level) : inspect e acc priv i w = inspect e acc priv i pte := by
  rcases valueCurrent_cases h with rfl | ⟨-, hclass, ⟨acc', rfl⟩, -⟩
  · rfl
  · exact inspect_setAD_of_leaf hclass acc' acc priv i

theorem valueCurrent.finalPa_eq {e : Mmu} {addr : PhysAddr} {pte w : Word} (h : valueCurrent e addr pte w)
    (i : Level) (va : Word) : finalPa i w va = finalPa i pte va := by
  rcases valueCurrent_cases h with rfl | ⟨-, -, ⟨acc', rfl⟩, -⟩
  · rfl
  · exact finalPa_setAD i pte va acc'

/-! ## Under a coherent cache every walk is the closed form (R178) -/

/-- A read that stops met a word in which it saw a byte nothing has written. -/
theorem step2Read_stuck_cases {e : Mmu} {c : Choice} {acc : AccessType} {va : Word} {i : Level} {a : PhysAddr}
    {gAbove fresh : Bool} {m : MemSys} {f : Fault} (h : step2Read e false c acc va i a gAbove fresh m = .stuck f) :
    physCheck e.cfg (pteAddress a i va) .read .supervisor = true ∧
    implicitRead e.cfg.implicitReads c fresh (pteAddress a i va) m = none := by
  unfold step2Read at h
  split at h
  · simp at h
  · dsimp only at h
    split at h
    · next hcheck =>
      split at h
      · simp at h
      · simp at h
      · next hnone _ => exact ⟨hcheck, hnone⟩
    · simp at h

/-- A read that raises failed its check. -/
theorem physCheck_of_step2Read_raised {e : Mmu} {spec : Bool} {c : Choice} {acc : AccessType} {va : Word} {i : Level}
    {a : PhysAddr} {gAbove fresh : Bool} {m m' : MemSys} {x : Exn}
    (h : step2Read e spec c acc va i a gAbove fresh m = .raised x m') :
    physCheck e.cfg (pteAddress a i va) .read .supervisor = false := by
  unfold step2Read at h
  split at h
  · simp at h
  · dsimp only at h
    split at h
    · split at h <;> simp at h
    · next hcheck => simpa using hcheck

/-- A pass of the closed form at level 0 goes no further down. -/
theorem closedPass_zero (e : Mmu) (acc : AccessType) (va : Word) (priv : Priv) (mem : Memory) (a : PhysAddr)
    (down : PhysAddr → Closed) : closedPass e acc va priv mem .zero a down = closedPassZero e acc va priv mem a := by
  unfold closedPassZero closedPass
  split
  · split
    · rfl
    · split
      · rfl
      · next hdown => simpa using (inspect_descend hdown).1
      · rfl
  · rfl

/-- What the closed form makes of a leaf at which A and D are as needed (R139, R140). -/
theorem closedLeaf_of_no_update {acc : AccessType} {pte : Word} (h : needsUpdate pte acc = false) (e : Mmu)
    (pa addr : PhysAddr) : closedLeaf e acc pa addr pte = .ok pa none := by
  have hneed : (pteA pte && (decide (acc ≠ .store) || pteD pte)) = true := by
    rw [← Bool.not_eq_false', ← h]
    simp [needsUpdate]
  rw [closedLeaf, if_pos hneed]

theorem needsUpdate_setAD {pte : Word} {acc : AccessType} (h : needsUpdate pte acc = false) (acc' : AccessType) :
    needsUpdate (setAD pte acc') acc = false := by
  simp only [needsUpdate, Bool.or_eq_false_iff, Bool.and_eq_false_iff, Bool.not_eq_false'] at h ⊢
  obtain ⟨-, hd⟩ := h
  exact ⟨pteA_setAD pte acc', hd.imp_right fun hd => by simp [hd]⟩

/-- The comparison of step 7 fails on a stale value, with the draw of its access taken (R139, R165). -/
theorem step7_of_stale {e : Mmu} {acc : AccessType} {r : PteRead} {m : MemSys} {w : Word}
    (hneed : needsUpdate r.pte acc = true) (hs : e.cfg.adScheme = .update)
    (hcheck : physCheck e.cfg r.addr .write .supervisor = true) (hu : Undisturbed m)
    (hr : readWord m.mem r.addr = some w) (hne : w ≠ r.pte) (va : Word) (i : Level) (gAbove : Bool) :
    step7 e false (applyEvents e) acc va i gAbove r m = .retry (accessPoint (applyEvents e) m).2 := by
  simp [step7, hneed, hs, hcheck, accessPoint_of_undisturbed e hu, compareAndSet, hr, hne]

/-- Step 7 on a current value, while no other agent acts, ends as the closed form does on memory's word, or sends the
walk back to step 2. -/
theorem step7_of_valueCurrent {e : Mmu} {acc : AccessType} {r : PteRead} {m : MemSys} {w : Word} (hu : Undisturbed m)
    (hr : readWord m.mem r.addr = some w) (hvalue : valueCurrent e r.addr r.pte w) (va : Word) (i : Level)
    (gAbove : Bool) (pa : PhysAddr) :
    (∃ write m', closedLeaf e acc pa r.addr w = .ok pa write ∧
      step7 e false (applyEvents e) acc va i gAbove r m = .done m' ∧ m'.mem = memoryAfter m.mem write) ∨
    (∃ k, closedLeaf e acc pa r.addr w = .raised k ∧
      step7 e false (applyEvents e) acc va i gAbove r m = .raised k m) ∨
    step7 e false (applyEvents e) acc va i gAbove r m = .retry (accessPoint (applyEvents e) m).2 := by
  by_cases hcurrent : w = r.pte
  · subst hcurrent
    exact (step7_of_undisturbed hu hr acc va i gAbove pa).imp_right .inl
  · obtain ⟨hs, -, ⟨acc', hw⟩, hcheck⟩ := (valueCurrent_cases hvalue).resolve_left (Ne.symm hcurrent)
    cases hneed : needsUpdate r.pte acc with
    | false =>
      refine .inl ⟨none, m, ?_, by simp [step7, hneed], rfl⟩
      exact closedLeaf_of_no_update (hw ▸ needsUpdate_setAD hneed acc') e pa r.addr
    | true => exact .inr (.inr (step7_of_stale hneed hs hcheck hu hr hcurrent va i gAbove))

/-- A walk under a coherent cache takes the passes of the closed form, and some of them again: a stale leaf that needs
an update sends it back to step 2, and one that needs none answers as memory's word would. -/
theorem WalkAt.agrees_of_coherent {e : Mmu} {m0 : MemSys} {acc : AccessType} {va : Word} {priv : Priv} {n : Nat}
    {i : Level} {a : PhysAddr} {gAbove fresh : Bool} {m : MemSys} (h : WalkAt e false m0 va i a gAbove fresh m)
    (hc : Coherent e m0)
    (hne : walk e false (applyEvents e) acc va priv n i a gAbove fresh m ≠ .stuck .walkRetriesExhausted) :
    Agrees (closedPass e acc va priv m0.mem i a (closedPassZero e acc va priv m0.mem)) va m0.mem
      (walk e false (applyEvents e) acc va priv n i a gAbove fresh m) := by
  induction n generalizing i a gAbove fresh m with
  | zero => exact absurd rfl hne
  | succ n ih =>
    have h1 := h.afterAccess (land := applyEvents e) fun _ => rfl
    have htable := hc.tableInMemory_of_mayVisit h.visit
    cases hread : step2Read e false (accessPoint (applyEvents e) m).1 acc va i a gAbove fresh
      (accessPoint (applyEvents e) m).2 with
    | stuck f =>
      obtain ⟨hcheck, hnone⟩ := step2Read_stuck_cases hread
      obtain rfl := step2Read_stuck hread
      have hseen := wordSeen_implicitRead e (accessPoint (applyEvents e) m).1 fresh (pteAddress a i va)
        (accessPoint (applyEvents e) m).2
      rw [hnone, wordSeen, h1.mem, h1.unfenced] at hseen
      have hunwritten := hc.readWord_of_wordSeen htable hseen
      simp [walk, hread, MRes.bind, closedPass, hcheck, hunwritten, Agrees]
    | raised x m2 =>
      have hcheck := physCheck_of_step2Read_raised hread
      obtain ⟨rfl, rfl⟩ := step2Read_raised hread
      simp [walk, hread, MRes.bind, closedPass, hcheck, Agrees, h1.mem]
    | ok r m2 =>
      have h2 := h1.afterRead hread
      obtain ⟨w, hcheck, hw, hvalue, haddr⟩ := hc.readCurrent htable (h1.mayAnswer_of_read hread)
      have hinspect := hvalue.inspect_eq acc priv i
      simp only [walk, hread, MRes.bind] at hne ⊢
      cases hi : inspect e acc priv i r.pte with
      | pageFault =>
        simp only [closedPass, hcheck, if_true, hw, hinspect, hi]
        exact ⟨m2, rfl, h2.mem⟩
      | descend a' =>
        simp only [hi] at hne
        simp only [closedPass, hcheck, if_true, hw, hinspect, hi]
        exact closedPass_zero e acc va priv m0.mem a' _ ▸ ih (h1.descend hread hi) hne
      | leaf =>
        rw [← haddr] at hvalue
        rcases step7_of_valueCurrent (acc := acc) h2.undisturbed (by rwa [h2.mem, haddr]) hvalue va i gAbove
          (finalPa i w va) with ⟨write, m3, hclosed, hs, hmem⟩ | ⟨k, hclosed, hs⟩ | hs
        · rw [haddr] at hclosed
          simp only [closedPass, hcheck, if_true, hw, hinspect, hi, hs, hclosed]
          exact hvalue.finalPa_eq i va ▸ agrees_ok (h2.mem ▸ hmem)
        · rw [haddr] at hclosed
          simp only [closedPass, hcheck, if_true, hw, hinspect, hi, hs, hclosed]
          exact ⟨m2, rfl, h2.mem⟩
        · simp only [hi, hs] at hne ⊢
          exact ih (h2.afterAccess fun _ => rfl) hne

/-- Settles O31. A walk under a coherent cache never runs out of passes, and ends as the closed form does. -/
theorem coherentCacheIsInvisible : Obligations.CoherentCacheIsInvisible := by
  intro e acc va priv m hu hc
  have hne := translate_ne_exhausted e acc va priv m
  by_cases ht : satpMode e.satp = .bare ∨ priv = .machine
  · rw [closedForm, translate, if_pos ht, if_pos ht]
    exact agrees_ok rfl
  · rw [translate, if_neg ht] at hne ⊢
    rw [closedForm_eq_closedPass ht]
    exact (WalkAt.root hu).agrees_of_coherent hc hne

/-! ## After `sfence.vma x0, x0` (R171, R173) -/

/-- A fence for all addresses and all address spaces leaves no entry. -/
theorem fenceAtc_all_atc (m : MemSys) : (fenceAtc none none m).atc = [] := by
  simp [fenceAtc, mustRemove]

/-- `sfence.vma x0, x0` leaves an empty cache, and no store of the hart that a walk may miss. -/
theorem exec_sfenceVma_all {s t : State} (hpriv : s.priv = .machine ∨ (s.priv = .supervisor ∧ s.mstatus.tvm = false))
    (h : exec (.sfenceVma 0 0) s = .next t) : t.ms.atc = [] ∧ t.ms.unfenced = [] := by
  have hallowed : sfenceAllowed s = true := by
    rcases hpriv with hm | ⟨hsup, htvm⟩ <;> simp [sfenceAllowed, *]
  rw [exec, execSfenceVma, if_pos hallowed] at h
  injection h with h
  exact h ▸ ⟨fenceAtc_all_atc _, rfl⟩

/-- Settles O28: no entry is left to hit, and no superseded value to see, so memory answers every read. -/
theorem fencedTranslationUsesMemory : Obligations.FencedTranslationUsesMemory := by
  intro s t hpriv h hu
  obtain ⟨hatc, hunfenced⟩ := exec_sfenceVma_all hpriv h
  refine ⟨hatc, fun acc va priv => translate_agrees_closedForm (fun i => ?_) acc priv⟩
  exact ⟨hu, fun _ _ => .inr (by simp [hatc]), fun _ _ => .inr (.inl hunfenced)⟩

/-! ## A translation keeps the cache coherent (R178, R179) -/

/-- A fill of a current entry. -/
theorem Coherent.fill {e : Mmu} {m : MemSys} (hc : Coherent e m) {t : AtcEntry} (ht : entryCurrent e m.mem t)
    (f : Bool) : Coherent e (fillAtc f t m) := by
  obtain ⟨hentries, hapart⟩ := hc
  refine ⟨fun t' ht' hown => ?_, fun hvis => ?_⟩
  · rw [fillAtc_mem]
    rcases mem_or_of_mem_fillAtc ht' with hold | rfl
    · exact hentries t' hold hown
    · exact ht
  · simpa [storesApart] using hapart hvis

/-- Setting A, or A and D, twice sets A, or A and D. -/
theorem setAD_setAD (pte : Word) (acc' acc : AccessType) :
    setAD (setAD pte acc') acc = setA pte ∨ setAD (setAD pte acc') acc = setAD pte .store := by
  by_cases h : acc' = .store ∨ acc = .store
  · right
    rcases h with rfl | rfl
    · cases acc <;> simp [setAD, BitVec.or_assoc]
    · cases acc' <;> simp [setAD, BitVec.or_assoc]
  · left
    obtain ⟨h', h⟩ := not_or.mp h
    simp [setAD_of_ne_store h', setAD_of_ne_store h, setA, BitVec.or_assoc]

theorem setAD_eq_setA_or_store (pte : Word) (acc : AccessType) :
    setAD pte acc = setA pte ∨ setAD pte acc = setAD pte .store := by
  by_cases h : acc = .store
  · exact .inr (h ▸ rfl)
  · exact .inl (setAD_of_ne_store h pte)

/-- A value that is current at a leaf stays so when A, or A and D, are set there. -/
theorem valueCurrent.after_setAD {e : Mmu} {addr : PhysAddr} {pte w : Word} (h : valueCurrent e addr pte w)
    (hclass : pteClass w = .leaf) (hs : e.cfg.adScheme = .update)
    (hcheck : physCheck e.cfg addr .write .supervisor = true) (acc : AccessType) :
    valueCurrent e addr pte (setAD w acc) := by
  rcases valueCurrent_cases h with rfl | ⟨-, hpte, ⟨acc', rfl⟩, -⟩
  · exact .inr ⟨hs, hclass, setAD_eq_setA_or_store pte acc, hcheck⟩
  · exact .inr ⟨hs, hpte, setAD_setAD pte acc' acc, hcheck⟩

theorem entryCurrent.pteAddr_mod_four {e : Mmu} {mem : Memory} {t : AtcEntry} (h : entryCurrent e mem t) :
    t.pteAddr.toNat % 4 = 0 := by
  obtain ⟨hplace, -⟩ := h
  cases hl : t.level with
  | one =>
    simp only [hl] at hplace
    exact hplace ▸ pteAddress_mod_four _ _
  | zero =>
    simp only [hl] at hplace
    obtain ⟨p1, -, -, haddr⟩ := hplace
    exact haddr ▸ pteAddress_mod_four _ _

section
variable {e : Mmu} {mem : Memory} {addr : PhysAddr} {pte : Word} (haddr : addr.toNat % 4 = 0)
  (hr : readWord mem addr = some pte) (hclass : pteClass pte = .leaf)

include haddr hr hclass in
/-- The same pointers stand in memory when A, or A and D, have been set in a leaf. -/
theorem pointer_writeWord_setAD_iff {pa : PhysAddr} {p : Word} (hpa : pa.toNat % 4 = 0) (hp : pteClass p = .pointer)
    (acc : AccessType) : readWord (writeWord mem addr (setAD pte acc)) pa = some p ↔ readWord mem pa = some p := by
  rw [readWord_writeWord_setAD hr haddr hpa]
  split
  · next heq =>
    have hpte : p ≠ pte := by rintro rfl; simp [hclass] at hp
    have hset : p ≠ setAD pte acc := by rintro rfl; simp [hclass] at hp
    simp [heq, hr, hpte.symm, hset.symm]
  · rfl

include haddr hr hclass in
theorem tableInMemory_writeWord_setAD {va : Word} {i : Level} {a : PhysAddr} (h : tableInMemory e mem va i a)
    (acc : AccessType) : tableInMemory e (writeWord mem addr (setAD pte acc)) va i a := by
  cases i with
  | one => exact h
  | zero =>
    obtain ⟨p1, hp1, hpointer, ha⟩ := h
    exact ⟨p1, (pointer_writeWord_setAD_iff haddr hr hclass (pteAddress_mod_four _ _) hpointer acc).mpr hp1, hpointer,
      ha⟩

variable (hs : e.cfg.adScheme = .update) (hcheck : physCheck e.cfg addr .write .supervisor = true)

include haddr hr hclass hs hcheck in
/-- Every current entry stays current when A, or A and D, are set in a leaf (R178). -/
theorem entryCurrent.after_setAD {t : AtcEntry} (ht : entryCurrent e mem t) (acc : AccessType) :
    entryCurrent e (writeWord mem addr (setAD pte acc)) t := by
  have hword := readWord_writeWord_setAD hr haddr ht.pteAddr_mod_four acc
  obtain ⟨hplace, hread, w, hw, hvalue⟩ := ht
  refine ⟨?_, hread, ?_⟩
  · cases hl : t.level with
    | one => simpa only [hl] using hplace
    | zero =>
      simp only [hl] at hplace
      obtain ⟨p1, hp1, hpointer, hat⟩ := hplace
      exact ⟨p1, (pointer_writeWord_setAD_iff haddr hr hclass (pteAddress_mod_four _ _) hpointer acc).mpr hp1, hpointer,
        hat⟩
  · by_cases heq : t.pteAddr = addr
    · obtain rfl : w = pte := Option.some.inj (hw.symm.trans (heq ▸ hr))
      exact ⟨setAD w acc, by rw [hword, if_pos heq], hvalue.after_setAD hclass hs (heq ▸ hcheck) acc⟩
    · exact ⟨w, by rw [hword, if_neg heq, hw], hvalue⟩

include haddr hr hclass hs hcheck in
theorem Coherent.after_setAD {m : MemSys} (hc : Coherent e m) (hm : m.mem = mem) (acc : AccessType) :
    Coherent e { m with mem := writeWord mem addr (setAD pte acc) } := by
  obtain ⟨hentries, hapart⟩ := hc
  rw [hm] at hentries
  refine ⟨fun t ht hown => (hentries t ht hown).after_setAD haddr hr hclass hs hcheck acc, fun hvis w hw va => ?_⟩
  obtain ⟨hroot, hbelow⟩ := hapart hvis w hw va
  rw [hm] at hbelow
  exact ⟨hroot, fun p1 hp1 hpointer => hbelow p1
    ((pointer_writeWord_setAD_iff haddr hr hclass (pteAddress_mod_four _ _) hpointer acc).mp hp1) hpointer⟩

end

theorem translate_coherent {e : Mmu} {acc : AccessType} {va : Word} {priv : Priv} {m : MemSys} (hu : Undisturbed m)
    (hc : Coherent e m) : (translate e acc va priv m).Leaves (Coherent e) := by
  refine translate_keeps (fun _ _ hm => hm) (fun i a gAbove r m' f hvisit hanswer hmem hm => ?_)
    (fun i a gAbove r m' f hvisit hanswer hleaf hs hwrite hmem hr hm => ?_) hu hc
  · have htable := hc.tableInMemory_of_mayVisit hvisit
    obtain ⟨w, hcheck, hw, hvalue, hplace⟩ := hc.readCurrent htable (.inr hanswer)
    rw [hplace]
    exact hm.fill (hmem ▸ entryCurrent_entryOf htable hcheck hw hvalue _ _) f
  · have htable := hc.tableInMemory_of_mayVisit hvisit
    obtain ⟨-, hcheck, -, -, hplace⟩ := hc.readCurrent htable hanswer
    rw [hplace] at hwrite hr ⊢
    have hword := readWord_writeWord_setAD hr htable.addr_mod_four htable.addr_mod_four acc
    refine (hm.after_setAD htable.addr_mod_four hr hleaf.1 hs hwrite hmem acc).fill ?_ f
    exact entryCurrent_entryOf (tableInMemory_writeWord_setAD htable.addr_mod_four hr hleaf.1 htable acc) hcheck
      (hword.trans (if_pos rfl)) (.inl rfl) _ _

/-- Settles O32. What a walk reads from memory under a coherent cache is current where it is cached; and setting A, or A
and D, in a leaf that stands in memory leaves every entry current. -/
theorem translateKeepsCoherence : Obligations.TranslateKeepsCoherence := by
  intro e acc va priv m m' hu hc
  have hkept := translate_coherent (acc := acc) (va := va) (priv := priv) hu hc
  refine ⟨fun pa hok => ?_, fun x hraised => ?_⟩
  · rwa [hok] at hkept
  · rwa [hraised] at hkept

end Sys2Proof.Machine

/-! # The instructions of the hart (45_host_hart_subset.md) -/

namespace Sys2Proof.Machine

/-! ## The step (R191) -/

theorem aligned4_iff (a : Word) : aligned4 a = true ↔ a.toNat % 4 = 0 := by
  simp [aligned4, ← BitVec.toNat_inj]

/-- A run that has not ended goes on with the fetch (R191). -/
theorem step_of_running {s : State} (htrap : s.trap = none) (hpc : s.pc.toNat % 4 = 0) :
    step s = finish s (fetch s) runWord := by
  simp [step, htrap, (aligned4_iff s.pc).mpr hpc]

/-- A word that decodes runs (R192). -/
theorem runWord_of_decode {w : Word} {i : Instr} (h : decodeWord w = .ok i) (s : State) : runWord w s = exec i s := by
  rw [runWord, h]

/-- Settles O5: the fetch leaves its memory system, and there the decoded instruction runs. -/
theorem stepRunsDecodedInstruction : Obligations.StepRunsDecodedInstruction := by
  intro s w m i htrap hpc hfetch hdecode
  rw [step_of_running htrap hpc, hfetch, finish_ok, runWord_of_decode hdecode]

/-! ## Explicit accesses (R49) -/

/-- A translation that raises is the end of its access. -/
theorem resolve_of_raised {e : Mmu} {acc : AccessType} {va : Word} {priv : Priv} {m m1 : MemSys} {x : Exn}
    (ht : translate e acc va priv m = .raised x m1) : resolve e acc va priv m = .raised x m1 := by
  rw [resolve, ht, MRes.bind]

/-- A translated address that passes the final check is accessed when the drawn events have landed (R56). -/
theorem resolve_of_passedCheck {e : Mmu} {acc : AccessType} {va : Word} {priv : Priv} {m m1 : MemSys} {pa : PhysAddr}
    (ht : translate e acc va priv m = .ok pa m1) (hcheck : physCheck e.cfg pa (physKind acc) priv = true) :
    resolve e acc va priv m = .ok pa (atAccess e m1).2 := by
  rw [resolve, ht, MRes.bind, if_pos hcheck]

theorem readMem_of_readWord {pa : PhysAddr} {m : MemSys} {v : Word} (h : readWord m.mem pa = some v) :
    readMem pa m = .ok v m := by
  rw [readMem, h]

/-- While no other agent acts an access uses up its draw and changes nothing else. -/
theorem atAccess_of_undisturbed (e : Mmu) {m : MemSys} (h : Undisturbed m) :
    (atAccess e m).2 = { m with draws := m.draws.tail } := by
  rw [atAccess, accessPoint_of_undisturbed e h, popDraw_snd]

/-- A fetch that is not translated reads the word at physical address `pc` (R43). -/
theorem fetch_of_untranslated {s : State} {w : Word} (hnone : s.priv = .machine ∨ satpMode s.satp = .bare)
    (hu : Undisturbed s.ms) (hcheck : physCheck s.cfg (s.pc.setWidth 34) .exec s.priv = true)
    (hword : readWord s.ms.mem (s.pc.setWidth 34) = some w) :
    fetch s = .ok w { s.ms with draws := s.ms.draws.tail } := by
  have hbare : satpMode s.mmu.satp = .bare ∨ s.priv = .machine := hnone.symm
  have ht := translate_of_bare_or_machine hbare .fetch s.pc s.ms
  have hcheck : physCheck s.mmu.cfg (s.pc.setWidth 34) (physKind .fetch) s.priv = true := hcheck
  rw [fetch, effPriv, resolve_of_passedCheck ht hcheck, atAccess_of_undisturbed _ hu, MRes.bind]
  exact readMem_of_readWord hword

/-- Settles O6: the fetch reads at `pc` itself, and the step runs what it read. -/
theorem untranslatedStepRunsWordAtPc : Obligations.UntranslatedStepRunsWordAtPc := by
  intro s w i htrap hpc hnone hu hcheck hword hdecode
  exact stepRunsDecodedInstruction s w _ i htrap hpc (fetch_of_untranslated hnone hu hcheck hword) hdecode

/-! ## Integer instructions and the branch (R194 to R197) -/

/-- An instruction that ends by writing a result changes `rd`, unless it is `x0`, and `pc`. -/
theorem writeResult_completes (s : State) (rd : RegIdx) (v : Word) :
    ∃ t, writeResult s rd v = .next t ∧ (∀ r, t.x r = if r = rd ∧ rd ≠ 0#5 then v else s.x r) ∧
      t.pc = s.pc + 4#32 ∧ t = { s with regs := t.regs, pc := t.pc } :=
  ⟨_, rfl, fun r => s.setX_x rd r v, rfl, rfl⟩

/-- The U immediate is the field times 2^12 (R79). -/
theorem immU_eq (imm : BitVec 20) : immU imm = BitVec.ofNat 32 (imm.toNat * 4096) := by
  refine BitVec.eq_of_toNat_eq ?_
  simp [immU, place, Nat.shiftLeft_eq]

/-- Settles O10: the result LUI writes is its U immediate. -/
theorem luiWritesUpperImmediate : Obligations.LuiWritesUpperImmediate :=
  ⟨fun rd imm s => immU_eq imm ▸ writeResult_completes s rd (immU imm), by decide⟩

/-- Settles O11: the result ADDI writes is the sum with its I immediate. -/
theorem addiAddsImmediate : Obligations.AddiAddsImmediate :=
  ⟨fun rd rs1 imm s => writeResult_completes s rd (s.x rs1 + imm12 imm), by decide⟩

/-- Settles O12: the result ADD writes is the sum of the registers. -/
theorem addAddsRegisters : Obligations.AddAddsRegisters :=
  ⟨fun rd rs1 rs2 s => writeResult_completes s rd (s.x rs1 + s.x rs2), by decide⟩

/-- Settles O13: the registers are compared first, and a target is checked only when the branch is taken. -/
theorem bneBranchesOnDifference : Obligations.BneBranchesOnDifference := by
  refine ⟨fun rs1 rs2 offset s => ⟨fun heq => ?_, fun hne htarget => ?_, fun hne htarget => ?_⟩, rfl, by decide⟩
  · exact if_neg (not_not_intro heq)
  · have halign : aligned4 (branchTarget s offset) = true := (aligned4_iff _).mpr htarget
    rw [exec, execBne, if_pos hne, if_pos halign]
    rfl
  · have halign : ¬ aligned4 (branchTarget s offset) = true := (aligned4_iff _).not.mpr htarget
    rw [exec, execBne, if_pos hne, if_neg halign]
    rfl

/-! ## The bytes of a stored word (R44) -/

theorem readByte_writeWord_of_lt (m : Memory) (pa : PhysAddr) (v : Word) {k : Nat} (hk : k < 4) :
    readByte (writeWord m pa v) (pa + BitVec.ofNat 34 k) = some (v.extractLsb' (8 * k) 8) := by
  have h1 : pa ≠ pa + 1#34 := by bv_omega
  have h2 : pa ≠ pa + 2#34 := by bv_omega
  have h3 : pa ≠ pa + 3#34 := by bv_omega
  interval_cases k <;> simp [writeWord, readByte_writeByte, byteOfWord, h1, h2, h3]

theorem readByte_writeWord_of_ne (m : Memory) (v : Word) {pa q : PhysAddr}
    (h : ∀ k < 4, q ≠ pa + BitVec.ofNat 34 k) : readByte (writeWord m pa v) q = readByte m q := by
  have h0 : q ≠ pa := by simpa using h 0 (by decide)
  simp only [writeWord, readByte_writeByte, h0, h 1 (by decide), h 2 (by decide), h 3 (by decide), if_false]

theorem readWord_writeWord (m : Memory) (pa : PhysAddr) (v : Word) : readWord (writeWord m pa v) pa = some v := by
  have hbyte {k : Nat} (hk : k < 4) : readByte (writeWord m pa v) (pa + BitVec.ofNat 34 k) = some (byteOfWord v k) :=
    readByte_writeWord_of_lt m pa v hk
  rw [readWord_eq_of_bytes (by simpa using hbyte (k := 0) (by decide)) (hbyte (k := 1) (by decide))
    (hbyte (k := 2) (by decide)) (hbyte (k := 3) (by decide)), wordOfBytes_byteOfWord]

/-! ## Memory instructions (R198 to R200) -/

/-- The mode of a load or store (R17, D8). -/
theorem effPriv_of_ne_fetch {acc : AccessType} (h : acc ≠ .fetch) (s : State) :
    effPriv s acc = if s.priv = .machine ∧ s.mstatus.mprv = true then s.mstatus.mpp else s.priv := by
  cases acc with
  | fetch => exact absurd rfl h
  | load => simp [effPriv]
  | store => simp [effPriv]

section
variable {α : Type} {s : State} {acc : AccessType} {va : Word} {priv : Priv} {m : MemSys}
  {k : α → State → Host.Outcome State Fault Refusal} {body : PhysAddr → MemSys → MRes α}

/-- An instruction whose translation raises takes that exception (R235). -/
theorem finish_of_translate_raised {x : Exn} (ht : translate s.mmu acc va priv s.ms = .raised x m) :
    finish s ((resolve s.mmu acc va priv s.ms).bind body) k =
      .next { s with ms := m, trap := some ⟨x.kind, x.tval, s.pc⟩ } := by
  rw [resolve_of_raised ht]
  rfl

/-- An instruction whose final check fails takes the access fault of its access (R49, R235). -/
theorem finish_of_failedCheck {pa : PhysAddr} (ht : translate s.mmu acc va priv s.ms = .ok pa m)
    (hcheck : physCheck s.cfg pa (physKind acc) priv = false) :
    finish s ((resolve s.mmu acc va priv s.ms).bind body) k =
      .next { s with ms := m, trap := some ⟨.accessFault acc, va, s.pc⟩ } := by
  rw [resolve_of_failedCheck ht hcheck]
  rfl

/-- An instruction whose final check passes goes on with the access itself. -/
theorem finish_of_passedCheck {pa : PhysAddr} (ht : translate s.mmu acc va priv s.ms = .ok pa m)
    (hcheck : physCheck s.cfg pa (physKind acc) priv = true) :
    finish s ((resolve s.mmu acc va priv s.ms).bind body) k = finish s (body pa (atAccess s.mmu m).2) k := by
  rw [resolve_of_passedCheck ht hcheck]
  rfl

end

/-! ### LW -/

theorem exec_lw_of_misaligned {s : State} {rs1 : RegIdx} {imm : BitVec 12}
    (h : (effectiveAddr s rs1 imm).toNat % 4 ≠ 0) (rd : RegIdx) :
    exec (.lw rd rs1 imm) s = raise s .loadAddressMisaligned (effectiveAddr s rs1 imm) :=
  if_neg ((aligned4_iff _).not.mpr h)

theorem exec_lw_of_aligned {s : State} {rs1 : RegIdx} {imm : BitVec 12}
    (h : (effectiveAddr s rs1 imm).toNat % 4 = 0) (rd : RegIdx) :
    exec (.lw rd rs1 imm) s =
      finish s ((resolve s.mmu .load (effectiveAddr s rs1 imm) (effPriv s .load) s.ms).bind readMem)
        fun v s' => writeResult s' rd v :=
  if_pos ((aligned4_iff _).mpr h)

/-- Settles O14: alignment, translation and final check in their order; then LW reads, and ends as an instruction that
writes a result. -/
theorem lwLoadsTranslatedWord : Obligations.LwLoadsTranslatedWord := by
  refine ⟨fun rd rs1 imm s => ?_, by decide⟩
  rw [← effPriv_of_ne_fetch (acc := .load) (by decide)]
  refine ⟨fun h => exec_lw_of_misaligned h rd,
    fun h x m ht => (exec_lw_of_aligned h rd).trans (finish_of_translate_raised ht),
    fun h pa m ht hcheck => (exec_lw_of_aligned h rd).trans (finish_of_failedCheck ht hcheck),
    fun h pa m v ht hcheck hword => ?_⟩
  have hexec : exec (.lw rd rs1 imm) s = writeResult { s with ms := (atAccess s.mmu m).2 } rd v := by
    refine (exec_lw_of_aligned h rd).trans ((finish_of_passedCheck ht hcheck).trans ?_)
    rw [readMem_of_readWord hword, finish_ok]
  exact hexec ▸ writeResult_completes _ rd v

/-! ### SW -/

theorem exec_sw_of_misaligned {s : State} {rs1 : RegIdx} {imm : BitVec 12}
    (h : (effectiveAddr s rs1 imm).toNat % 4 ≠ 0) (rs2 : RegIdx) :
    exec (.sw rs2 rs1 imm) s = raise s .storeAddressMisaligned (effectiveAddr s rs1 imm) :=
  if_neg ((aligned4_iff _).not.mpr h)

theorem exec_sw_of_aligned {s : State} {rs1 : RegIdx} {imm : BitVec 12}
    (h : (effectiveAddr s rs1 imm).toNat % 4 = 0) (rs2 : RegIdx) :
    exec (.sw rs2 rs1 imm) s =
      finish s ((resolve s.mmu .store (effectiveAddr s rs1 imm) (effPriv s .store) s.ms).bind
        fun pa m => .ok () (storedWord s.mmu pa (s.x rs2) m)) fun _ s' => .next s'.advance :=
  if_pos ((aligned4_iff _).mpr h)

/-- Settles O15: alignment, translation and final check in their order; then SW stores, and only `pc` changes beside
memory and the record of the store. -/
theorem swStoresAtTranslatedAddress : Obligations.SwStoresAtTranslatedAddress := by
  refine ⟨fun rs2 rs1 imm s => ?_, by decide⟩
  rw [← effPriv_of_ne_fetch (acc := .store) (by decide)]
  refine ⟨fun h => exec_sw_of_misaligned h rs2,
    fun h x m ht => (exec_sw_of_aligned h rs2).trans (finish_of_translate_raised ht),
    fun h pa m ht hcheck => (exec_sw_of_aligned h rs2).trans (finish_of_failedCheck ht hcheck),
    fun h pa m ht hcheck => ?_⟩
  have hexec : exec (.sw rs2 rs1 imm) s =
      .next (State.advance { s with ms := storedWord s.mmu pa (s.x rs2) (atAccess s.mmu m).2 }) :=
    (exec_sw_of_aligned h rs2).trans (finish_of_passedCheck ht hcheck)
  exact ⟨_, hexec, rfl, rfl, fun k hk => readByte_writeWord_of_lt _ pa _ hk,
    fun q hq => readByte_writeWord_of_ne _ _ hq⟩

/-! ### AMOADD.W -/

/-- The read and write of an AMO at its physical address. -/
def amoAccess (e : Mmu) (f : Word → Word) (pa : PhysAddr) (m : MemSys) : MRes Word :=
  (readMem pa m).bind fun t m' => .ok t (storedWord e pa (f t) m')

/-- An AMO that reads `v` stores `f v` there and answers `v`. -/
theorem amoAccess_of_readWord {pa : PhysAddr} {m : MemSys} {v : Word} (h : readWord m.mem pa = some v) (e : Mmu)
    (f : Word → Word) : amoAccess e f pa m = .ok v (storedWord e pa (f v) m) := by
  rw [amoAccess, readMem_of_readWord h, MRes.bind]

theorem exec_amoaddW_of_misaligned {s : State} {rs1 : RegIdx} (h : (s.x rs1).toNat % 4 ≠ 0) (rd rs2 : RegIdx)
    (aq rl : Bool) : exec (.amoaddW rd rs2 rs1 aq rl) s = raise s .storeAddressMisaligned (s.x rs1) :=
  if_neg ((aligned4_iff _).not.mpr h)

/-- An AMO is translated once, as a store (R104, R200). -/
theorem exec_amoaddW_of_aligned {s : State} {rs1 : RegIdx} (h : (s.x rs1).toNat % 4 = 0) (rd rs2 : RegIdx)
    (aq rl : Bool) :
    exec (.amoaddW rd rs2 rs1 aq rl) s =
      finish s ((resolve s.mmu .store (s.x rs1) (effPriv s .store) s.ms).bind (amoAccess s.mmu (· + s.x rs2)))
        fun t s' => writeResult s' rd t :=
  if_pos ((aligned4_iff _).mpr h)

/-- Settles O16: alignment, translation and final check in their order; then the sum is stored over the old word, which
is the result that is written. -/
theorem amoaddAddsInMemory : Obligations.AmoaddAddsInMemory := by
  refine ⟨fun rd rs2 rs1 aq rl s => ?_, by decide⟩
  rw [← effPriv_of_ne_fetch (acc := .store) (by decide)]
  have haligned (h : (s.x rs1).toNat % 4 = 0) := exec_amoaddW_of_aligned h rd rs2 aq rl
  refine ⟨fun h => exec_amoaddW_of_misaligned h rd rs2 aq rl,
    fun h x m ht => (haligned h).trans (finish_of_translate_raised ht),
    fun h pa m ht hcheck => (haligned h).trans (finish_of_failedCheck ht hcheck),
    fun h pa m v ht hcheck hword => ?_⟩
  have hexec : exec (.amoaddW rd rs2 rs1 aq rl) s =
      writeResult { s with ms := storedWord s.mmu pa (v + s.x rs2) (atAccess s.mmu m).2 } rd v := by
    rw [haligned h, finish_of_passedCheck ht hcheck, amoAccess_of_readWord hword, finish_ok]
  exact ⟨_, hexec, fun r => State.setX_x _ rd r v, rfl, rfl, readWord_writeWord _ pa _,
    fun q hq => readByte_writeWord_of_ne _ _ hq⟩

/-! ## Control-register instructions (R201 to R204) -/

/-- Which numbers name no register (R84). -/
theorem csrOf_eq_none_iff (n : CsrIdx) : csrOf n = none ↔ n ≠ 0x100#12 ∧ n ≠ 0x180#12 ∧ n ≠ 0x300#12 := by
  unfold csrOf
  split_ifs <;> simp [*]

theorem csrOf_eq_satp_iff (n : CsrIdx) : csrOf n = some .satp ↔ n = 0x180#12 := by
  unfold csrOf
  split_ifs <;> simp [*]

theorem csrOf_of_known {n : CsrIdx} (h : ¬ (n ≠ 0x100#12 ∧ n ≠ 0x180#12 ∧ n ≠ 0x300#12)) :
    csrOf n = if n = 0x100#12 then some .sstatus else if n = 0x180#12 then some .satp else some .mstatus := by
  unfold csrOf
  split_ifs <;> simp_all

theorem csrPrivOk_eq_false_iff (p : Priv) (n : CsrIdx) :
    csrPrivOk p n = false ↔ (privBits p).toNat < (n.extractLsb' 8 2).toNat := by
  simp [csrPrivOk]

/-- The access check refuses on R204's condition. -/
theorem csrAccess_of_illegal {s : State} {n : CsrIdx} (h : csrIllegal s n) : csrAccess s n = none := by
  unfold csrAccess
  cases hc : csrOf n with
  | none => rfl
  | some c =>
    rcases h with hnone | hpriv | ⟨hn, hsup, htvm⟩
    · simp [(csrOf_eq_none_iff n).mpr hnone] at hc
    · simp [(csrPrivOk_eq_false_iff s.priv n).mpr hpriv]
    · obtain rfl : c = .satp := by simpa [(csrOf_eq_satp_iff n).mpr hn] using hc.symm
      simp [hsup, htvm]

/-- Everywhere else the check lets the access through to the register the number names. -/
theorem csrAccess_of_legal {s : State} {n : CsrIdx} (h : ¬ csrIllegal s n) : csrAccess s n = csrOf n := by
  obtain ⟨-, hpriv, htvm⟩ := by simpa only [csrIllegal, not_or] using h
  unfold csrAccess
  cases hc : csrOf n with
  | none => rfl
  | some c =>
    have hok : csrPrivOk s.priv n = true := by
      rwa [← csrPrivOk_eq_false_iff, Bool.not_eq_false] at hpriv
    have hsatp : c = .satp → s.priv = .supervisor → s.mstatus.tvm = false := by
      rintro rfl hsup
      simpa [hsup, (csrOf_eq_satp_iff n).mp hc] using htvm
    simpa [hok] using hsatp

theorem exec_csrrw (rd : RegIdx) (csr : CsrIdx) (rs1 : RegIdx) (s : State) :
    exec (.csrrw rd csr rs1) s = csrInstr (.csrrw rd csr rs1) rd csr (fun _ => some (s.x rs1)) s := rfl

theorem exec_csrrs (rd : RegIdx) (csr : CsrIdx) (rs1 : RegIdx) (s : State) :
    exec (.csrrs rd csr rs1) s =
      csrInstr (.csrrs rd csr rs1) rd csr (fun t => if rs1 = 0#5 then none else some (t ||| s.x rs1)) s := rfl

theorem exec_csrrc (rd : RegIdx) (csr : CsrIdx) (rs1 : RegIdx) (s : State) :
    exec (.csrrc rd csr rs1) s =
      csrInstr (.csrrc rd csr rs1) rd csr (fun t => if rs1 = 0#5 then none else some (t &&& ~~~(s.x rs1))) s := rfl

theorem csrInstr_of_refused {s : State} {n : CsrIdx} (h : csrAccess s n = none) (i : Instr) (rd : RegIdx)
    (new : Word → Option Word) : csrInstr i rd n new s = raise s .illegalInstruction (encode i) := by
  rw [csrInstr, h]

/-- Settles O24: the three instructions share one access check, which is the rule's condition. -/
theorem csrAccessCheck : Obligations.CsrAccessCheck := by
  refine fun rd rs1 csr s => ⟨fun h => ?_, fun h => ?_⟩
  · have hrefused (i : Instr) (new : Word → Option Word) := csrInstr_of_refused (csrAccess_of_illegal h) i rd new
    rw [exec_csrrw, exec_csrrs, exec_csrrc, hrefused, hrefused, hrefused]
    exact ⟨rfl, rfl, rfl⟩
  · exact (csrAccess_of_legal h).trans (csrOf_of_known fun hnone => h (.inl hnone))

/-- A control-register instruction that writes: the old value goes to `rd`, the new one to the register. -/
theorem csrInstr_of_write {s : State} {n : CsrIdx} {c : Csr} {new : Word → Option Word} {v : Word}
    (h : csrAccess s n = some c) (hnew : new (csrRead s c) = some v) (i : Instr) (rd : RegIdx) :
    csrInstr i rd n new s = writeResult (csrWrite s c v) rd (csrRead s c) := by
  simp only [csrInstr, h, hnew, writeResult]

/-- A control-register instruction that only reads: the old value goes to `rd`. -/
theorem csrInstr_of_read {s : State} {n : CsrIdx} {c : Csr} {new : Word → Option Word}
    (h : csrAccess s n = some c) (hnew : new (csrRead s c) = none) (i : Instr) (rd : RegIdx) :
    csrInstr i rd n new s = writeResult s rd (csrRead s c) := by
  simp only [csrInstr, h, hnew, writeResult]

/-- A control-register write changes `mstatus` and `satp` at most. -/
theorem csrWrite_frame (s : State) (c : Csr) (v : Word) :
    csrWrite s c v = { s with mstatus := (csrWrite s c v).mstatus, satp := (csrWrite s c v).satp } := by
  cases c <;> rfl

/-- A control-register write and a result: `rd`, `pc`, `mstatus` and `satp` change at most. -/
theorem writeResult_csrWrite_completes (s : State) (c : Csr) (v : Word) (rd : RegIdx) (old : Word) :
    ∃ t, writeResult (csrWrite s c v) rd old = .next t ∧
      (∀ r, t.x r = if r = rd ∧ rd ≠ 0#5 then old else s.x r) ∧ t.pc = s.pc + 4#32 ∧
      t.mstatus = (csrWrite s c v).mstatus ∧ t.satp = (csrWrite s c v).satp ∧
      t = { s with regs := t.regs, pc := t.pc, mstatus := t.mstatus, satp := t.satp } := by
  obtain ⟨t, ht, hx, hpc, hframe⟩ := writeResult_completes (csrWrite s c v) rd old
  rw [csrWrite_frame] at hframe
  exact ⟨t, ht, fun r => by rw [hx, csrWrite_x], by rw [hpc, csrWrite_pc], by rw [hframe], by rw [hframe],
    by rw [hframe]⟩

/-- Settles O21: CSRRW writes `x[rs1]`, whatever the old value is. -/
theorem csrrwSwaps : Obligations.CsrrwSwaps := by
  refine ⟨fun rd rs1 csr s c h => ?_, by decide⟩
  obtain ⟨t, ht, hx, hpc, hmstatus, hsatp, hframe⟩ := writeResult_csrWrite_completes s c (s.x rs1) rd (csrRead s c)
  have hexec : exec (.csrrw rd csr rs1) s = .next t :=
    (exec_csrrw rd csr rs1 s).trans ((csrInstr_of_write h (by rfl) _ rd).trans ht)
  exact ⟨t, hexec, hx, hpc, hmstatus, hsatp, hsatp, hframe⟩

/-- What CSRRS and CSRRC share: with the register number 0 they only read, else they write what `f` makes of the old
value. -/
theorem csrInstr_modify_completes {s : State} {n : CsrIdx} {c : Csr} (h : csrAccess s n = some c) (i : Instr)
    (rd rs1 : RegIdx) (f : Word → Word) :
    ∃ t, csrInstr i rd n (fun old => if rs1 = 0#5 then none else some (f old)) s = .next t ∧
      (∀ r, t.x r = if r = rd ∧ rd ≠ 0#5 then csrRead s c else s.x r) ∧ t.pc = s.pc + 4#32 ∧
      (rs1 = 0#5 → t.mstatus = s.mstatus ∧ t.satp = s.satp) ∧
      (rs1 ≠ 0#5 → t.mstatus = (csrWrite s c (f (csrRead s c))).mstatus ∧
        t.satp = (csrWrite s c (f (csrRead s c))).satp) ∧
      t = { s with regs := t.regs, pc := t.pc, mstatus := t.mstatus, satp := t.satp } := by
  by_cases hrs1 : rs1 = 0#5
  · obtain ⟨t, ht, hx, hpc, hframe⟩ := writeResult_completes s rd (csrRead s c)
    refine ⟨t, (csrInstr_of_read h (if_pos hrs1) i rd).trans ht, hx, hpc, fun _ => ⟨?_, ?_⟩,
      fun hne => absurd hrs1 hne, ?_⟩ <;> rw [hframe]
  · obtain ⟨t, ht, hx, hpc, hmstatus, hsatp, hframe⟩ :=
      writeResult_csrWrite_completes s c (f (csrRead s c)) rd (csrRead s c)
    exact ⟨t, (csrInstr_of_write h (if_neg hrs1) i rd).trans ht, hx, hpc, fun heq => absurd heq hrs1,
      fun _ => ⟨hmstatus, hsatp⟩, hframe⟩

/-- Settles O22: CSRRS writes the old value with the bits of `x[rs1]` set. -/
theorem csrrsSetsBits : Obligations.CsrrsSetsBits :=
  ⟨fun rd rs1 _ s _ h => csrInstr_modify_completes h _ rd rs1 (· ||| s.x rs1), by decide,
    fun s => by simp [Mstatus.writeSstatus]⟩

/-- Settles O23: CSRRC writes the old value with the bits of `x[rs1]` cleared. -/
theorem csrrcClearsBits : Obligations.CsrrcClearsBits :=
  ⟨fun rd rs1 _ s _ h => csrInstr_modify_completes h _ rd rs1 (· &&& ~~~(s.x rs1)), by decide,
    fun s => by simp [Mstatus.writeSstatus]⟩

end Sys2Proof.Machine

/-! # Exceptions (60_exceptions.md) -/

namespace Sys2Proof.Machine

/-! ## The exception codes (R230) -/

/-- R230's table read from code to exception: what a handler makes of a code. -/
def excKindOfCode : Nat → Option ExcKind
  | 0  => some .instructionAddressMisaligned
  | 1  => some (.accessFault .fetch)
  | 2  => some .illegalInstruction
  | 4  => some .loadAddressMisaligned
  | 5  => some (.accessFault .load)
  | 6  => some .storeAddressMisaligned
  | 7  => some (.accessFault .store)
  | 12 => some (.pageFault .fetch)
  | 13 => some (.pageFault .load)
  | 15 => some (.pageFault .store)
  | _  => none

@[simp] theorem excKindOfCode_excCode (k : ExcKind) : excKindOfCode (excCode k) = some k := by
  cases k with
  | pageFault acc | accessFault acc => cases acc <;> rfl
  | illegalInstruction | loadAddressMisaligned | storeAddressMisaligned | instructionAddressMisaligned => rfl

theorem excCode_injective : Function.Injective excCode := fun k k' h => by
  have hread : excKindOfCode (excCode k) = excKindOfCode (excCode k') := congrArg excKindOfCode h
  simpa using hread

/-- Settles O52: the codes are those of R230's table, which is read back from code to exception. -/
theorem exceptionCodes : Obligations.ExceptionCodes :=
  ⟨rfl, rfl, rfl, rfl, rfl, rfl, rfl, rfl, rfl, rfl, fun _ _ h => excCode_injective h⟩

end Sys2Proof.Machine

/-! # Words of memory and the final check (20_memory.md) -/

namespace Sys2Proof.Machine

/-! ## Little-endian words (R44, D3) -/

/-- A word is read just where its four bytes stand (R44). -/
theorem readWord_eq_some_iff {m : Memory} {pa : PhysAddr} {w : Word} :
    readWord m pa = some w ↔ ∀ k < 4, readByte m (pa + BitVec.ofNat 34 k) = some (byteOfWord w k) := by
  constructor
  · intro h k hk
    obtain ⟨b0, b1, b2, b3, h0, h1, h2, h3, rfl⟩ := readWord_eq_some h
    obtain ⟨e0, e1, e2, e3⟩ := byteOfWord_wordOfBytes b0 b1 b2 b3
    interval_cases k
    · simpa [e0] using h0
    · rwa [e1]
    · rwa [e2]
    · rwa [e3]
  · intro h
    rw [readWord_eq_of_bytes (by simpa using h 0 (by decide)) (h 1 (by decide)) (h 2 (by decide)) (h 3 (by decide)),
      wordOfBytes_byteOfWord]

/-- Settles O20: a word is its four bytes put together, and a store writes those bytes and no other. -/
theorem wordsAreLittleEndian : Obligations.WordsAreLittleEndian :=
  ⟨fun _ _ _ => readWord_eq_some_iff,
    fun m pa v => ⟨fun _ hk => readByte_writeWord_of_lt m pa v hk, fun _ hq => readByte_writeWord_of_ne m v hq⟩⟩

/-! ## The final check (R49, D30) -/

/-- Settles O41: the kind of the check is that of the access, and a failed check raises where the translation left off. -/
theorem failedFinalCheckIsAccessFault : Obligations.FailedFinalCheckIsAccessFault :=
  fun _ acc _ _ _ _ _ ht hcheck => resolve_of_failedCheck ht (by cases acc <;> exact hcheck)

end Sys2Proof.Machine

/-! # The bits of the control registers (45_host_hart_subset.md R193) -/

namespace Sys2Proof.Machine

/-! ## `satp` (R14, R15) -/

theorem extractLsb'_satpMask (len : Fin 10) : (satpMask len).extractLsb' 22 9 = asidMask len := by
  have hmode : (0x80000000#32).extractLsb' 22 9 = 0#9 := by decide
  have hppn : (0x003FFFFF#32).extractLsb' 22 9 = 0#9 := by decide
  simp [satpMask, BitVec.extractLsb'_or, hmode, hppn]

theorem satpAsid_and_asidMask {satp : Word} {len : Fin 10} (h : satp &&& satpMask len = satp) :
    satpAsid satp &&& asidMask len = satpAsid satp := by
  rw [satpAsid, ← extractLsb'_satpMask, ← BitVec.extractLsb'_and, h]

theorem satpMode_and_satpMask (v : Word) (len : Fin 10) : satpMode (v &&& satpMask len) = satpMode v := by
  simp [satpMode, satpMask]

/-- A write leaves no unimplemented bit of `satp` set. -/
theorem satpAfterWrite_and_satpMask {s : State} (h : s.satp &&& satpMask s.cfg.asidLen = s.satp) (v : Word) :
    satpAfterWrite s v &&& satpMask s.cfg.asidLen = satpAfterWrite s v := by
  unfold satpAfterWrite
  split
  · exact h
  · rw [BitVec.and_assoc, BitVec.and_self]

/-- A write selects no unsupported MODE (R15). -/
theorem satpMode_satpAfterWrite {s : State} (hs : s.cfg.sv32Supported = false) (h : satpMode s.satp = .bare)
    (v : Word) : satpMode (satpAfterWrite s v) = .bare := by
  unfold satpAfterWrite
  split
  · exact h
  · next hmode =>
    rw [satpMode_and_satpMask]
    cases hv : satpMode v with
    | bare => rfl
    | sv32 => simp [hv, hs] at hmode

theorem getLsbD_asidMask (len : Fin 10) (k : Nat) : (asidMask len).getLsbD k = decide (k < len.val) := by
  have hlen := len.isLt
  rw [asidMask, BitVec.getLsbD_ofNat, Nat.testBit_two_pow_sub_one]
  by_cases h : k < len.val
  · simp [h, show k < 9 by omega]
  · simp [h]

theorem getLsbD_satpMask (len : Fin 10) {k : Nat} (hk : k < 32) :
    (satpMask len).getLsbD k = (decide (k < 22 + len.val) || decide (k = 31)) := by
  have hlen := len.isLt
  rw [satpMask, BitVec.getLsbD_or, BitVec.getLsbD_or, getLsbD_place, getLsbD_asidMask]
  interval_cases k <;> simp <;> omega

/-- A `satp` write that is taken, bit by bit (R14, R15). -/
theorem getLsbD_satpAfterWrite {s : State} {v : Word} (h : s.cfg.sv32Supported = true ∨ v.getLsbD 31 = false) {k : Nat}
    (hk : k < 32) : (satpAfterWrite s v).getLsbD k =
      (v.getLsbD k && (decide (k < 22 + s.cfg.asidLen.val) || decide (k = 31))) := by
  have htaken : (decide (satpMode v = .sv32) && !s.cfg.sv32Supported) = false := by
    rcases h with h | h
    · simp [h]
    · have hbare : satpMode v = .bare := by rw [satpMode, h]; rfl
      simp [hbare]
  rw [satpAfterWrite, htaken, if_neg (by decide), BitVec.getLsbD_and, getLsbD_satpMask _ hk]

/-! ## `mstatus` and `sstatus` bit by bit -/

theorem getLsbD_place_ofBool {k lo : Nat} (hlo : lo < 32) (b : Bool) :
    (place 32 (BitVec.ofBool b) lo).getLsbD k = (decide (k = lo) && b) := by
  rw [getLsbD_place]
  by_cases h : k = lo
  · simp [h, hlo]
  · by_cases hle : lo ≤ k
    · have hpos : k - lo ≠ 0 := by omega
      simp [h, hpos, BitVec.getLsbD_ofBool]
    · simp [h, hle]

/-- The bits of `mstatus` as it is read (R193). -/
theorem Mstatus.getLsbD_toWord (m : Mstatus) {k : Nat} (hk : k < 32) :
    m.toWord.getLsbD k = (decide (k = 20) && m.tvm || decide (k = 19) && m.mxr || decide (k = 18) && m.sum ||
      decide (k = 17) && m.mprv || decide (11 ≤ k) && (privBits m.mpp).getLsbD (k - 11)) := by
  rw [Mstatus.toWord]
  iterate 4 rw [BitVec.getLsbD_or]
  iterate 4 rw [getLsbD_place_ofBool (by decide)]
  simp [hk]

theorem Mstatus.getLsbD_toSstatus (m : Mstatus) (k : Nat) :
    m.toSstatus.getLsbD k = (decide (k = 19) && m.mxr || decide (k = 18) && m.sum) := by
  rw [Mstatus.toSstatus, BitVec.getLsbD_or, getLsbD_place_ofBool (by decide), getLsbD_place_ofBool (by decide)]

/-- A write of 2 to MPP leaves it, any other value is the one that is read (R193). -/
theorem privBits_getD_privOfBits (b : BitVec 2) (p : Priv) :
    privBits ((privOfBits b).getD p) = if b = 2#2 then privBits p else b := by
  cases p <;> revert b <;> decide

/-- A write of `mstatus` bit by bit: MPP, then the four flags, then the bits that read 0 (R193). -/
theorem Mstatus.getLsbD_write (m : Mstatus) (v : Word) {k : Nat} (hk : k < 32) :
    (m.write v).toWord.getLsbD k =
      if k = 11 ∨ k = 12 then (if v.extractLsb' 11 2 = 2#2 then m.toWord.getLsbD k else v.getLsbD k)
      else (v.getLsbD k && decide (17 ≤ k) && decide (k ≤ 20)) := by
  have hmpp : privBits (m.write v).mpp = if v.extractLsb' 11 2 = 2#2 then privBits m.mpp else v.extractLsb' 11 2 :=
    privBits_getD_privOfBits _ _
  rw [Mstatus.getLsbD_toWord _ hk]
  by_cases hfield : k = 11 ∨ k = 12
  · rw [if_pos hfield, Mstatus.getLsbD_toWord _ hk, hmpp]
    rcases hfield with rfl | rfl <;> split <;> simp
  · rw [if_neg hfield]
    have hmppBit : (decide (11 ≤ k) && (privBits (m.write v).mpp).getLsbD (k - 11)) = false := by
      by_cases hle : 11 ≤ k
      · simp [BitVec.getLsbD_of_ge _ (k - 11) (show 2 ≤ k - 11 by omega)]
      · simp [hle]
    rw [hmppBit, Mstatus.write]
    have hbit : k = 17 ∨ k = 18 ∨ k = 19 ∨ k = 20 ∨ k < 17 ∨ 20 < k := by omega
    rcases hbit with rfl | rfl | rfl | rfl | hout
    iterate 4 simp
    · obtain ⟨h17, h18, h19, h20⟩ : k ≠ 17 ∧ k ≠ 18 ∧ k ≠ 19 ∧ k ≠ 20 := by omega
      have hzero : (decide (17 ≤ k) && decide (k ≤ 20)) = false := by simp; omega
      simp [h17, h18, h19, h20, Bool.and_assoc, hzero]

/-- Settles O25: each register bit by bit, as it is read after the write. -/
theorem csrImplementedBits : Obligations.CsrImplementedBits := by
  intro s v
  refine ⟨fun htaken k hk => getLsbD_satpAfterWrite htaken hk, fun hs hmode => ?_,
    fun k hk => s.mstatus.getLsbD_write v hk, fun k hk => ?_, fun k hk => ?_⟩
  · simp [csrRead, satpAfterWrite, satpMode, hs, hmode]
  · simp only [csrRead, Mstatus.getLsbD_toSstatus, Mstatus.getLsbD_toWord _ hk]
    by_cases h : k = 18 ∨ k = 19
    · rcases h with rfl | rfl <;> simp
    · obtain ⟨h18, h19⟩ := not_or.mp h
      simp [h18, h19]
  · simp only [csrRead, csrWrite_mstatus_sstatus, Mstatus.getLsbD_toWord _ hk, Mstatus.writeSstatus]
    split
    · next h => rcases h with rfl | rfl <;> simp
    · next h =>
      obtain ⟨h18, h19⟩ := not_or.mp h
      simp [h18, h19]

/-! ## Who may reach which control register (R84, R204) -/

theorem csrOf_of_csrAccess {s : State} {n : CsrIdx} {c : Csr} (h : csrAccess s n = some c) :
    csrOf n = some c ∧ ¬ csrIllegal s n := by
  have hlegal : ¬ csrIllegal s n := fun hillegal => by simp [csrAccess_of_illegal hillegal] at h
  exact ⟨csrAccess_of_legal hlegal ▸ h, hlegal⟩

theorem csrOf_eq_mstatus_iff (n : CsrIdx) : csrOf n = some .mstatus ↔ n = 0x300#12 := by
  unfold csrOf
  split_ifs <;> simp [*]

/-- Only M-mode reaches `mstatus`, whose number asks for mode 3. -/
theorem priv_of_csrAccess_mstatus {s : State} {n : CsrIdx} (h : csrAccess s n = some .mstatus) : s.priv = .machine := by
  obtain ⟨hcsr, hlegal⟩ := csrOf_of_csrAccess h
  obtain rfl := (csrOf_eq_mstatus_iff n).mp hcsr
  have hmode : ¬ (privBits s.priv).toNat < 3 := fun hlt => hlegal (.inr (.inl hlt))
  cases hp : s.priv with
  | machine => rfl
  | user | supervisor => simp [hp, privBits] at hmode

/-- U-mode reaches no control register: no number asks for mode 0. -/
theorem csrIllegal_of_user {s : State} (h : s.priv = .user) (n : CsrIdx) : csrIllegal s n := by
  by_cases hknown : n ≠ 0x100#12 ∧ n ≠ 0x180#12 ∧ n ≠ 0x300#12
  · exact .inl hknown
  · have hn : n = 0x100#12 ∨ n = 0x180#12 ∨ n = 0x300#12 := by tauto
    refine .inr (.inl ?_)
    rw [h]
    rcases hn with rfl | rfl | rfl <;> decide

/-- With TVM set the supervisor does not reach `satp` (R20, R204). -/
theorem csrAccess_ne_satp {s : State} (h : s.priv = .supervisor) (htvm : s.mstatus.tvm = true) (n : CsrIdx) :
    csrAccess s n ≠ some .satp := by
  intro hacc
  obtain ⟨hcsr, hlegal⟩ := csrOf_of_csrAccess hacc
  exact hlegal (.inr (.inr ⟨(csrOf_eq_satp_iff n).mp hcsr, h, htvm⟩))

end Sys2Proof.Machine

/-! # SFENCE.VMA (42_translation_cache_and_sfence.md R172 to R175) -/

namespace Sys2Proof.Machine

theorem sfenceAllowed_iff (s : State) :
    sfenceAllowed s = true ↔ s.priv = .machine ∨ (s.priv = .supervisor ∧ s.mstatus.tvm = false) := by
  cases hp : s.priv <;> simp [sfenceAllowed, hp]

theorem sfenceAllowed_eq_false_iff (s : State) :
    sfenceAllowed s = false ↔ s.priv = .user ∨ (s.priv = .supervisor ∧ s.mstatus.tvm = true) := by
  cases hp : s.priv <;> simp [sfenceAllowed, hp]

theorem exec_sfenceVma_of_allowed {s : State} (h : sfenceAllowed s = true) (rs1 rs2 : RegIdx) :
    exec (.sfenceVma rs1 rs2) s = .next (State.advance { s with
      ms := fenceStores (fenceAtc (sfenceAddr s rs1) (sfenceAsid s rs2) (atAccess s.mmu s.ms).2) }) :=
  if_pos h

theorem exec_sfenceVma_of_refused {s : State} (h : sfenceAllowed s = false) (rs1 rs2 : RegIdx) :
    exec (.sfenceVma rs1 rs2) s = raise s .illegalInstruction (encode (.sfenceVma rs1 rs2)) :=
  if_neg (by simp [h])

theorem sfenceAsid_eq (s : State) (rs2 : RegIdx) : sfenceAsid s rs2 = if rs2 = 0#5 then none else
    some ((s.x rs2).setWidth 9 &&& BitVec.ofNat 9 (2 ^ s.cfg.asidLen.val - 1)) := by
  rw [sfenceAsid, asidMask, BitVec.setWidth_eq_extractLsb' (by decide)]

theorem covers_iff (t : AtcEntry) (v : Word) :
    covers t v = true ↔ t.vpn1 = vpn1 v ∧ (t.level = .one ∨ t.vpn0 = vpn0 v) := by
  simp [covers]

theorem terminal_iff (t : AtcEntry) : terminal t = true ↔ t.level = .zero ∨ pteClass t.pte ≠ .pointer := by
  simp [terminal]

/-- `MustRemove` of the model is the one R173 writes. -/
theorem mustRemove_iff (s : State) (rs1 rs2 : RegIdx) (t : AtcEntry) :
    mustRemove (sfenceAddr s rs1) (sfenceAsid s rs2) t = true ↔ fenceMustRemove rs1 rs2 (s.x rs1)
      ((s.x rs2).setWidth 9 &&& BitVec.ofNat 9 (2 ^ s.cfg.asidLen.val - 1)) t := by
  unfold mustRemove fenceMustRemove
  rw [Bool.and_eq_true, sfenceAsid_eq, sfenceAddr]
  refine and_congr ?_ ?_
  · by_cases h : rs2 = 0#5 <;> simp [h]
  · by_cases h : rs1 = 0#5 <;> simp [h, covers_iff, terminal_iff, vpn1, vpn0, and_assoc]

/-- Settles O26: the model's fence filters the cache as the drawn evictions leave it, by the rule's `MustRemove`. -/
theorem sfenceRemovesCoveredEntries : Obligations.SfenceRemovesCoveredEntries := by
  intro rs1 rs2 s hpriv
  refine ⟨_, exec_sfenceVma_of_allowed ((sfenceAllowed_iff s).mpr hpriv) rs1 rs2, rfl, rfl, fun u => ?_⟩
  rw [State.advance_ms, fenceStores_atc, mem_fenceAtc, ← mustRemove_iff, Bool.not_eq_true]

/-- Settles O27: the mode and TVM decide, and a refusal records the word and changes nothing else. -/
theorem sfencePrivilege : Obligations.SfencePrivilege := fun rs1 rs2 s =>
  ⟨fun h => exec_sfenceVma_of_refused ((sfenceAllowed_eq_false_iff s).mpr h) rs1 rs2,
    fun h => ⟨_, exec_sfenceVma_of_allowed ((sfenceAllowed_iff s).mpr h) rs1 rs2, rfl⟩⟩

end Sys2Proof.Machine

/-! # The whole machine (45_host_hart_subset.md R191, 60_exceptions.md R235) -/

namespace Sys2Proof.Machine

/-! ## What an explicit access can answer -/

theorem MRes.bind_eq_raised {α β : Type} {r : MRes α} {k : α → MemSys → MRes β} {x : Exn} {m : MemSys}
    (hk : ∀ a m1, k a m1 ≠ .raised x m) (h : r.bind k = .raised x m) : r = .raised x m := by
  cases r with
  | ok a m1 => exact absurd h (hk a m1)
  | raised y m1 => simpa [MRes.bind] using h
  | stuck f => simp [MRes.bind] at h

theorem readMem_ne_raised (pa : PhysAddr) (m m' : MemSys) (x : Exn) : readMem pa m ≠ .raised x m' := by
  unfold readMem
  split <;> simp

/-- A load or fetch that answers a word has left what its access left: the read changes nothing. -/
theorem explicitRead_ok {e : Mmu} {acc : AccessType} {va : Word} {priv : Priv} {m m' : MemSys} {v : Word}
    (h : (resolve e acc va priv m).bind readMem = .ok v m') : ∃ pa, resolve e acc va priv m = .ok pa m' := by
  obtain ⟨pa, m1, hres, hread⟩ := MRes.bind_eq_ok h
  obtain ⟨-, rfl⟩ := readMem_ok hread
  exact ⟨pa, hres⟩

theorem explicitRead_raised {e : Mmu} {acc : AccessType} {va : Word} {priv : Priv} {m m' : MemSys} {x : Exn}
    (h : (resolve e acc va priv m).bind readMem = .raised x m') : resolve e acc va priv m = .raised x m' :=
  MRes.bind_eq_raised (fun pa m1 => readMem_ne_raised pa m1 m' x) h

theorem memWrite_raised {e : Mmu} {va : Word} {priv : Priv} {v : Word} {m m' : MemSys} {x : Exn}
    (h : memWrite e va priv v m = .raised x m') : resolve e .store va priv m = .raised x m' :=
  MRes.bind_eq_raised (fun pa m1 => by simp [writeMem]) h

theorem memAmo_raised {e : Mmu} {va : Word} {priv : Priv} {f : Word → Word} {m m' : MemSys} {x : Exn}
    (h : memAmo e va priv f m = .raised x m') : resolve e .store va priv m = .raised x m' := by
  refine MRes.bind_eq_raised (fun pa m1 hbody => ?_) h
  exact readMem_ne_raised pa m1 m' x (MRes.bind_eq_raised (fun t m2 => by simp [writeMem, MRes.bind]) hbody)

/-! ## Everything an instruction and a step can do -/

/-- What an instruction that completes leaves of the memory system: nothing new, what the access of a load leaves, a word
stored where `resolve` says, or what SFENCE.VMA leaves, where it is allowed. -/
inductive MemEffect (s : State) : MemSys → Prop
  | unchanged : MemEffect s s.ms
  | read {va : Word} {pa : PhysAddr} {m : MemSys} :
    resolve s.mmu .load va (effPriv s .load) s.ms = .ok pa m → MemEffect s m
  | stored {va : Word} {pa : PhysAddr} {m : MemSys} (v : Word) :
    resolve s.mmu .store va (effPriv s .store) s.ms = .ok pa m → MemEffect s (storedWord s.mmu pa v m)
  | fenced (rs1 rs2 : RegIdx) :
    sfenceAllowed s = true →
    MemEffect s (fenceStores (fenceAtc (sfenceAddr s rs1) (sfenceAsid s rs2) (atAccess s.mmu s.ms).2))

/-- What an instruction leaves when it answers a next state: an exception, of its own or of its access, is taken; or it
completes as a taken branch, as a control-register write its access check lets through, or with a new register file and
memory system and `pc` advanced. -/
inductive ExecEffect (s : State) : State → Prop
  | raised (x : Exn) : ExecEffect s (takeTrap x s)
  | accessRaised {acc : AccessType} {va : Word} {priv : Priv} {x : Exn} {m : MemSys} :
    resolve s.mmu acc va priv s.ms = .raised x m → ExecEffect s (takeTrap x { s with ms := m })
  | branched {offset : BitVec 13} :
    aligned4 (branchTarget s offset) = true → ExecEffect s { s with pc := branchTarget s offset }
  | csrWritten {n : CsrIdx} {c : Csr} (v : Word) (rd : RegIdx) (old : Word) :
    csrAccess s n = some c → ExecEffect s ((csrWrite s c v).setX rd old).advance
  | completed (regs : Vector Word 31) {m : MemSys} :
    MemEffect s m → ExecEffect s (State.advance { s with regs := regs, ms := m })

theorem ExecEffect.of_raise {s t : State} {k : ExcKind} {v : Word} (h : raise s k v = .next t) : ExecEffect s t := by
  injection h with h
  exact h ▸ .raised ⟨k, v⟩

theorem ExecEffect.of_writeResult {s t : State} {m : MemSys} {rd : RegIdx} {v : Word} (hm : MemEffect s m)
    (h : writeResult { s with ms := m } rd v = .next t) : ExecEffect s t := by
  injection h with h
  exact h ▸ .completed _ hm

theorem ExecEffect.of_csrInstr {s t : State} {i : Instr} {rd : RegIdx} {n : CsrIdx} {new : Word → Option Word}
    (h : csrInstr i rd n new s = .next t) : ExecEffect s t := by
  cases hacc : csrAccess s n with
  | none =>
    rw [csrInstr_of_refused hacc] at h
    exact .of_raise h
  | some c =>
    cases hnew : new (csrRead s c) with
    | none =>
      rw [csrInstr_of_read hacc hnew] at h
      exact .of_writeResult .unchanged h
    | some v =>
      rw [csrInstr_of_write hacc hnew] at h
      injection h with h
      exact h ▸ .csrWritten v rd _ hacc

theorem ExecEffect.of_execBne {s t : State} {rs1 rs2 : RegIdx} {offset : BitVec 13}
    (h : execBne rs1 rs2 offset s = .next t) : ExecEffect s t := by
  unfold execBne at h
  split at h
  · split at h
    · next haligned =>
      injection h with h
      exact h ▸ .branched haligned
    · exact .of_raise h
  · injection h with h
    exact h ▸ .completed s.regs .unchanged

theorem ExecEffect.of_execLw {s t : State} {rd rs1 : RegIdx} {imm : BitVec 12} (h : execLw rd rs1 imm s = .next t) :
    ExecEffect s t := by
  simp only [execLw] at h
  split at h
  · rcases finish_cases h with ⟨v, m, hread, hnext⟩ | ⟨x, m, hread, rfl⟩
    · obtain ⟨pa, hres⟩ := explicitRead_ok hread
      exact .of_writeResult (.read hres) hnext
    · exact .accessRaised (explicitRead_raised hread)
  · exact .of_raise h

theorem ExecEffect.of_execSw {s t : State} {rs2 rs1 : RegIdx} {imm : BitVec 12} (h : execSw rs2 rs1 imm s = .next t) :
    ExecEffect s t := by
  simp only [execSw] at h
  split at h
  · rcases finish_cases h with ⟨u, m, hwrite, hnext⟩ | ⟨x, m, hwrite, rfl⟩
    · obtain ⟨pa, m1, hres, rfl⟩ := memWrite_ok hwrite
      injection hnext with hnext
      exact hnext ▸ .completed s.regs (.stored _ hres)
    · exact .accessRaised (memWrite_raised hwrite)
  · exact .of_raise h

theorem ExecEffect.of_execAmoaddW {s t : State} {rd rs2 rs1 : RegIdx} {aq rl : Bool}
    (h : execAmoaddW rd rs2 rs1 aq rl s = .next t) : ExecEffect s t := by
  simp only [execAmoaddW] at h
  split at h
  · rcases finish_cases h with ⟨v, m, hamo, hnext⟩ | ⟨x, m, hamo, rfl⟩
    · obtain ⟨pa, m1, hres, -, rfl⟩ := memAmo_ok hamo
      exact .of_writeResult (.stored _ hres) hnext
    · exact .accessRaised (memAmo_raised hamo)
  · exact .of_raise h

theorem ExecEffect.of_execSfenceVma {s t : State} {rs1 rs2 : RegIdx} (h : execSfenceVma rs1 rs2 s = .next t) :
    ExecEffect s t := by
  unfold execSfenceVma at h
  split at h
  · next hallowed =>
    injection h with h
    exact h ▸ .completed s.regs (.fenced _ _ hallowed)
  · exact .of_raise h

/-- Every instruction that answers a next state has one of the effects. -/
theorem exec_effect {i : Instr} {s t : State} (h : exec i s = .next t) : ExecEffect s t := by
  cases i with
  | lui rd imm => exact .of_writeResult .unchanged h
  | addi rd rs1 imm => exact .of_writeResult .unchanged h
  | add rd rs1 rs2 => exact .of_writeResult .unchanged h
  | bne rs1 rs2 offset => exact .of_execBne h
  | lw rd rs1 imm => exact .of_execLw h
  | sw rs2 rs1 imm => exact .of_execSw h
  | amoaddW rd rs2 rs1 aq rl => exact .of_execAmoaddW (aq := aq) (rl := rl) h
  | csrrw rd csr rs1 => exact .of_csrInstr ((exec_csrrw rd csr rs1 s).symm.trans h)
  | csrrs rd csr rs1 => exact .of_csrInstr ((exec_csrrs rd csr rs1 s).symm.trans h)
  | csrrc rd csr rs1 => exact .of_csrInstr ((exec_csrrc rd csr rs1 s).symm.trans h)
  | sfenceVma rs1 rs2 => exact .of_execSfenceVma h

/-- Everything a step can do when it answers a next state: the fetch raises, and its exception is taken; or the fetch
leaves a memory system in which an instruction has its effect. -/
inductive StepEffect (s : State) : State → Prop
  | fetchRaised {x : Exn} {m : MemSys} :
    resolve s.mmu .fetch s.pc s.priv s.ms = .raised x m → StepEffect s (takeTrap x { s with ms := m })
  | ran {pa : PhysAddr} {m : MemSys} {t : State} :
    resolve s.mmu .fetch s.pc s.priv s.ms = .ok pa m → ExecEffect { s with ms := m } t → StepEffect s t

theorem step_effect {s t : State} (h : step s = .next t) : StepEffect s t := by
  unfold step at h
  split at h
  · simp at h
  · split at h
    · rcases finish_cases h with ⟨w, m, hfetch, hrun⟩ | ⟨x, m, hfetch, rfl⟩
      · obtain ⟨pa, hres⟩ := explicitRead_ok hfetch
        unfold runWord at hrun
        split at hrun
        · exact .ran hres (exec_effect hrun)
        · simp at hrun
      · exact .fetchRaised (explicitRead_raised hfetch)
    · simp at h

/-! ## Mode, configuration and reservation -/

theorem ExecEffect.frame {s t : State} (h : ExecEffect s t) :
    t.priv = s.priv ∧ t.cfg = s.cfg ∧ t.reservation = s.reservation := by
  cases h with
  | raised | accessRaised | branched | completed => exact ⟨rfl, rfl, rfl⟩
  | csrWritten => simp

/-- Settles O55: no effect of a fetch or of an instruction reaches the three. -/
theorem stepKeepsModeAndConfig : Obligations.StepKeepsModeAndConfig := by
  intro s t h
  cases step_effect h with
  | fetchRaised => exact ⟨rfl, rfl, rfl⟩
  | ran _ heffect => exact heffect.frame

/-! ## What every access of the hart keeps -/

theorem MRes.Leaves.of_ok {α : Type} {P : MemSys → Prop} {r : MRes α} {a : α} {m : MemSys} (h : r.Leaves P)
    (hr : r = .ok a m) : P m := by
  rwa [hr] at h

theorem MRes.Leaves.of_raised {α : Type} {P : MemSys → Prop} {r : MRes α} {x : Exn} {m : MemSys} (h : r.Leaves P)
    (hr : r = .raised x m) : P m := by
  rwa [hr] at h

theorem writtenPte_of_access (acc : AccessType) (pte : Word) : writtenPte false acc pte = setAD pte acc := rfl

section
variable {P : MemSys → Prop} {e : Mmu} {acc : AccessType}
  (hland : ∀ m, P m → P (atAccess e m).2)
  (hfill : ∀ m f t, P m → t.asid = satpAsid e.satp → P (fillAtc f t m))
  (hwrite : ∀ m addr pte, P m → readWord m.mem addr = some pte →
    P { m with mem := writeWord m.mem addr (setAD pte acc) })

include hland hfill hwrite in
/-- What the landing of draws, fills with the current ASID and the writes of step 7 keep, an explicit access keeps up to
its own read or write. -/
theorem resolve_leaves (va : Word) (priv : Priv) {m : MemSys} (hm : P m) : (resolve e acc va priv m).Leaves P := by
  have htranslate : (translate e acc va priv m).Leaves P := by
    unfold translate
    split
    · exact hm
    · refine walk_leaves_writtenPte hfill (fun m addr pte hm hr _ _ => ?_) hland _ _ _ _ _ _ hm
      rw [writtenPte_of_access]
      exact hwrite m addr pte hm hr
  refine htranslate.bind fun pa m1 h1 => ?_
  split
  · exact hland m1 h1
  · exact h1
end

/-! ## The invariant of the memory system -/

/-- The part of `State.Inv` that speaks of the memory system. -/
structure MemSys.Inv (c : Config) (m : MemSys) : Prop where
  mem      : Memory.wf m.mem = true
  atc      : ∀ t ∈ m.atc, t.asid &&& asidMask c.asidLen = t.asid
  unfenced : c.implicitReads = .programOrder → m.unfenced = []

namespace MemSys.Inv

variable {c : Config} {m : MemSys}

theorem fill (h : m.Inv c) (f : Bool) {t : AtcEntry} (ht : t.asid &&& asidMask c.asidLen = t.asid) :
    (fillAtc f t m).Inv c where
  mem := by simpa using h.mem
  atc u hu := by
    rcases mem_or_of_mem_fillAtc hu with hu | rfl
    · exact h.atc u hu
    · exact ht
  unfenced hv := by simpa using h.unfenced hv

theorem write (h : m.Inv c) (pa : PhysAddr) (v : Word) : MemSys.Inv c { m with mem := writeWord m.mem pa v } :=
  ⟨writeWord_wf pa v h.mem, h.atc, h.unfenced⟩

theorem afterStore {e : Mmu} (h : m.Inv e.cfg) (pa : PhysAddr) (v : Word) : (storedWord e pa v m).Inv e.cfg :=
  ⟨writeWord_wf pa v h.mem, h.atc, fun hv => by simpa [storedWord, hv] using h.unfenced hv⟩

theorem afterFence (h : m.Inv c) (va : Option Word) (asid : Option Asid) :
    (fenceStores (fenceAtc va asid m)).Inv c where
  mem := h.mem
  atc u hu := h.atc u ((mem_fenceAtc va asid m u).mp hu).1
  unfenced _ := rfl

variable {e : Mmu} (hasid : satpAsid e.satp &&& asidMask e.cfg.asidLen = satpAsid e.satp)

include hasid in
/-- One act of another agent keeps it, if the ASID of a speculative walk is one `satp` can hold. -/
theorem afterEvent (h : m.Inv e.cfg) (ev : Event) : (applyEvent e ev m).Inv e.cfg := by
  cases ev with
  | store pa b => exact ⟨writeByte_wf pa b h.mem, h.atc, h.unfenced⟩
  | evict k => exact ⟨h.mem, fun u hu => h.atc u (List.mem_of_mem_eraseIdx hu), h.unfenced⟩
  | specWalk va acc priv cs =>
    exact specWalk_leaves (P := MemSys.Inv e.cfg) (fun m _ hm => ⟨hm.mem, hm.atc, hm.unfenced⟩)
      (fun m f t hm ht => hm.fill f (ht ▸ hasid)) (fun m addr pte hm _ _ _ => hm.write addr _) va acc priv cs h

include hasid in
theorem afterAccess (h : m.Inv e.cfg) : (atAccess e m).2.Inv e.cfg := by
  have hpop : (popDraw m).2.Inv e.cfg := by
    rw [popDraw_snd]
    exact ⟨h.mem, h.atc, h.unfenced⟩
  exact List.foldlRecOn (popDraw m).1.events _ hpop fun m hm ev _ => hm.afterEvent hasid ev

include hasid in
theorem resolve_leaves (h : m.Inv e.cfg) (acc : AccessType) (va : Word) (priv : Priv) :
    (resolve e acc va priv m).Leaves (MemSys.Inv e.cfg) :=
  Machine.resolve_leaves (fun _ hm => hm.afterAccess hasid) (fun _ f _ hm ht => hm.fill f (ht ▸ hasid))
    (fun _ addr _ hm _ => hm.write addr _) va priv h

end MemSys.Inv

/-! ## The invariant of the state -/

theorem aligned4_add_four {a : Word} (h : aligned4 a = true) : aligned4 (a + 4#32) = true := by
  rw [aligned4_iff] at h ⊢
  bv_omega

namespace State.Inv

variable {s t : State}

theorem memSys (h : s.Inv) : s.ms.Inv s.cfg := ⟨h.mem, h.atc, h.unfenced⟩

/-- The ASID of a walk is one `satp` can hold. -/
theorem asid (h : s.Inv) : satpAsid s.mmu.satp &&& asidMask s.mmu.cfg.asidLen = satpAsid s.mmu.satp :=
  satpAsid_and_asidMask h.satp

/-- The invariant reads the control registers, `pc` and the memory system only. -/
theorem of_same_control (h : s.Inv) (hcfg : t.cfg = s.cfg) (hpriv : t.priv = s.priv) (hmstatus : t.mstatus = s.mstatus)
    (hsatp : t.satp = s.satp) (hpc : aligned4 t.pc = true) (hms : t.ms.Inv s.cfg) : t.Inv where
  mem := hms.mem
  pc := hpc
  mprv := by simpa only [hmstatus, hpriv] using h.mprv
  satp := by simpa only [hcfg, hsatp] using h.satp
  sv32 := by simpa only [hcfg, hsatp] using h.sv32
  atc := by simpa only [hcfg] using hms.atc
  unfenced := by simpa only [hcfg] using hms.unfenced
  cfg := by simpa only [hcfg] using h.cfg

theorem afterTrap (h : s.Inv) (x : Exn) {m : MemSys} (hm : m.Inv s.cfg) : (takeTrap x { s with ms := m }).Inv :=
  h.of_same_control rfl rfl rfl rfl h.pc hm

/-- A control-register write keeps it: `sstatus` does not hold MPRV, a write of `satp` has implemented bits and a supported
MODE, and `mstatus` is written in M-mode. -/
theorem afterCsrWrite (h : s.Inv) {n : CsrIdx} {c : Csr} (hacc : csrAccess s n = some c) (v : Word) :
    (csrWrite s c v).Inv := by
  cases c with
  | sstatus => exact ⟨h.mem, h.pc, h.mprv, h.satp, h.sv32, h.atc, h.unfenced, h.cfg⟩
  | satp =>
    exact ⟨h.mem, h.pc, h.mprv, satpAfterWrite_and_satpMask h.satp v,
      fun hs => satpMode_satpAfterWrite (s := s) hs (h.sv32 hs) v, h.atc, h.unfenced, h.cfg⟩
  | mstatus =>
    exact ⟨h.mem, h.pc, fun _ => priv_of_csrAccess_mstatus (s := s) hacc, h.satp, h.sv32, h.atc, h.unfenced, h.cfg⟩

end State.Inv

theorem State.Inv.resolve_leaves {s : State} (h : s.Inv) (acc : AccessType) (va : Word) (priv : Priv) :
    (resolve s.mmu acc va priv s.ms).Leaves (MemSys.Inv s.cfg) :=
  MemSys.Inv.resolve_leaves (e := s.mmu) h.asid h.memSys acc va priv

theorem MemEffect.inv {s : State} {m : MemSys} (h : MemEffect s m) (hs : s.Inv) : m.Inv s.cfg := by
  cases h with
  | unchanged => exact hs.memSys
  | read hres => exact (hs.resolve_leaves _ _ _).of_ok hres
  | @stored _ pa m v hres =>
    have hm : m.Inv s.mmu.cfg := (hs.resolve_leaves _ _ _).of_ok hres
    exact hm.afterStore pa v
  | fenced =>
    have hm : s.ms.Inv s.mmu.cfg := hs.memSys
    exact (hm.afterAccess hs.asid).afterFence _ _

theorem ExecEffect.inv {s t : State} (h : ExecEffect s t) (hs : s.Inv) : t.Inv := by
  cases h with
  | raised x => exact hs.afterTrap x hs.memSys
  | @accessRaised _ _ _ x _ hres => exact hs.afterTrap x ((hs.resolve_leaves _ _ _).of_raised hres)
  | branched htarget => exact hs.of_same_control rfl rfl rfl rfl htarget hs.memSys
  | csrWritten v rd old hacc =>
    have hw := hs.afterCsrWrite hacc v
    exact hw.of_same_control rfl rfl rfl rfl (aligned4_add_four hw.pc) hw.memSys
  | completed regs heffect =>
    exact hs.of_same_control rfl rfl rfl rfl (aligned4_add_four hs.pc) (heffect.inv hs)

/-- Settles O54. The fetch keeps the memory system's part of the invariant, and every effect of an instruction keeps the
whole of it. -/
theorem stepKeepsInvariant : Obligations.StepKeepsInvariant := by
  intro s t hs h
  cases step_effect h with
  | @fetchRaised x _ hres => exact hs.afterTrap x ((hs.resolve_leaves _ _ _).of_raised hres)
  | ran hres heffect =>
    exact heffect.inv (hs.of_same_control rfl rfl rfl rfl hs.pc ((hs.resolve_leaves _ _ _).of_ok hres))

/-! ## Reset (R27) -/

/-- Settles O51: the reset state has empty memory and cache, M-mode, MPRV clear, `satp` 0 and the platform's
configuration. -/
theorem resetMeetsInvariant : Obligations.ResetMeetsInvariant where
  mem := rfl
  pc := rfl
  mprv := fun _ => rfl
  satp := BitVec.zero_and
  sv32 := fun _ => rfl
  atc := fun _ h => absurd h List.not_mem_nil
  unfenced := fun _ => rfl
  cfg := by decide

/-- Settles O50: the reset state is written with these values, and `x0` has no storage. -/
theorem resetValues : Obligations.ResetValues := ⟨rfl, rfl, rfl, readReg_zero _, rfl, rfl⟩

/-! ## What the hart's accesses do while no other agent acts -/

theorem adByte_or_adByte (acc acc' : AccessType) : ∃ acc'', adByte acc ||| adByte acc' = adByte acc'' :=
  ⟨if acc = .store then acc else acc', by cases acc <;> cases acc' <;> rfl⟩

/-- The two bytes that may be set are those step 7 sets for one access or another. -/
theorem byteKeptOrAD_iff {x y : Option Byte} :
    byteKeptOrAD x y ↔ y = x ∨ ∃ b acc, x = some b ∧ y = some (b ||| adByte acc) := by
  refine or_congr_right (exists_congr fun b => ⟨?_, ?_⟩)
  · rintro ⟨hx, hy | hy⟩
    · exact ⟨.load, hx, hy⟩
    · exact ⟨.store, hx, hy⟩
  · rintro ⟨acc, hx, hy⟩
    refine ⟨hx, ?_⟩
    cases acc with
    | store => exact .inr hy
    | fetch | load => exact .inl hy

theorem byteKeptOrAD_trans {x y z : Option Byte} (hxy : byteKeptOrAD x y) (hyz : byteKeptOrAD y z) :
    byteKeptOrAD x z := by
  rw [byteKeptOrAD_iff] at hxy hyz ⊢
  rcases hxy with rfl | ⟨b, acc, rfl, rfl⟩
  · exact hyz
  · rcases hyz with rfl | ⟨b', acc', hb', rfl⟩
    · exact .inr ⟨b, acc, rfl, rfl⟩
    · obtain rfl := Option.some.inj hb'
      obtain ⟨acc'', hacc⟩ := adByte_or_adByte acc acc'
      exact .inr ⟨b, acc'', rfl, by rw [BitVec.or_assoc, hacc]⟩

theorem byteKeptOrAD_writeWord_setAD {mem : Memory} {pa : PhysAddr} {pte : Word} (h : readWord mem pa = some pte)
    (acc : AccessType) (q : PhysAddr) :
    byteKeptOrAD (readByte mem q) (readByte (writeWord mem pa (setAD pte acc)) q) := by
  obtain ⟨b, hb, hafter⟩ := readByte_writeWord_setAD h acc
  rw [byteKeptOrAD_iff, hafter]
  split
  · next hq => exact .inr ⟨b, acc, hq ▸ hb, rfl⟩
  · exact .inl rfl

/-- No other agent is still to act, and since the memory system was `m0` at most A and D have been set in memory, and no
cache entry has gone. -/
structure QuietSince (m0 m : MemSys) : Prop where
  undisturbed : Undisturbed m
  mem         : ∀ q, byteKeptOrAD (readByte m0.mem q) (readByte m.mem q)
  atc         : ∀ u ∈ m0.atc, u ∈ m.atc

namespace QuietSince

variable {m0 m : MemSys}

theorem refl (h : Undisturbed m) : QuietSince m m := ⟨h, fun _ => .inl rfl, fun _ hu => hu⟩

theorem fill (h : QuietSince m0 m) (f : Bool) (t : AtcEntry) : QuietSince m0 (fillAtc f t m) :=
  ⟨fillAtc_undisturbed.mpr h.undisturbed, by simpa using h.mem, fun u hu => mem_fillAtc_of_mem (h.atc u hu) f t⟩

theorem write_setAD (h : QuietSince m0 m) {addr : PhysAddr} {pte : Word} (hr : readWord m.mem addr = some pte)
    (acc : AccessType) : QuietSince m0 { m with mem := writeWord m.mem addr (setAD pte acc) } :=
  ⟨h.undisturbed, fun q => byteKeptOrAD_trans (h.mem q) (byteKeptOrAD_writeWord_setAD hr acc q), h.atc⟩

theorem afterAccess (h : QuietSince m0 m) (e : Mmu) : QuietSince m0 (atAccess e m).2 := by
  rw [atAccess_of_undisturbed e h.undisturbed]
  exact ⟨fun d hd => h.undisturbed d (List.mem_of_mem_tail hd), h.mem, h.atc⟩

/-- An access up to its own read or write: it sets A and D, and it adds entries. -/
theorem resolve_leaves (h : QuietSince m0 m) (e : Mmu) (acc : AccessType) (va : Word) (priv : Priv) :
    (resolve e acc va priv m).Leaves (QuietSince m0) :=
  Machine.resolve_leaves (fun _ hm => hm.afterAccess e) (fun _ f t hm _ => hm.fill f t)
    (fun _ _ _ hm hr => hm.write_setAD hr acc) va priv h

end QuietSince

/-! ## The frame of SW (R53, R199) -/

/-- Settles O18: the store's own access sets A and D at most, and the store itself writes its four bytes. -/
theorem storeFrame : Obligations.StoreFrame := by
  intro rs2 rs1 imm s t _ hu h ht
  obtain ⟨pa, m, hres, rfl⟩ := exec_sw_completed h ht
  have hquiet := ((QuietSince.refl hu).resolve_leaves _ _ _ _).of_ok hres
  refine ⟨pa, m, hres, fun k hk => readByte_writeWord_of_lt _ pa _ hk, fun q hq => ?_⟩
  have hkept : readByte (storedWord s.mmu pa (s.x rs2) m).mem q = readByte m.mem q := readByte_writeWord_of_ne _ _ hq
  simpa [hkept] using hquiet.mem q

/-! ## Traps (R235) -/

/-- A trap of an instruction is taken in the memory system the instruction began in, or in the one its access leaves. -/
theorem ExecEffect.trapped {s t : State} {r : TrapRecord} (h : ExecEffect s t) (hs : s.trap = none)
    (ht : t.trap = some r) :
    ∃ x m, t = takeTrap x { s with ms := m } ∧ ∀ m0, QuietSince m0 s.ms → QuietSince m0 m := by
  cases h with
  | raised x => exact ⟨x, s.ms, rfl, fun _ hm => hm⟩
  | @accessRaised _ _ _ x m hres =>
    exact ⟨x, m, rfl, fun _ hm => (hm.resolve_leaves _ _ _ _).of_raised hres⟩
  | branched | csrWritten | completed => simp [hs] at ht

theorem step_trapped {s t : State} {r : TrapRecord} (h : step s = .next t) (hs : s.trap = none)
    (ht : t.trap = some r) :
    ∃ x m, t = takeTrap x { s with ms := m } ∧ (Undisturbed s.ms → QuietSince s.ms m) := by
  cases step_effect h with
  | @fetchRaised x m hres =>
    exact ⟨x, m, rfl, fun hu => ((QuietSince.refl hu).resolve_leaves _ _ _ _).of_raised hres⟩
  | ran hres heffect =>
    obtain ⟨x, m, rfl, hquiet⟩ := heffect.trapped hs ht
    exact ⟨x, m, rfl, fun hu => hquiet _ (((QuietSince.refl hu).resolve_leaves _ _ _ _).of_ok hres)⟩

/-- A run that has ended takes no further step (R206, R235). -/
theorem step_of_trapped {s : State} {r : TrapRecord} (h : s.trap = some r) : step s = .fault (.trapped r) := by
  rw [step, h]

/-- Settles O9. Whether the fetch or the instruction raises, taking the trap changes the record and keeps what the
accesses made so far have left of the memory system. -/
theorem trapLeavesStateAsBefore : Obligations.TrapLeavesStateAsBefore := by
  intro s t r hs h ht
  have hlast := step_of_trapped ht
  obtain ⟨x, m, rfl, hquiet⟩ := step_trapped h hs ht
  obtain rfl := Option.some.inj ht
  exact ⟨rfl, rfl, hlast, fun hu => (hquiet hu).mem⟩

/-! ## The fetch and the decoder (R191, R192) -/

/-- Settles O8: the exception is that of the access at `pc`, which the fetch is. -/
theorem fetchFaultTraps : Obligations.FetchFaultTraps := by
  intro s x m htrap hpc hfetch
  obtain ⟨hkind, htval⟩ := accessRaisesOwnKind _ _ _ _ _ _ _ (explicitRead_raised hfetch)
  refine ⟨hkind, htval, ?_⟩
  rw [step_of_running htrap hpc, hfetch, finish_raised, takeTrap, htval]

/-- Settles O4: the decoder, run on each word, gives the instruction. -/
theorem specWordsDecode : Obligations.SpecWordsDecode := by
  unfold Obligations.SpecWordsDecode
  decide

/-- Settles O7: the opcode map rejects the word, and the step refuses it. -/
theorem wordOutsideSubsetIsRefused : Obligations.WordOutsideSubsetIsRefused := by
  intro s w m htrap hpc hfetch hno
  have hreject : decodeWord w = .error (.noRow w) := decodeFollowsOpcodeTable.2.1 w hno
  rw [step_of_running htrap hpc, hfetch, finish_ok, runWord, hreject]

/-! ## What the privilege mode keeps out of reach (R240) -/

/-- What a step can make of the two control registers. -/
theorem step_control {s t : State} (h : step s = .next t) :
    (t.mstatus = s.mstatus ∧ t.satp = s.satp) ∨
    ∃ n c v, csrAccess s n = some c ∧ t.mstatus = (csrWrite s c v).mstatus ∧ t.satp = (csrWrite s c v).satp := by
  cases step_effect h with
  | fetchRaised => exact .inl ⟨rfl, rfl⟩
  | ran _ heffect =>
    cases heffect with
    | raised | accessRaised | branched | completed => exact .inl ⟨rfl, rfl⟩
    | @csrWritten n c v _ _ hacc => exact .inr ⟨n, c, v, hacc, by cases c <;> exact ⟨rfl, rfl⟩⟩

theorem MemEffect.keeps_entries {s : State} {m m0 : MemSys} (h : MemEffect s m) (hfence : sfenceAllowed s = false)
    (hs : QuietSince m0 s.ms) : ∀ u ∈ m0.atc, u ∈ m.atc := by
  cases h with
  | unchanged => exact hs.atc
  | read hres => exact ((hs.resolve_leaves _ _ _ _).of_ok hres).atc
  | stored v hres => exact ((hs.resolve_leaves _ _ _ _).of_ok hres).atc
  | fenced _ _ hallowed => simp [hfence] at hallowed

/-- A step that may not fence removes no entry, while no other agent acts. -/
theorem step_keeps_entries {s t : State} (h : step s = .next t) (hfence : sfenceAllowed s = false)
    (hu : Undisturbed s.ms) : ∀ u ∈ s.ms.atc, u ∈ t.ms.atc := by
  have hfetch := (QuietSince.refl hu).resolve_leaves s.mmu .fetch s.pc s.priv
  cases step_effect h with
  | fetchRaised hres => exact (hfetch.of_raised hres).atc
  | ran hres heffect =>
    have hquiet := hfetch.of_ok hres
    cases heffect with
    | raised | branched => exact hquiet.atc
    | accessRaised hres => exact ((hquiet.resolve_leaves _ _ _ _).of_raised hres).atc
    | csrWritten => simpa using hquiet.atc
    | completed _ hm => exact hm.keeps_entries hfence hquiet

/-- Settles O56: U-mode passes no access check of a control register, and may not fence. -/
theorem userModeCannotTouchControl : Obligations.UserModeCannotTouchControl := by
  intro s t hpriv h
  have hkept : t.mstatus = s.mstatus ∧ t.satp = s.satp := by
    rcases step_control h with hkept | ⟨n, c, v, hacc, -⟩
    · exact hkept
    · exact absurd (csrIllegal_of_user hpriv n) (csrOf_of_csrAccess hacc).2
  exact ⟨hkept.2, hkept.1, step_keeps_entries h ((sfenceAllowed_eq_false_iff s).mpr (.inl hpriv))⟩

/-- Settles O57: in S-mode the control-register write is one of `sstatus` or, with TVM clear, of `satp`, and with TVM set
the supervisor may not fence. -/
theorem supervisorControlIsLimited : Obligations.SupervisorControlIsLimited := by
  intro s t hpriv h
  have hentries (htvm : s.mstatus.tvm = true) :=
    step_keeps_entries h ((sfenceAllowed_eq_false_iff s).mpr (.inr ⟨hpriv, htvm⟩))
  rcases step_control h with ⟨hmstatus, hsatp⟩ | ⟨n, c, v, hacc, hmstatus, hsatp⟩
  · rw [hmstatus]
    exact ⟨rfl, rfl, rfl, fun htvm => ⟨hsatp, hentries htvm⟩⟩
  · rw [hmstatus, hsatp]
    cases c with
    | sstatus => exact ⟨rfl, rfl, rfl, fun htvm => ⟨rfl, hentries htvm⟩⟩
    | satp => exact ⟨rfl, rfl, rfl, fun htvm => absurd hacc (csrAccess_ne_satp hpriv htvm n)⟩
    | mstatus => exact absurd (priv_of_csrAccess_mstatus hacc) (by simp [hpriv])

end Sys2Proof.Machine
